-- ==== Sys2Proof/Word.lean ====
section
/-! DEFINITION. The word types of the KFS PS/2 mouse block (00_scope.md rule R7): what the spec treats as bits. -/

namespace Sys2Proof

/-- `u8` (and, read through `toInt`, `i8`): one byte of a port access, of the packet buffer, or of an operand. -/
abbrev Byte := BitVec 8

/-- `i16` (its value is `toInt`): a position accumulator or a widened delta. -/
abbrev I16 := BitVec 16

/-- The 11-bit host request word of format OP (30_encoding.md rule R50). -/
abbrev ReqWord := BitVec 11

/-- An address of the I/O port space (20_memory.md rule R30). The spec gives it no width and never computes with it,
so it is a number. -/
abbrev PortAddr := Nat

end Sys2Proof
end

