-- ==== Sys2Proof/Config.lean ====
section
/-! DEFINITION. The implementation parameters of 00_scope.md rule R5, their constraints (rule R6), the constants the
source fixes, and the free values.

A `Config` is a field of `State` that no step changes (notes/assumptions/1.md), so a statement about every state is a
statement about every value of every parameter. -/

namespace Sys2Proof

/-- `WR_EXHAUST`: what an exhausted write-side wait does (40_transport.md rule R82). -/
inductive WrExhaust where
  /-- The write that follows the wait is performed all the same. -/
  | proceed
  /-- The first exhausted wait raises Timeout and later writes are not performed. -/
  | timeout
  deriving DecidableEq, Repr

/-- The two ports of rule R30. -/
inductive Port where
  /-- The data port. -/
  | data
  /-- The combined status/command port. -/
  | stcmd
  deriving DecidableEq, Repr

/-- The parameters of rule R5 that an implementation fixes. -/
structure Config where
  /-- `PORT_DATA`. -/
  portData : PortAddr
  /-- `PORT_STCMD`. -/
  portStcmd : PortAddr
  /-- `ST_OBF`, a bit index of the status byte. -/
  stObf : Fin 8
  /-- `ST_IBF`. -/
  stIbf : Fin 8
  /-- `ST_AUX`. -/
  stAux : Fin 8
  /-- `C_ENABLE_AUX`. -/
  cEnableAux : Byte
  /-- `C_FWD_AUX`. -/
  cFwdAux : Byte
  /-- `C_SET_DEFAULTS`. -/
  cSetDefaults : Byte
  /-- `C_ENABLE_STREAM`. -/
  cEnableStream : Byte
  /-- `C_GET_ID`. -/
  cGetId : Byte
  /-- `C_SET_RATE`. -/
  cSetRate : Byte
  /-- `W_LIMIT`: status reads per write-side wait (rule R5: OPEN). -/
  wLimit : Nat
  /-- `R_LIMIT`: status reads per response poll (rule R5: OPEN). -/
  rLimit : Nat
  /-- `WR_EXHAUST`. -/
  wrExhaust : WrExhaust
  /-- `BTN_R_BIT`, a bit index of the flags byte. -/
  btnRBit : Fin 8
  /-- `BTN_M_BIT`. -/
  btnMBit : Fin 8
  deriving DecidableEq, Repr

namespace Config

/-- `FRAME_BIT` (30_encoding.md rule R55). -/
def frameBit : Nat := 3
/-- `XS_BIT`. -/
def xsBit : Nat := 4
/-- `YS_BIT`. -/
def ysBit : Nat := 5
/-- `BTN_L_BIT` (rule R56). -/
def btnLBit : Nat := 0
/-- `WHEEL_ID`: the device ID that selects the 4-byte mode (41_initializer.md rule R106). -/
def wheelId : Byte := 3
/-- `POS_RESET` (10_state.md rule R26, the spec's decision D14). -/
def posReset : I16 := 0

/-- The parameters at the defaults of rule R5 (92_eei_decisions.md D1 to D3, D5, D12), the two OPEN ceilings being
arguments: they have no default. -/
def standard (wLimit rLimit : Nat) : Config where
  portData := 0x60
  portStcmd := 0x64
  stObf := 0
  stIbf := 1
  stAux := 5
  cEnableAux := 0xA8
  cFwdAux := 0xD4
  cSetDefaults := 0xF6
  cEnableStream := 0xF4
  cGetId := 0xF2
  cSetRate := 0xF3
  wLimit := wLimit
  rLimit := rLimit
  wrExhaust := .proceed
  btnRBit := 1
  btnMBit := 2

/-- The ceilings of `State.reset`: OPEN parameters (rule R5, D4), so free values (notes/assumptions/2.md). -/
opaque openWLimit : Nat
/-- See `openWLimit`. -/
opaque openRLimit : Nat

/-- The free bytes: the answer of the environment to a port read that the script does not answer (20_memory.md rule
R33: "a byte chosen by the environment, under no law") and the contents RESET leaves in the packet buffer (10_state.md
rule R26: "unspecified"). Applied to the counter `State.draws` (notes/assumptions/3.md and 4.md). -/
opaque freeByte : Nat → Byte

/-- The address of a port. -/
def addr (c : Config) : Port → PortAddr
  | .data => c.portData
  | .stcmd => c.portStcmd

/-- The constraints of rule R6: the two ports differ, the three status bits differ, the flags bits differ. -/
def wf (c : Config) : Bool :=
  c.portData != c.portStcmd
    && (c.stObf != c.stIbf && c.stObf != c.stAux && c.stIbf != c.stAux)
    && [btnLBit, c.btnRBit.val, c.btnMBit.val, frameBit, xsBit, ysBit].Nodup

/-- The nine bytes of format CMD (rule R58), in the order of the opcode table. -/
def cmdBytes (c : Config) : List Byte :=
  [c.cEnableAux, c.cFwdAux, c.cSetDefaults, c.cSetRate, 200, 100, 80, c.cGetId, c.cEnableStream]

/-- The nine bytes differ. The spec does not require it; it holds of the defaults, and where it holds a lone byte of
format CMD stands for one row only. -/
def cmdDistinct (c : Config) : Bool := c.cmdBytes.Nodup

end Config

end Sys2Proof
end

