-- ==== Sys2Proof/Syntax.lean ====
section
/-! DEFINITION. The instructions: one constructor for each row of spec/opcode_table.json (30_encoding.md rule R63).

Three formats make one inductive: the five host operations (format OP), the four packet classes that FEED executes
(formats P3 and P4), and the nine bytes the block emits (format CMD). -/

namespace Sys2Proof

/-- The instruction set. An `arg` the spec ignores (rule R51) is kept, so that no bit of an encoding is lost. -/
inductive Instr where
  /-- RESET, driver construction (41_initializer.md rule R100). -/
  | reset (arg : Byte)
  /-- INIT, the device initializer (rule R101). -/
  | init (arg : Byte)
  /-- WRCMD `b`, `write_command(byte)` (40_transport.md rule R81). -/
  | wrcmd (b : Byte)
  /-- RDRSP, `read_response()` (rule R83). -/
  | rdrsp (arg : Byte)
  /-- FEED `b`, one raw byte of the packet stream (42_assembler.md rule R120). -/
  | feed (b : Byte)
  /-- PKT3.DROP: a malformed 3-byte packet (43_decoder.md rule R130). -/
  | pkt3Drop (flags xb yb : Byte)
  /-- PKT3.EXEC: a well-formed 3-byte packet (rule R131). -/
  | pkt3Exec (flags xb yb : Byte)
  /-- PKT4.DROP: a malformed 4-byte packet (rule R130). -/
  | pkt4Drop (flags xb yb zb : Byte)
  /-- PKT4.EXEC: a well-formed 4-byte packet (rule R131). -/
  | pkt4Exec (flags xb yb zb : Byte)
  /-- C_ENABLE_AUX: the emitted byte enable-second-port (30_encoding.md rule R58). -/
  | cEnableAux
  /-- C_FWD_AUX: forward-to-auxiliary-device. -/
  | cFwdAux
  /-- C_SET_DEFAULTS: set-defaults. -/
  | cSetDefaults
  /-- C_SET_RATE: set-sample-rate. -/
  | cSetRate
  /-- RATE_200: the first rate argument of the magic sequence. -/
  | rate200
  /-- RATE_100: the second. -/
  | rate100
  /-- RATE_80: the third. -/
  | rate80
  /-- C_GET_ID: get-device-id. -/
  | cGetId
  /-- C_ENABLE_STREAM: enable-streaming. -/
  | cEnableStream
  deriving DecidableEq, Repr

/-- The five operations the host requests (format OP); the packet classes and the emitted bytes are none. -/
def Instr.isRequest : Instr → Bool
  | .reset _ => true
  | .init _ => true
  | .wrcmd _ => true
  | .rdrsp _ => true
  | .feed _ => true
  | .pkt3Drop _ _ _ => false
  | .pkt3Exec _ _ _ => false
  | .pkt4Drop _ _ _ _ => false
  | .pkt4Exec _ _ _ _ => false
  | .cEnableAux => false
  | .cFwdAux => false
  | .cSetDefaults => false
  | .cSetRate => false
  | .rate200 => false
  | .rate100 => false
  | .rate80 => false
  | .cGetId => false
  | .cEnableStream => false

end Sys2Proof
end

