-- ==== Sys2Proof/WellFormed.lean ====
section
/-! DEFINITION. Which terms of `Instr` are instructions: a packet term carries its flags byte whole, and the framing
bit of that byte decides its class (30_encoding.md rule R62). -/

namespace Sys2Proof

/-- The framing bit of a flags byte (43_decoder.md rule R130). -/
def framed (flags : Byte) : Bool := flags.getLsbD Config.frameBit

/-- An instruction is well formed when its framing bit is the one of its class; every other operand value is legal
(rule R65, rule R66). -/
def Instr.wf : Instr → Bool
  | .reset _ => true
  | .init _ => true
  | .wrcmd _ => true
  | .rdrsp _ => true
  | .feed _ => true
  | .pkt3Drop flags _ _ => !framed flags
  | .pkt3Exec flags _ _ => framed flags
  | .pkt4Drop flags _ _ _ => !framed flags
  | .pkt4Exec flags _ _ _ => framed flags
  | .cEnableAux => true
  | .cFwdAux => true
  | .cSetDefaults => true
  | .cSetRate => true
  | .rate200 => true
  | .rate100 => true
  | .rate80 => true
  | .cGetId => true
  | .cEnableStream => true

end Sys2Proof
end

