-- ==== Sys2Proof/Decode.lean ====
section
/-! DEFINITION. Decoding, total on any bytes, and encoding (30_encoding.md rules R50 to R63).

The four formats have four lengths in whole bytes: CMD 1, OP 2 (11 bits, the five above them zero), P3 3, P4 4. A word
wider than a byte lies with its least significant byte first, as opcode_table.json numbers its bits; for a packet that is
arrival order (rule R52). -/

namespace Sys2Proof

/-- Why bytes are no instruction. -/
inductive DecodeError where
  /-- Format OP, `op` 5, 6 or 7: no such operation (rule R51, rule R66). -/
  | reservedOp
  /-- Two bytes whose bits 15:11 are not zero: a request word has 11 bits (rule R50). -/
  | requestTooWide
  /-- One byte that is none of the nine of format CMD (rule R58). -/
  | noSuchCommand
  /-- A number of bytes that no format has. -/
  | noSuchLength
  deriving DecidableEq, Repr

/-- Format OP (rule R51): `op` is bits 10:8, `arg` bits 7:0. -/
def decodeRequest (w : ReqWord) : Except DecodeError Instr :=
  match (w.extractLsb' 8 3).toNat with
  | 0 => .ok (.reset (w.extractLsb' 0 8))
  | 1 => .ok (.init (w.extractLsb' 0 8))
  | 2 => .ok (.wrcmd (w.extractLsb' 0 8))
  | 3 => .ok (.rdrsp (w.extractLsb' 0 8))
  | 4 => .ok (.feed (w.extractLsb' 0 8))
  | _ => .error .reservedOp

/-- Format P3 (rule R53): the framing bit of the first byte tells the class (rule R62). -/
def decodeP3 (flags xb yb : Byte) : Instr :=
  if framed flags then .pkt3Exec flags xb yb else .pkt3Drop flags xb yb

/-- Format P4 (rule R54). -/
def decodeP4 (flags xb yb zb : Byte) : Instr :=
  if framed flags then .pkt4Exec flags xb yb zb else .pkt4Drop flags xb yb zb

/-- Format CMD (rule R58, rule R63): which of the nine emitted bytes this one is, under the parameters' values. -/
def decodeCmd (c : Config) (b : Byte) : Except DecodeError Instr :=
  if b = c.cEnableAux then .ok .cEnableAux
  else if b = c.cFwdAux then .ok .cFwdAux
  else if b = c.cSetDefaults then .ok .cSetDefaults
  else if b = c.cSetRate then .ok .cSetRate
  else if b = 200 then .ok .rate200
  else if b = 100 then .ok .rate100
  else if b = 80 then .ok .rate80
  else if b = c.cGetId then .ok .cGetId
  else if b = c.cEnableStream then .ok .cEnableStream
  else .error .noSuchCommand

/-- The 16 bits of two bytes, the first the lower. -/
def pairNat (lo hi : Byte) : Nat := hi.toNat * 256 + lo.toNat

/-- The instruction some bytes hold. -/
def decode (c : Config) : List Byte → Except DecodeError Instr
  | [b] => decodeCmd c b
  | [lo, hi] =>
    if hi.toNat < 8 then decodeRequest (BitVec.ofNat 11 (pairNat lo hi)) else .error .requestTooWide
  | [flags, xb, yb] => .ok (decodeP3 flags xb yb)
  | [flags, xb, yb, zb] => .ok (decodeP4 flags xb yb zb)
  | _ => .error .noSuchLength

/-- The port and the byte of an emitted byte's row (rule R58's table: the column "written to"); `none` for the rows that
are no emitted bytes. -/
def emission (c : Config) : Instr → Option (Port × Byte)
  | .reset _ => none
  | .init _ => none
  | .wrcmd _ => none
  | .rdrsp _ => none
  | .feed _ => none
  | .pkt3Drop _ _ _ => none
  | .pkt3Exec _ _ _ => none
  | .pkt4Drop _ _ _ _ => none
  | .pkt4Exec _ _ _ _ => none
  | .cEnableAux => some (.stcmd, c.cEnableAux)
  | .cFwdAux => some (.stcmd, c.cFwdAux)
  | .cSetDefaults => some (.data, c.cSetDefaults)
  | .cSetRate => some (.data, c.cSetRate)
  | .rate200 => some (.data, 200)
  | .rate100 => some (.data, 100)
  | .rate80 => some (.data, 80)
  | .cGetId => some (.data, c.cGetId)
  | .cEnableStream => some (.data, c.cEnableStream)

/-- The request word of an operation: `op` above `arg`. -/
def requestWord (op : Nat) (arg : Byte) : ReqWord := BitVec.ofNat 11 (op * 256 + arg.toNat)

/-- The two bytes of a request word, the lower first. -/
def requestBytes (op : Nat) (arg : Byte) : List Byte := [arg, BitVec.ofNat 8 op]

/-- The bytes of an instruction (rules R51, R53, R54, R58). -/
def encode (c : Config) : Instr → List Byte
  | .reset arg => requestBytes 0 arg
  | .init arg => requestBytes 1 arg
  | .wrcmd b => requestBytes 2 b
  | .rdrsp arg => requestBytes 3 arg
  | .feed b => requestBytes 4 b
  | .pkt3Drop flags xb yb => [flags, xb, yb]
  | .pkt3Exec flags xb yb => [flags, xb, yb]
  | .pkt4Drop flags xb yb zb => [flags, xb, yb, zb]
  | .pkt4Exec flags xb yb zb => [flags, xb, yb, zb]
  | .cEnableAux => [c.cEnableAux]
  | .cFwdAux => [c.cFwdAux]
  | .cSetDefaults => [c.cSetDefaults]
  | .cSetRate => [c.cSetRate]
  | .rate200 => [200]
  | .rate100 => [100]
  | .rate80 => [80]
  | .cGetId => [c.cGetId]
  | .cEnableStream => [c.cEnableStream]

/-- The request word of a host operation, `none` for the rows that are no request. -/
def encodeRequest : Instr → Option ReqWord
  | .reset arg => some (requestWord 0 arg)
  | .init arg => some (requestWord 1 arg)
  | .wrcmd b => some (requestWord 2 b)
  | .rdrsp arg => some (requestWord 3 arg)
  | .feed b => some (requestWord 4 b)
  | .pkt3Drop _ _ _ => none
  | .pkt3Exec _ _ _ => none
  | .pkt4Drop _ _ _ _ => none
  | .pkt4Exec _ _ _ _ => none
  | .cEnableAux => none
  | .cFwdAux => none
  | .cSetDefaults => none
  | .cSetRate => none
  | .rate200 => none
  | .rate100 => none
  | .rate80 => none
  | .cGetId => none
  | .cEnableStream => none

/-- The mnemonic of opcode_table.json. -/
def Instr.mnemonic : Instr → String
  | .reset _ => "RESET"
  | .init _ => "INIT"
  | .wrcmd _ => "WRCMD"
  | .rdrsp _ => "RDRSP"
  | .feed _ => "FEED"
  | .pkt3Drop _ _ _ => "PKT3.DROP"
  | .pkt3Exec _ _ _ => "PKT3.EXEC"
  | .pkt4Drop _ _ _ _ => "PKT4.DROP"
  | .pkt4Exec _ _ _ _ => "PKT4.EXEC"
  | .cEnableAux => "C_ENABLE_AUX"
  | .cFwdAux => "C_FWD_AUX"
  | .cSetDefaults => "C_SET_DEFAULTS"
  | .cSetRate => "C_SET_RATE"
  | .rate200 => "RATE_200"
  | .rate100 => "RATE_100"
  | .rate80 => "RATE_80"
  | .cGetId => "C_GET_ID"
  | .cEnableStream => "C_ENABLE_STREAM"

/-- One row of the opcode table: a word `w` of `width` bits is in the row when `w &&& mask = pattern`. -/
structure OpcodeRow where
  mnemonic : String
  width : Nat
  mask : Nat
  pattern : Nat
  deriving DecidableEq, Repr

/-- The opcode table (rule R63), the emitted bytes at the parameters' values. -/
def opcodeTable (c : Config) : List OpcodeRow :=
  [ ⟨"RESET", 11, 0x700, 0x000⟩, ⟨"INIT", 11, 0x700, 0x100⟩, ⟨"WRCMD", 11, 0x700, 0x200⟩,
    ⟨"RDRSP", 11, 0x700, 0x300⟩, ⟨"FEED", 11, 0x700, 0x400⟩,
    ⟨"PKT3.DROP", 24, 0x08, 0x00⟩, ⟨"PKT3.EXEC", 24, 0x08, 0x08⟩,
    ⟨"PKT4.DROP", 32, 0x08, 0x00⟩, ⟨"PKT4.EXEC", 32, 0x08, 0x08⟩ ] ++
  [ ⟨"C_ENABLE_AUX", 8, 0xFF, c.cEnableAux.toNat⟩, ⟨"C_FWD_AUX", 8, 0xFF, c.cFwdAux.toNat⟩,
    ⟨"C_SET_DEFAULTS", 8, 0xFF, c.cSetDefaults.toNat⟩, ⟨"C_SET_RATE", 8, 0xFF, c.cSetRate.toNat⟩,
    ⟨"RATE_200", 8, 0xFF, 200⟩, ⟨"RATE_100", 8, 0xFF, 100⟩, ⟨"RATE_80", 8, 0xFF, 80⟩,
    ⟨"C_GET_ID", 8, 0xFF, c.cGetId.toNat⟩, ⟨"C_ENABLE_STREAM", 8, 0xFF, c.cEnableStream.toNat⟩ ]

/-- The word `w` of `width` bits is in the row (rule R50's "match and mask values"). -/
def OpcodeRow.matches (r : OpcodeRow) (width w : Nat) : Bool := width == r.width && w &&& r.mask == r.pattern

/-- The bytes of the number `w`, `n` of them, the lowest first. -/
def bytesOfNat : Nat → Nat → List Byte
  | 0, _ => []
  | n + 1, w => BitVec.ofNat 8 w :: bytesOfNat n (w / 256)

/-- The instruction the decoder reads from a word of the opcode table, `nbits` its length, under the parameters'
default values (the ceilings play no part in decoding). -/
def decodeTableWord (nbits w : Nat) : Option Instr :=
  (decode (Config.standard 0 0) (bytesOfNat ((nbits + 7) / 8) w)).toOption

end Sys2Proof
end

