-- ==== Sys2Proof/Machine/State.lean ====
section
/-! DEFINITION. The state of the block, as plain data, and the state after reset.

The ten registers are 10_state.md rule R10's; `seq` is the transient sequencer of rule R16 and 40_transport.md rule
R89. The other fields are no registers: they are the inputs of the step relation (rule R28: parameters, environment,
host) and the records a run is judged by (the event history of 20_memory.md rule R35, the results of 30_encoding.md
rule R67). The block reads neither record. -/

namespace Sys2Proof.Machine

/-- `packet_size`: 3 or 4 and nothing else (rule R14, invariant I-b of rule R25). -/
inductive PacketSize where
  | three
  | four
  deriving DecidableEq, Repr

/-- The packet buffer `buf[0..3]` (rule R13). -/
structure PacketBuf where
  b0 : Byte
  b1 : Byte
  b2 : Byte
  b3 : Byte
  deriving DecidableEq, Repr

/-- A button (rule R68). -/
inductive Button where
  | left
  | right
  | middle
  deriving DecidableEq, Repr

/-- The event output (rule R27, rule R68). -/
inductive Event where
  | move (dx dy : I16)
  | buttonPressed (b : Button)
  | buttonReleased (b : Button)
  | wheelUp
  | wheelDown
  deriving DecidableEq, Repr

/-- Where a Timeout was raised (60_exceptions.md rule R161): diagnostic only. -/
inductive Site where
  | rdrsp
  | wrcmdWait1
  | wrcmdWait2
  | initEnablePort
  | initSetDefaults
  | initEnableStream
  deriving DecidableEq, Repr

/-- The two error kinds (rules R161, R162). -/
inductive ErrorKind where
  /-- A bounded wait was exhausted. -/
  | timeout (site : Site)
  /-- The device ID is not 3. Raised in INIT's step 5 only, and never delivered to the host. -/
  | unsupportedFeature
  deriving DecidableEq, Repr

/-- What an operation delivers to the host when it ends (30_encoding.md rule R67). RESET delivers nothing. -/
inductive Result where
  /-- `Ok` of INIT and WRCMD. -/
  | ok
  /-- `Ok(byte)` of RDRSP. -/
  | okByte (v : Byte)
  /-- `Err(E)`. -/
  | err (e : ErrorKind)
  /-- `None` or `Some(event)` of FEED. -/
  | event (e : Option Event)
  deriving DecidableEq, Repr

/-- One port access of the event history (20_memory.md rule R35): `Rd(p, v)` or `Wr(p, v)`. -/
inductive Access where
  | rd (p : PortAddr) (v : Byte)
  | wr (p : PortAddr) (v : Byte)
  deriving DecidableEq, Repr

/-- The three rates of INIT's step 3, in their order (41_initializer.md rule R104). -/
inductive Rate where
  | r200
  | r100
  | r80
  deriving DecidableEq, Repr

/-- Where INIT stands, named by the byte whose answer it awaits (rule R101). -/
inductive InitStage where
  /-- Step 2. -/
  | setDefaults
  /-- Step 3, the command byte before a rate. -/
  | rateCmd (r : Rate)
  /-- Step 3, the rate itself. -/
  | rateArg (r : Rate)
  /-- Step 4, the command byte and its acknowledgment. -/
  | getId
  /-- Step 4, the ID byte. -/
  | readId
  /-- Step 6. -/
  | stream
  deriving DecidableEq, Repr

/-- On whose behalf a WRCMD or an RDRSP runs. -/
inductive Caller where
  | host
  | init (stage : InitStage)
  deriving DecidableEq, Repr

/-- What follows the write of one byte to a port. -/
inductive AfterWrite where
  /-- Nothing: one emitted byte on its own (how a row of format CMD is run alone, notes/assumptions/9.md). -/
  | done
  /-- INIT's step 1 ends with this write, step 2 follows (rule R102). -/
  | enabled
  /-- `C_FWD_AUX` was this byte: the second wait follows, then the payload (40_transport.md rule R81). -/
  | forwarded (payload : Byte) (caller : Caller)
  /-- The payload was this byte: the WRCMD ends. -/
  | sent (caller : Caller)
  deriving DecidableEq, Repr

/-- The transient sequencer (10_state.md rule R16, 40_transport.md rule R89): where the operation in progress stands,
between two port accesses. `cnt` counts the status reads made in the wait. -/
inductive Seq where
  /-- No operation in progress. -/
  | idle
  /-- A packet is complete and handed to the decoder: the instant inside a FEED between the store and DECODE. -/
  | decode
  /-- INIT's step 1: about to make status read number `cnt + 1`. -/
  | enableWait (cnt : Nat)
  /-- About to write `b` to `p`: the positions CW and DW of rule R89 and the write of INIT's step 1. -/
  | emit (p : Port) (b : Byte) (next : AfterWrite)
  /-- W1 of rule R89. -/
  | wait1 (cnt : Nat) (payload : Byte) (caller : Caller)
  /-- W2 of rule R89. -/
  | wait2 (cnt : Nat) (payload : Byte) (caller : Caller)
  /-- P of rule R89. -/
  | poll (cnt : Nat) (caller : Caller)
  /-- DR of rule R89: about to read the data port. -/
  | dataRead (caller : Caller)
  deriving DecidableEq, Repr

/-- What the host has done so far, as far as a refusal the spec asks for depends on it (notes/assumptions/7.md). -/
inductive Session where
  /-- No RESET yet (70_reset_and_hazards.md rule R180). -/
  | unconstructed
  /-- After RESET; no INIT has returned `Ok` since. -/
  | ready
  /-- An INIT returned `Ok` since the last RESET (41_initializer.md rule R111). -/
  | configured
  deriving DecidableEq, Repr

/-- The faults of the block: none. No condition of the spec stops the machine (60_exceptions.md rules R164, R168 and
R170: Timeout, a malformed packet and an unsupported feature are specified results; nothing is ever stuck). -/
inductive Fault
  deriving DecidableEq, Repr

/-- Why a step has no meaning. Each is a refusal the spec asks a model for, and each is safe: the model stops where the
spec gives no behaviour. -/
inductive Refusal where
  /-- An arm of `exec` without a meaning yet. Raised by no arm. Safe. -/
  | notModelled (mnemonic : String)
  /-- A request while another operation is in progress (20_memory.md rule R38). Raised by the five host operations, and
  by a packet class while a transport operation is in progress. Safe. -/
  | overlappingRequest
  /-- An operation other than RESET before the first RESET (70_reset_and_hazards.md rule R180). Raised by INIT, WRCMD,
  RDRSP and FEED. Safe. -/
  | beforeReset
  /-- INIT after an INIT that returned `Ok` (41_initializer.md rule R111). Raised by INIT. Safe. -/
  | initAfterInit
  /-- A request word whose `op` is 5, 6 or 7 (30_encoding.md rule R66). Raised by `step`. Safe. -/
  | reservedRequest
  deriving DecidableEq, Repr

end Sys2Proof.Machine

namespace Sys2Proof.Machine

/-- Everything the spec gives the block, and the inputs and records of a run. -/
structure State where
  /-- The parameters (00_scope.md rule R5); no step changes them. -/
  cfg : Config
  /-- `held_l` (10_state.md rule R11). -/
  heldL : Bool
  /-- `held_r`. -/
  heldR : Bool
  /-- `held_m`. -/
  heldM : Bool
  /-- `pos_x` (rule R12). -/
  posX : I16
  /-- `pos_y`. -/
  posY : I16
  /-- `wheel_capable` (rule R14). -/
  wheelCapable : Bool
  /-- `packet_size` (rule R14). -/
  packetSize : PacketSize
  /-- `buf[0..3]` (rule R13). -/
  buf : PacketBuf
  /-- `idx` (rule R15), 2 bits. -/
  idx : Fin 4
  /-- The transient sequencer (rule R16). -/
  seq : Seq
  /-- The host's conduct (notes/assumptions/7.md). -/
  session : Session
  /-- The host's requests not yet begun, the next first (rule R28). -/
  requests : List ReqWord
  /-- The environment's answers to the next port reads, the next first (20_memory.md rule R33). -/
  script : List Byte
  /-- How many free bytes have been drawn (the model's own; see `Config.freeByte`). -/
  draws : Nat
  /-- The event history, the first access first (20_memory.md rule R35). -/
  history : List Access
  /-- The results delivered to the host, the first first (rule R27). -/
  results : List Result
  deriving DecidableEq, Repr

/-- The block right after RESET under the parameters `c` (10_state.md rule R26, 70_reset_and_hazards.md rule R181),
nothing requested, nothing scripted, nothing recorded. The packet buffer, which the spec leaves unspecified, is zero here
(notes/assumptions/4.md). -/
def State.resetWith (c : Config) : State where
  cfg := c
  heldL := false
  heldR := false
  heldM := false
  posX := Config.posReset
  posY := Config.posReset
  wheelCapable := false
  packetSize := .three
  buf := ⟨0, 0, 0, 0⟩
  idx := 0
  seq := .idle
  session := .ready
  requests := []
  script := []
  draws := 0
  history := []
  results := []

/-- The machine right after reset: the parameters at their defaults, the two OPEN ceilings free (rule R5). -/
def State.reset : State := State.resetWith (Config.standard Config.openWLimit Config.openRLimit)

end Sys2Proof.Machine
end

