-- ==== Sys2Proof/Machine/Ops.lean ====
section
/-! DEFINITION. The shared operations over the state: port access, the packet buffer, the fill index, delivering a
result, raising an error to the host, accepting a request. -/

namespace Sys2Proof.Machine

/-! ### Port access (20_memory.md rules R30 to R39) -/

/-- The byte the environment would return to the `n`-th of the next port reads, counting from 0: the script first, then
free bytes (rule R33). It depends on no port: the environment is bound by no law. -/
def State.answer (s : State) (n : Nat) : Byte :=
  match s.script[n]? with
  | some v => v
  | none => Config.freeByte (s.draws + (n - s.script.length))

/-- `PortRead(p)`: one byte from the environment, one access of the history (rules R33, R35). -/
def portRead (p : PortAddr) (s : State) : Byte × State :=
  match s.script with
  | v :: rest => (v, { s with script := rest, history := s.history ++ [.rd p v] })
  | [] =>
    (Config.freeByte s.draws,
      { s with draws := s.draws + 1, history := s.history ++ [.rd p (Config.freeByte s.draws)] })

/-- `PortWrite(p, v)`: one access of the history; a write always succeeds (rule R35, 60_exceptions.md rule R172). -/
def portWrite (p : PortAddr) (v : Byte) (s : State) : State :=
  { s with history := s.history ++ [.wr p v] }

/-- One read of the status port. -/
def readStatus (s : State) : Byte × State := portRead s.cfg.portStcmd s

/-- One read of the data port. -/
def readData (s : State) : Byte × State := portRead s.cfg.portData s

/-- One write of a byte to the command port or the data port. -/
def writePort (p : Port) (v : Byte) (s : State) : State := portWrite (s.cfg.addr p) v s

/-! ### The packet buffer and the fill index (10_state.md rules R13, R15) -/

/-- `buf[i]`. -/
def PacketBuf.get (b : PacketBuf) (i : Fin 4) : Byte :=
  match i with
  | 0 => b.b0
  | 1 => b.b1
  | 2 => b.b2
  | 3 => b.b3

/-- `buf[i] <- v`. -/
def PacketBuf.set (b : PacketBuf) (i : Fin 4) (v : Byte) : PacketBuf :=
  match i with
  | 0 => { b with b0 := v }
  | 1 => { b with b1 := v }
  | 2 => { b with b2 := v }
  | 3 => { b with b3 := v }

/-- `packet_size` as a number. -/
def PacketSize.len : PacketSize → Nat
  | .three => 3
  | .four => 4

/-- `buf[idx] <- b` (42_assembler.md rule R120). -/
def storeByte (b : Byte) (s : State) : State := { s with buf := s.buf.set s.idx b }

/-- `idx <- i`. -/
def setIdx (i : Fin 4) (s : State) : State := { s with idx := i }

/-- The byte about to be stored fills the last slot in use: `idx = packet_size - 1` (rule R122). -/
def State.lastSlot (s : State) : Bool := s.idx.val + 1 == s.packetSize.len

/-- The instruction a complete packet in the buffer is, in the format in force (30_encoding.md rules R62 and R64). -/
def State.packetInstr (s : State) : Instr :=
  match s.packetSize with
  | .three => decodeP3 s.buf.b0 s.buf.b1 s.buf.b2
  | .four => decodeP4 s.buf.b0 s.buf.b1 s.buf.b2 s.buf.b3

/-! ### The sequencer, the session, results and errors -/

/-- No operation in progress (10_state.md rule R16). -/
def Seq.isIdle : Seq → Bool
  | .idle => true
  | .decode => false
  | .enableWait _ => false
  | .emit _ _ _ => false
  | .wait1 _ _ _ => false
  | .wait2 _ _ _ => false
  | .poll _ _ => false
  | .dataRead _ => false

/-- A complete packet may be decoded: at the instant of the FEED that completed it, or on its own. -/
def Seq.mayDecode : Seq → Bool
  | .idle => true
  | .decode => true
  | .enableWait _ => false
  | .emit _ _ _ => false
  | .wait1 _ _ _ => false
  | .wait2 _ _ _ => false
  | .poll _ _ => false
  | .dataRead _ => false

/-- Move the sequencer. -/
def setSeq (q : Seq) (s : State) : State := { s with seq := q }

/-- Deliver a result to the host (30_encoding.md rule R67). -/
def deliver (r : Result) (s : State) : State := { s with results := s.results ++ [r] }

/-- An error reaches the end of the host operation (60_exceptions.md rules R160 and R167): the result is `Err(E)`. Nothing
is saved, no register is written, no mode changes; there is no handler and so no return from one (rule R168). -/
def raiseToHost (e : ErrorKind) (s : State) : State := deliver (.err e) s

/-- An INIT has returned `Ok` (41_initializer.md rule R111). -/
def markConfigured (s : State) : State := { s with session := .configured }

/-- Accept a request of the host: refused while another operation is in progress (20_memory.md rule R38) and, but for
RESET, before the first RESET (70_reset_and_hazards.md rule R180). -/
def acceptRequest (s : State) (run : State → Host.Outcome State Fault Refusal) : Host.Outcome State Fault Refusal :=
  match s.seq.isIdle with
  | false => .refused .overlappingRequest
  | true =>
    match s.session with
    | .unconstructed => .refused .beforeReset
    | .ready => run s
    | .configured => run s

/-- Accept a complete packet: refused while a transport operation is in progress (rule R38). -/
def acceptPacket (s : State) (run : State → State) : Host.Outcome State Fault Refusal :=
  match s.seq.mayDecode with
  | false => .refused .overlappingRequest
  | true => .next (run s)

/-! ### RESET's register values -/

/-- RESET's write of the registers (41_initializer.md rule R100): the values of 10_state.md rule R26, the four buffer
bytes left free. No port access; nothing of the environment, the requests, the parameters or the records changes. -/
def resetRegisters (s : State) : State :=
  { s with
    heldL := false, heldR := false, heldM := false
    posX := Config.posReset, posY := Config.posReset
    wheelCapable := false, packetSize := .three
    buf := ⟨Config.freeByte s.draws, Config.freeByte (s.draws + 1), Config.freeByte (s.draws + 2),
      Config.freeByte (s.draws + 3)⟩
    draws := s.draws + 4
    idx := 0, seq := .idle, session := .ready }

/-- INIT's write of the two configuration registers, both together (41_initializer.md rule R106). -/
def configureWheel (s : State) : State := { s with wheelCapable := true, packetSize := .four }

end Sys2Proof.Machine
end

