-- ==== Sys2Proof/Machine/Operands.lean ====
section
/-! DEFINITION. The operands of a packet: the 9-bit deltas widened, y negated, the wheel byte's sign, and the saturating
addition (30_encoding.md rules R60, R61; 43_decoder.md rules R132 to R135, R141). -/

namespace Sys2Proof.Machine

/-- A data byte under its sign bit, widened to `i16` as the source prescribes: the high byte ORed with 0xFF00 when the sign
bit is set (rule R132). -/
def widen (sign : Bool) (data : Byte) : I16 :=
  (if sign then (0xFF00 : I16) else 0) ||| data.zeroExtend 16

/-- `dx` (rule R132). -/
def deltaX (flags xb : Byte) : I16 := widen (flags.getLsbD Config.xsBit) xb

/-- `dy_dev`, the y delta in the device's bottom-up convention (rule R132). -/
def deltaYDevice (flags yb : Byte) : I16 := widen (flags.getLsbD Config.ysBit) yb

/-- `dy`, negated to the top-down convention (rule R134). -/
def deltaY (flags yb : Byte) : I16 := -deltaYDevice flags yb

/-- `sat_add16` (rule R135): the exact sum, clamped to the range of `i16`. -/
def satAdd16 (a b : I16) : I16 :=
  if 32767 < a.toInt + b.toInt then 32767
  else if a.toInt + b.toInt < -32768 then -32768
  else BitVec.ofInt 16 (a.toInt + b.toInt)

/-- The wheel event of a wheel byte, read as `i8`: positive up, negative down, zero none (rule R141). -/
def wheelEvent (zb : Byte) : Option Event :=
  if 0 < zb.toInt then some .wheelUp else if zb.toInt < 0 then some .wheelDown else none

/-- The Move event of the computed deltas, when one is not zero (rule R142). -/
def moveEvent (dx dy : I16) : Option Event :=
  if dx ≠ 0 ∨ dy ≠ 0 then some (.move dx dy) else none

end Sys2Proof.Machine
end

