-- ==== Sys2Proof/Machine/Flags.lean ====
section
/-! DEFINITION. The flag-like bits (10_state.md rule R18): the status bits a wait tests, the button bits of a flags byte,
and the held registers with their edge detection. -/

namespace Sys2Proof.Machine

/-- IBF of a status byte (30_encoding.md rule R57). -/
def inputFull (c : Config) (status : Byte) : Bool := status.getLsbD c.stIbf.val

/-- OBF and AUX of a status byte, both set: a byte from the mouse waits (40_transport.md rule R83). -/
def responseReady (c : Config) (status : Byte) : Bool :=
  status.getLsbD c.stObf.val && status.getLsbD c.stAux.val

/-- The flags byte's bit for a button (30_encoding.md rule R55, rule R56). -/
def buttonDown (c : Config) (flags : Byte) : Button → Bool
  | .left => flags.getLsbD Config.btnLBit
  | .right => flags.getLsbD c.btnRBit.val
  | .middle => flags.getLsbD c.btnMBit.val

/-- The held register of a button (10_state.md rule R11). -/
def State.held (s : State) : Button → Bool
  | .left => s.heldL
  | .right => s.heldR
  | .middle => s.heldM

/-- Write the held register of a button. -/
def setHeld (b : Button) (v : Bool) (s : State) : State :=
  match b with
  | .left => { s with heldL := v }
  | .right => { s with heldR := v }
  | .middle => { s with heldM := v }

/-- The event of a reported edge (43_decoder.md rule R137). -/
def edgeEvent (b : Button) (down : Bool) : Event := if down then .buttonPressed b else .buttonReleased b

/-- The first button, in the order Left, Right, Middle, whose flags bit differs from its held register (rule R136). -/
def firstEdge (flags : Byte) (s : State) : Option Button :=
  if buttonDown s.cfg flags .left ≠ s.heldL then some .left
  else if buttonDown s.cfg flags .right ≠ s.heldR then some .right
  else if buttonDown s.cfg flags .middle ≠ s.heldM then some .middle
  else none

end Sys2Proof.Machine
end

