-- ==== Sys2Proof/Machine/Packet.lean ====
section
/-! DEFINITION. DECODE and the four packet classes (43_decoder.md). -/

namespace Sys2Proof.Machine

/-- The position update, of both axes, on every well-formed packet (rule R135). -/
def accumulate (dx dy : I16) (s : State) : State :=
  { s with posX := satAdd16 s.posX dx, posY := satAdd16 s.posY dy }

/-- The body of DECODE on a well-formed packet (rule R131): the position first, then the first of button edge, wheel and
Move that applies. `zb` is looked at only while `wheel_capable` (rule R141). -/
def decodeBody (flags xb yb zb : Byte) (s : State) : State × Option Event :=
  let s1 := accumulate (deltaX flags xb) (deltaY flags yb) s
  match firstEdge flags s with
  | some b => (setHeld b (buttonDown s.cfg flags b) s1, some (edgeEvent b (buttonDown s.cfg flags b)))
  | none =>
    match (if s.wheelCapable then wheelEvent zb else none) with
    | some e => (s1, some e)
    | none => (s1, moveEvent (deltaX flags xb) (deltaY flags yb))

/-- End a packet: its event is the result of the FEED, and no operation is in progress any more. -/
def finishPacket (r : State × Option Event) : State := setSeq .idle (deliver (.event r.2) r.1)

/-- A malformed packet: no event, no state change (rule R130). -/
def dropPacket (s : State) : State := finishPacket (s, none)

/-- PKT3.DROP (rule R130). The bytes are not looked at beyond the framing bit that chose the class. -/
def execPkt3Drop (_flags _xb _yb : Byte) (s : State) : Host.Outcome State Fault Refusal :=
  acceptPacket s dropPacket

/-- PKT4.DROP (rule R130). -/
def execPkt4Drop (_flags _xb _yb _zb : Byte) (s : State) : Host.Outcome State Fault Refusal :=
  acceptPacket s dropPacket

/-- PKT3.EXEC (rule R131). The packet brings no wheel byte; the wheel step, should it be enabled, reads `buf[3]`. -/
def execPkt3Exec (flags xb yb : Byte) (s : State) : Host.Outcome State Fault Refusal :=
  acceptPacket s fun s => finishPacket (decodeBody flags xb yb s.buf.b3 s)

/-- PKT4.EXEC (rule R131). -/
def execPkt4Exec (flags xb yb zb : Byte) (s : State) : Host.Outcome State Fault Refusal :=
  acceptPacket s fun s => finishPacket (decodeBody flags xb yb zb s)

end Sys2Proof.Machine
end

