-- ==== Sys2Proof/Machine/Assembler.lean ====
section
/-! DEFINITION. FEED, the packet assembler (42_assembler.md). -/

namespace Sys2Proof.Machine

/-- DECODE on the packet in the buffer: its class's meaning, in the format in force (30_encoding.md rules R62, R64). -/
def runPacket (s : State) : Host.Outcome State Fault Refusal :=
  match s.packetSize, framed s.buf.b0 with
  | .three, false => execPkt3Drop s.buf.b0 s.buf.b1 s.buf.b2 s
  | .three, true => execPkt3Exec s.buf.b0 s.buf.b1 s.buf.b2 s
  | .four, false => execPkt4Drop s.buf.b0 s.buf.b1 s.buf.b2 s.buf.b3 s
  | .four, true => execPkt4Exec s.buf.b0 s.buf.b1 s.buf.b2 s.buf.b3 s

/-- The accumulating transition (rule R121). -/
def feedAccumulate (b : Byte) (s : State) : State :=
  deliver (.event none) (setIdx (s.idx + 1) (storeByte b s))

/-- The completing transition up to the decoder (rule R122): the byte stored, the index back to 0, the packet handed over. -/
def feedComplete (b : Byte) (s : State) : State := setSeq .decode (setIdx 0 (storeByte b s))

/-- FEED `b` (rule R120), one atomic transition (20_memory.md rule R38). -/
def execFeed (b : Byte) (s : State) : Host.Outcome State Fault Refusal :=
  acceptRequest s fun s =>
    match s.lastSlot with
    | true => runPacket (feedComplete b s)
    | false => .next (feedAccumulate b s)

end Sys2Proof.Machine
end

