-- ==== Sys2Proof/Machine/Emission.lean ====
section
/-! DEFINITION. The nine emitted bytes (30_encoding.md rule R58): each is one port write, of its byte to its port. They are
no operations of the host; WRCMD and INIT perform them (40_transport.md rule R81, 41_initializer.md rules R102 to R107). A
device byte is preceded by `C_FWD_AUX`, which is a write of its own. -/

namespace Sys2Proof.Machine

/-- C_ENABLE_AUX, to the command port (41_initializer.md rule R102). -/
def execCEnableAux (s : State) : Host.Outcome State Fault Refusal := .next (writePort .stcmd s.cfg.cEnableAux s)

/-- C_FWD_AUX, to the command port (40_transport.md rule R81). -/
def execCFwdAux (s : State) : Host.Outcome State Fault Refusal := .next (writePort .stcmd s.cfg.cFwdAux s)

/-- C_SET_DEFAULTS, to the data port (41_initializer.md rule R103). -/
def execCSetDefaults (s : State) : Host.Outcome State Fault Refusal := .next (writePort .data s.cfg.cSetDefaults s)

/-- C_SET_RATE, to the data port (rule R104). -/
def execCSetRate (s : State) : Host.Outcome State Fault Refusal := .next (writePort .data s.cfg.cSetRate s)

/-- RATE_200, to the data port (rule R104). -/
def execRate200 (s : State) : Host.Outcome State Fault Refusal := .next (writePort .data 200 s)

/-- RATE_100, to the data port (rule R104). -/
def execRate100 (s : State) : Host.Outcome State Fault Refusal := .next (writePort .data 100 s)

/-- RATE_80, to the data port (rule R104). -/
def execRate80 (s : State) : Host.Outcome State Fault Refusal := .next (writePort .data 80 s)

/-- C_GET_ID, to the data port (rule R105). -/
def execCGetId (s : State) : Host.Outcome State Fault Refusal := .next (writePort .data s.cfg.cGetId s)

/-- C_ENABLE_STREAM, to the data port (rule R107). -/
def execCEnableStream (s : State) : Host.Outcome State Fault Refusal := .next (writePort .data s.cfg.cEnableStream s)

end Sys2Proof.Machine
end

