-- ==== Sys2Proof/Machine/Transport.lean ====
section
/-! DEFINITION. The command/response transport (40_transport.md): the bounded wait, WRCMD, RDRSP, SEND.

An internal procedure answers its result beside the state it leaves; an error propagates to the caller (60_exceptions.md
rule R160). -/

namespace Sys2Proof.Machine

/-- The result of `WaitInputClear` (rule R80). -/
inductive Wait where
  | cleared
  | exhausted
  deriving DecidableEq, Repr

/-- The loop of `WaitInputClear` with so many iterations left: one status read, then the test of IBF (rule R80). -/
def waitLoop : Nat → State → Wait × State
  | 0, s => (.exhausted, s)
  | n + 1, s =>
    match readStatus s with
    | (status, s1) => if inputFull s.cfg status then waitLoop n s1 else (.cleared, s1)

/-- `WaitInputClear()` (rule R80). -/
def waitInputClear (s : State) : Wait × State := waitLoop s.cfg.wLimit s

/-- The wait before a write, and what its exhaustion means (rule R82): nothing under `proceed`, Timeout at the site under
`timeout`. -/
def writeWait (site : Site) (s : State) : Except ErrorKind Unit × State :=
  match waitInputClear s with
  | (.cleared, s1) => (.ok (), s1)
  | (.exhausted, s1) =>
    match s1.cfg.wrExhaust with
    | .proceed => (.ok (), s1)
    | .timeout => (.error (.timeout site), s1)

/-- WRCMD's pseudocode (rule R81). -/
def wrcmd (b : Byte) (s : State) : Except ErrorKind Unit × State :=
  match writeWait .wrcmdWait1 s with
  | (.error e, s1) => (.error e, s1)
  | (.ok _, s1) =>
    match writeWait .wrcmdWait2 (writePort .stcmd s1.cfg.cFwdAux s1) with
    | (.error e, s2) => (.error e, s2)
    | (.ok _, s2) => (.ok (), writePort .data b s2)

/-- RDRSP's loop with so many iterations left (rule R83): one status read, then the test; on success the data port is read
at once. -/
def pollLoop : Nat → State → Except ErrorKind Byte × State
  | 0, s => (.error (.timeout .rdrsp), s)
  | n + 1, s =>
    match readStatus s with
    | (status, s1) =>
      if responseReady s.cfg status then
        match readData s1 with
        | (v, s2) => (.ok v, s2)
      else pollLoop n s1

/-- RDRSP's pseudocode (rule R83). -/
def rdrsp (s : State) : Except ErrorKind Byte × State := pollLoop s.cfg.rLimit s

/-- `SEND(b)` (rule R86): WRCMD, then one response read whose value is compared with nothing. -/
def send (b : Byte) (s : State) : Except ErrorKind Byte × State :=
  match wrcmd b s with
  | (.error e, s1) => (.error e, s1)
  | (.ok _, s1) => rdrsp s1

/-- The result of a procedure delivered to the host: `Ok`, or the error (30_encoding.md rule R67). -/
def finishUnit (r : Except ErrorKind Unit × State) : State :=
  match r with
  | (.ok _, s) => deliver .ok s
  | (.error e, s) => raiseToHost e s

/-- The result of a procedure that answers a byte. -/
def finishByte (r : Except ErrorKind Byte × State) : State :=
  match r with
  | (.ok v, s) => deliver (.okByte v) s
  | (.error e, s) => raiseToHost e s

/-- WRCMD `b` (rule R81). -/
def execWrcmd (b : Byte) (s : State) : Host.Outcome State Fault Refusal :=
  acceptRequest s fun s => .next (finishUnit (wrcmd b s))

/-- RDRSP (rule R83); its `arg` is ignored (30_encoding.md rule R51). -/
def execRdrsp (_arg : Byte) (s : State) : Host.Outcome State Fault Refusal :=
  acceptRequest s fun s => .next (finishByte (rdrsp s))

end Sys2Proof.Machine
end

