-- ==== Sys2Proof/Machine/Initializer.lean ====
section
/-! DEFINITION. RESET and INIT (41_initializer.md). -/

namespace Sys2Proof.Machine

/-- RESET (rule R100): at any time between operations, the first RESET included; its `arg` is ignored. -/
def execReset (_arg : Byte) (s : State) : Host.Outcome State Fault Refusal :=
  match s.seq.isIdle with
  | false => .refused .overlappingRequest
  | true => .next (resetRegisters s)

/-- Step 1, "enable second PS/2 port" (rule R102). -/
def enablePort (s : State) : Except ErrorKind Unit × State :=
  match writeWait .initEnablePort s with
  | (.error e, s1) => (.error e, s1)
  | (.ok _, s1) => (.ok (), writePort .stcmd s1.cfg.cEnableAux s1)

/-- A mandatory SEND of INIT: its Timeout is INIT's, named by the step (rules R103, R107, R108). -/
def sendMandatory (site : Site) (b : Byte) (s : State) : Except ErrorKind Unit × State :=
  match send b s with
  | (.error _, s1) => (.error (.timeout site), s1)
  | (.ok _, s1) => (.ok (), s1)

/-- `RATE_SEQ`: 200, 100, 80 in this order (rule R104). -/
def rateSeq : List Byte := [200, 100, 80]

/-- Step 3, the wheel-enable magic sequence: for each rate the command byte and the rate, each with its acknowledgment
read; the first Timeout ends it (rules R104, R109). -/
def sendRates : List Byte → State → Except ErrorKind Unit × State
  | [], s => (.ok (), s)
  | r :: rest, s =>
    match send s.cfg.cSetRate s with
    | (.error e, s1) => (.error e, s1)
    | (.ok _, s1) =>
      match send r s1 with
      | (.error e, s2) => (.error e, s2)
      | (.ok _, s2) => sendRates rest s2

/-- PROBE (rule R101): step 3, then step 4, the ID request with its acknowledgment read and the ID read (rule R105). -/
def probe (s : State) : Except ErrorKind Byte × State :=
  match sendRates rateSeq s with
  | (.error e, s1) => (.error e, s1)
  | (.ok _, s1) =>
    match send s1.cfg.cGetId s1 with
    | (.error e, s2) => (.error e, s2)
    | (.ok _, s2) => rdrsp s2

/-- Step 5's comparison: UnsupportedFeature unless the ID is 3 (rule R106, 60_exceptions.md rule R162). -/
def checkId (id : Byte) : Except ErrorKind Unit :=
  if id = Config.wheelId then .ok () else .error .unsupportedFeature

/-- Step 5's write: both registers when the ID is 3, else nothing, UnsupportedFeature being swallowed (rules R106,
R109). -/
def applyId (id : Byte) (s : State) : State :=
  match checkId id with
  | .ok _ => configureWheel s
  | .error _ => s

/-- Steps 3 to 5: the optional probe, whose Timeout is swallowed too (rule R109). -/
def probeStep (s : State) : State :=
  match probe s with
  | (.ok id, s1) => applyId id s1
  | (.error _, s1) => s1

/-- INIT's pseudocode (rule R101). -/
def initRun (s : State) : Except ErrorKind Unit × State :=
  match enablePort s with
  | (.error e, s1) => (.error e, s1)
  | (.ok _, s1) =>
    match sendMandatory .initSetDefaults s1.cfg.cSetDefaults s1 with
    | (.error e, s2) => (.error e, s2)
    | (.ok _, s2) =>
      sendMandatory .initEnableStream (probeStep s2).cfg.cEnableStream (probeStep s2)

/-- INIT's result delivered: `Ok` configures the session, an error leaves what was written (rules R108, R111). -/
def finishInit (r : Except ErrorKind Unit × State) : State :=
  match r with
  | (.ok _, s) => deliver .ok (markConfigured s)
  | (.error e, s) => raiseToHost e s

/-- INIT (rule R101); after an INIT that returned `Ok` the spec gives it no meaning and asks for a refusal (rule R111). Its
`arg` is ignored. -/
def execInit (_arg : Byte) (s : State) : Host.Outcome State Fault Refusal :=
  acceptRequest s fun s =>
    match s.session with
    | .configured => .refused .initAfterInit
    | .unconstructed => .refused .beforeReset
    | .ready => .next (finishInit (initRun s))

end Sys2Proof.Machine
end

