-- ==== Sys2Proof/Machine/Dispatch.lean ====
section
/-! DEFINITION. One arm for each constructor of `Instr`. -/

namespace Sys2Proof.Machine

def exec (i : Instr) (s : State) : Host.Outcome State Fault Refusal :=
  match i with
  -- format OP
  | .reset arg => Sys2Proof.Machine.execReset arg s
  | .init arg => Sys2Proof.Machine.execInit arg s
  | .wrcmd b => Sys2Proof.Machine.execWrcmd b s
  | .rdrsp arg => Sys2Proof.Machine.execRdrsp arg s
  | .feed b => Sys2Proof.Machine.execFeed b s
  -- formats P3 and P4
  | .pkt3Drop flags xb yb => Sys2Proof.Machine.execPkt3Drop flags xb yb s
  | .pkt3Exec flags xb yb => Sys2Proof.Machine.execPkt3Exec flags xb yb s
  | .pkt4Drop flags xb yb zb => Sys2Proof.Machine.execPkt4Drop flags xb yb zb s
  | .pkt4Exec flags xb yb zb => Sys2Proof.Machine.execPkt4Exec flags xb yb zb s
  -- format CMD
  | .cEnableAux => Sys2Proof.Machine.execCEnableAux s
  | .cFwdAux => Sys2Proof.Machine.execCFwdAux s
  | .cSetDefaults => Sys2Proof.Machine.execCSetDefaults s
  | .cSetRate => Sys2Proof.Machine.execCSetRate s
  | .rate200 => Sys2Proof.Machine.execRate200 s
  | .rate100 => Sys2Proof.Machine.execRate100 s
  | .rate80 => Sys2Proof.Machine.execRate80 s
  | .cGetId => Sys2Proof.Machine.execCGetId s
  | .cEnableStream => Sys2Proof.Machine.execCEnableStream s

end Sys2Proof.Machine
end

