-- ==== Sys2Proof/Machine/Sequencer.lean ====
section
/-! DEFINITION. The small-step view (10_state.md rule R16, 40_transport.md rule R89): a transport operation taken one port
access at a time, its place between two accesses held in `State.seq`.

`exec` performs an operation whole; `beginOp` only begins it, and each `microStep` then makes one access. The environment
may do anything between two of them (20_memory.md rule R39); a request of the host between two of them overlaps and is
refused (rule R38). -/

namespace Sys2Proof.Machine

/-- The byte of a rate (41_initializer.md rule R104). -/
def Rate.byte : Rate → Byte
  | .r200 => 200
  | .r100 => 100
  | .r80 => 80

/-- The operation ends with a result. -/
def endOp (r : Result) (s : State) : State := setSeq .idle (deliver r s)

/-- The operation ends with a Timeout (60_exceptions.md rule R167). -/
def endTimeout (site : Site) (s : State) : State := setSeq .idle (raiseToHost (.timeout site) s)

/-- About to write the payload's `C_FWD_AUX` (CW of rule R89). -/
def toForward (payload : Byte) (c : Caller) (s : State) : State :=
  setSeq (.emit .stcmd s.cfg.cFwdAux (.forwarded payload c)) s

/-- Begin the last SEND of INIT (41_initializer.md rule R107). With no budget at all its first wait is exhausted at once. -/
def beginStream (s : State) : State :=
  if 0 < s.cfg.wLimit then setSeq (.wait1 0 s.cfg.cEnableStream (.init .stream)) s
  else
    match s.cfg.wrExhaust with
    | .proceed => toForward s.cfg.cEnableStream (.init .stream) s
    | .timeout => endTimeout .initEnableStream s

/-- A Timeout raised at a site on behalf of a caller: the host gets it, a mandatory step ends INIT, and inside the probe it
is swallowed and step 6 follows (rules R103, R107, R109, R110). -/
def timeoutFor (c : Caller) (site : Site) (s : State) : State :=
  match c with
  | .host => endTimeout site s
  | .init .setDefaults => endTimeout .initSetDefaults s
  | .init .stream => endTimeout .initEnableStream s
  | .init (.rateCmd _) => beginStream s
  | .init (.rateArg _) => beginStream s
  | .init .getId => beginStream s
  | .init .readId => beginStream s

/-- The first wait of a WRCMD is exhausted (40_transport.md rule R82). -/
def exhausted1 (payload : Byte) (c : Caller) (s : State) : State :=
  match s.cfg.wrExhaust with
  | .proceed => toForward payload c s
  | .timeout => timeoutFor c .wrcmdWait1 s

/-- The second wait of a WRCMD is exhausted. -/
def exhausted2 (payload : Byte) (c : Caller) (s : State) : State :=
  match s.cfg.wrExhaust with
  | .proceed => setSeq (.emit .data payload (.sent c)) s
  | .timeout => timeoutFor c .wrcmdWait2 s

/-- The wait of INIT's step 1 is exhausted (41_initializer.md rule R102). -/
def exhaustedEnable (s : State) : State :=
  match s.cfg.wrExhaust with
  | .proceed => setSeq (.emit .stcmd s.cfg.cEnableAux .enabled) s
  | .timeout => endTimeout .initEnablePort s

/-- Begin a WRCMD: W1 with no read made, or its exhaustion when the budget is 0. -/
def beginWrite (payload : Byte) (c : Caller) (s : State) : State :=
  if 0 < s.cfg.wLimit then setSeq (.wait1 0 payload c) s else exhausted1 payload c s

/-- Begin the second wait of a WRCMD. -/
def beginWait2 (payload : Byte) (c : Caller) (s : State) : State :=
  if 0 < s.cfg.wLimit then setSeq (.wait2 0 payload c) s else exhausted2 payload c s

/-- Begin an RDRSP. -/
def beginPoll (c : Caller) (s : State) : State :=
  if 0 < s.cfg.rLimit then setSeq (.poll 0 c) s else timeoutFor c .rdrsp s

/-- Begin INIT's step 1. -/
def beginEnable (s : State) : State :=
  if 0 < s.cfg.wLimit then setSeq (.enableWait 0) s else exhaustedEnable s

/-- An RDRSP answered `v`: the host gets it, INIT goes on to its next step (41_initializer.md rule R101). -/
def respondedFor (c : Caller) (v : Byte) (s : State) : State :=
  match c with
  | .host => endOp (.okByte v) s
  | .init .setDefaults => beginWrite s.cfg.cSetRate (.init (.rateCmd .r200)) s
  | .init (.rateCmd r) => beginWrite r.byte (.init (.rateArg r)) s
  | .init (.rateArg .r200) => beginWrite s.cfg.cSetRate (.init (.rateCmd .r100)) s
  | .init (.rateArg .r100) => beginWrite s.cfg.cSetRate (.init (.rateCmd .r80)) s
  | .init (.rateArg .r80) => beginWrite s.cfg.cGetId (.init .getId) s
  | .init .getId => beginPoll (.init .readId) s
  | .init .readId => beginStream (applyId v s)
  | .init .stream => endOp .ok (markConfigured s)

/-- What follows a write. -/
def afterWrite (k : AfterWrite) (s : State) : State :=
  match k with
  | .done => setSeq .idle s
  | .enabled => beginWrite s.cfg.cSetDefaults (.init .setDefaults) s
  | .forwarded payload c => beginWait2 payload c s
  | .sent .host => endOp .ok s
  | .sent (.init stage) => beginPoll (.init stage) s

/-- One port access of the operation in progress (rule R89). Idle and the handed-over packet make none: `step` serves
them. -/
def microStep (s : State) : State :=
  match s.seq with
  | .idle => s
  | .decode => s
  | .emit p b k => afterWrite k (writePort p b s)
  | .enableWait cnt =>
    match readStatus s with
    | (status, s1) =>
      if inputFull s.cfg status then
        if cnt + 1 < s.cfg.wLimit then setSeq (.enableWait (cnt + 1)) s1 else exhaustedEnable s1
      else setSeq (.emit .stcmd s.cfg.cEnableAux .enabled) s1
  | .wait1 cnt payload c =>
    match readStatus s with
    | (status, s1) =>
      if inputFull s.cfg status then
        if cnt + 1 < s.cfg.wLimit then setSeq (.wait1 (cnt + 1) payload c) s1 else exhausted1 payload c s1
      else toForward payload c s1
  | .wait2 cnt payload c =>
    match readStatus s with
    | (status, s1) =>
      if inputFull s.cfg status then
        if cnt + 1 < s.cfg.wLimit then setSeq (.wait2 (cnt + 1) payload c) s1 else exhausted2 payload c s1
      else setSeq (.emit .data payload (.sent c)) s1
  | .poll cnt c =>
    match readStatus s with
    | (status, s1) =>
      if responseReady s.cfg status then setSeq (.dataRead c) s1
      else if cnt + 1 < s.cfg.rLimit then setSeq (.poll (cnt + 1) c) s1 else timeoutFor c .rdrsp s1
  | .dataRead c =>
    match readData s with
    | (v, s1) => respondedFor c v s1

/-- Begin WRCMD `b` without running it. -/
def beginWrcmd (b : Byte) (s : State) : Host.Outcome State Fault Refusal :=
  acceptRequest s fun s => .next (beginWrite b .host s)

/-- Begin RDRSP without running it. -/
def beginRdrsp (s : State) : Host.Outcome State Fault Refusal :=
  acceptRequest s fun s => .next (beginPoll .host s)

/-- Begin INIT without running it. -/
def beginInit (s : State) : Host.Outcome State Fault Refusal :=
  acceptRequest s fun s =>
    match s.session with
    | .configured => .refused .initAfterInit
    | .unconstructed => .refused .beforeReset
    | .ready => .next (beginEnable s)

end Sys2Proof.Machine
end

