-- ==== Sys2Proof/Machine/Fetch.lean ====
section
/-! DEFINITION. Where the next instruction is fetched from, and placing one there.

A request word stands at the head of the host's queue; a complete packet stands in the packet buffer, in the format
`packet_size` selects; an emitted byte stands at the sequencer's write position. -/

namespace Sys2Proof.Machine

/-- The port a lone byte is written to: the one of its row in format CMD, or the data port (30_encoding.md rule R58). -/
def emissionPort (c : Config) (b : Byte) : Port :=
  match decodeCmd c b with
  | .ok i =>
    match emission c i with
    | some (p, _) => p
    | none => .data
  | .error _ => .data

/-- Place a request word where the next one is fetched. -/
def placeRequest (w : ReqWord) (s : State) : State :=
  { s with seq := .idle, requests := w :: s.requests }

/-- Place a complete 3-byte packet, with the format it needs in force. -/
def placeP3 (flags xb yb : Byte) (s : State) : State :=
  { s with
    seq := .decode, packetSize := .three, wheelCapable := false, idx := 0
    buf := { s.buf with b0 := flags, b1 := xb, b2 := yb } }

/-- Place a complete 4-byte packet, with the format it needs in force. -/
def placeP4 (flags xb yb zb : Byte) (s : State) : State :=
  { s with seq := .decode, packetSize := .four, wheelCapable := true, idx := 0, buf := ⟨flags, xb, yb, zb⟩ }

/-- Place one emitted byte at the sequencer's write position, nothing following it. -/
def placeEmission (b : Byte) (s : State) : State := setSeq (.emit (emissionPort s.cfg b) b .done) s

/-- Place the bytes of an instruction where its format is fetched. -/
def placeBytes (bytes : List Byte) (s : State) : State :=
  match bytes with
  | [b] => placeEmission b s
  | [lo, hi] => placeRequest (BitVec.ofNat 11 (pairNat lo hi)) s
  | [flags, xb, yb] => placeP3 flags xb yb s
  | [flags, xb, yb, zb] => placeP4 flags xb yb zb s
  | _ => s

/-- Take the request at the head of the queue. -/
def setRequests (rest : List ReqWord) (s : State) : State := { s with requests := rest }

end Sys2Proof.Machine
end

