-- ==== Sys2Proof/Machine/Step.lean ====
section
/-! DEFINITION. One step of the machine.

With no operation in progress the next request is fetched, decoded and performed whole; with none requested the block
waits (10_state.md rule R26). A complete packet handed to the decoder is decoded and performed. An operation in progress
makes its next port access (40_transport.md rule R89). -/

namespace Sys2Proof.Machine

def step (s : State) : Host.Outcome State Fault Refusal :=
  match s.seq with
  | .idle =>
    match s.requests with
    | [] => .next s
    | w :: rest =>
      match decodeRequest w with
      | .ok i => exec i (setRequests rest s)
      | .error _ => .refused .reservedRequest
  | .decode => exec s.packetInstr s
  | .enableWait _ => .next (microStep s)
  | .emit _ _ _ => .next (microStep s)
  | .wait1 _ _ _ => .next (microStep s)
  | .wait2 _ _ _ => .next (microStep s)
  | .poll _ _ => .next (microStep s)
  | .dataRead _ => .next (microStep s)

/-- `s` with the instruction of an opcode-table word placed where `step` fetches its next instruction: a request word at
the head of the queue, a packet in the buffer with its format in force, an emitted byte at the sequencer's write position
(notes/assumptions/9.md). -/
def State.withFetchWord (s : State) (nbits w : Nat) : State :=
  placeBytes (bytesOfNat ((nbits + 7) / 8) w) s

end Sys2Proof.Machine
end

