-- ==== Sys2Proof/Machine/Outputs.lean ====
section
/-! DEFINITION. What the host and a test bench see: the bit encoding of results and events (30_encoding.md rules R67 to
R69), the observation outputs (92_eei_decisions.md D33), and the textual form (rule R70). -/

namespace Sys2Proof.Machine

/-- The event output port of format EV (rule R68). -/
structure EventPort where
  /-- `ev_valid`. -/
  valid : BitVec 1
  /-- `ev_tag`. -/
  tag : BitVec 3
  /-- `ev_btn`. -/
  btn : BitVec 2
  /-- `ev_dx`. -/
  dx : I16
  /-- `ev_dy`. -/
  dy : I16
  deriving DecidableEq, Repr

/-- `ev_btn` of a button. -/
def Button.code : Button → BitVec 2
  | .left => 0
  | .right => 1
  | .middle => 2

/-- The event port for a FEED's result; a field that has no meaning for the tag is 0 (rule R68). -/
def eventPort : Option Event → EventPort
  | none => ⟨0, 0, 0, 0, 0⟩
  | some (.move dx dy) => ⟨1, 0, 0, dx, dy⟩
  | some (.buttonPressed b) => ⟨1, 1, b.code, 0, 0⟩
  | some (.buttonReleased b) => ⟨1, 2, b.code, 0, 0⟩
  | some .wheelUp => ⟨1, 3, 0, 0, 0⟩
  | some .wheelDown => ⟨1, 4, 0, 0, 0⟩

/-- The number of an error kind (rule R69). -/
def ErrorKind.code : ErrorKind → Nat
  | .timeout _ => 1
  | .unsupportedFeature => 2

/-- `err` of a result: 0 when it is no error (rule R69). -/
def Result.errCode : Result → Nat
  | .ok => 0
  | .okByte _ => 0
  | .err e => e.code
  | .event _ => 0

/-- The read-only observation outputs: all registers but `buf` (D33). -/
structure Observation where
  heldL : Bool
  heldR : Bool
  heldM : Bool
  posX : I16
  posY : I16
  wheelCapable : Bool
  packetSize : PacketSize
  idx : Fin 4
  deriving DecidableEq, Repr

/-- What the observation outputs show. -/
def State.observe (s : State) : Observation :=
  ⟨s.heldL, s.heldR, s.heldM, s.posX, s.posY, s.wheelCapable, s.packetSize, s.idx⟩

/-- One hexadecimal digit. -/
def hexDigit (n : Nat) : String :=
  ["0", "1", "2", "3", "4", "5", "6", "7", "8", "9", "A", "B", "C", "D", "E", "F"].getD n "?"

/-- A byte in hexadecimal, `0x0A`. -/
def hexByte (b : Byte) : String := "0x" ++ hexDigit (b.toNat / 16) ++ hexDigit (b.toNat % 16)

/-- A request in the textual form of rule R70. Only the five operations have one. -/
def requestText : Instr → Option String
  | .reset _ => some "RESET"
  | .init _ => some "INIT"
  | .wrcmd b => some ("WRCMD " ++ hexByte b)
  | .rdrsp _ => some "RDRSP"
  | .feed b => some ("FEED " ++ hexByte b)
  | .pkt3Drop _ _ _ => none
  | .pkt3Exec _ _ _ => none
  | .pkt4Drop _ _ _ _ => none
  | .pkt4Exec _ _ _ _ => none
  | .cEnableAux => none
  | .cFwdAux => none
  | .cSetDefaults => none
  | .cSetRate => none
  | .rate200 => none
  | .rate100 => none
  | .rate80 => none
  | .cGetId => none
  | .cEnableStream => none

/-- A port in the textual form: `ST` for `PORT_STCMD`, `DA` for `PORT_DATA`. -/
def portText (c : Config) (p : PortAddr) : String := if p = c.portStcmd then "ST" else "DA"

/-- One access of the event history in the textual form of rule R70. -/
def accessText (c : Config) : Access → String
  | .rd p v => "Rd(" ++ portText c p ++ "," ++ hexByte v ++ ")"
  | .wr p v => "Wr(" ++ portText c p ++ "," ++ hexByte v ++ ")"

end Sys2Proof.Machine
end

