-- ==== Sys2Proof/Machine/Pseudo.lean ====
section
/-! DEFINITION. Runs of several operations and the pseudo-operations of the spec's notation (30_encoding.md rule R71). -/

namespace Sys2Proof.Machine

/-- Perform instructions one after the other, stopping at the first that does not answer a next state. -/
def execAll : List Instr → State → Host.Outcome State Fault Refusal
  | [], s => .next s
  | i :: rest, s =>
    match exec i s with
    | .next s1 => execAll rest s1
    | .fault f => .fault f
    | .refused r => .refused r

/-- `FEEDPKT`: one FEED for each byte. -/
def feedPkt (bytes : List Byte) : List Instr := bytes.map Instr.feed

/-- `SEND b`: WRCMD, then RDRSP, which is skipped when the WRCMD ended in an error. Its result is the last delivered. -/
def sendPseudo (b : Byte) (s : State) : Host.Outcome State Fault Refusal :=
  match exec (.wrcmd b) s with
  | .next s1 =>
    match s1.results.getLast? with
    | some (.err _) => .next s1
    | _ => exec (.rdrsp 0) s1
  | .fault f => .fault f
  | .refused r => .refused r

/-- `SETRATE r`: `SEND C_SET_RATE`, then `SEND r`. -/
def setRatePseudo (r : Byte) (s : State) : Host.Outcome State Fault Refusal :=
  match sendPseudo s.cfg.cSetRate s with
  | .next s1 => sendPseudo r s1
  | .fault f => .fault f
  | .refused f => .refused f

end Sys2Proof.Machine
end

