-- ==== Sys2Proof/Safety.lean ====
section
/-! DEFINITION. The invariants of the block between steps (10_state.md rule R25 and what a legal sequencer position is), and
what a safe run is. -/

namespace Sys2Proof

open Sys2Proof.Machine

/-- I-a of rule R25: `idx < packet_size`. -/
def Machine.State.idxInRange (s : State) : Bool := decide (s.idx.val < s.packetSize.len)

/-- I-c of rule R25: `packet_size = 4` exactly when `wheel_capable`. -/
def Machine.State.modeCoherent (s : State) : Bool := (s.packetSize == .four) == s.wheelCapable

/-- The caller of a write is the host or a SEND of INIT; the ID byte is read with no write before it (41_initializer.md
rule R105). -/
def Machine.Caller.writes : Caller → Bool
  | .host => true
  | .init .setDefaults => true
  | .init (.rateCmd _) => true
  | .init (.rateArg _) => true
  | .init .getId => true
  | .init .readId => false
  | .init .stream => true

/-- A position the sequencer may take: a wait has a read left in its budget (10_state.md rule R16), and a write position
writes to the command port only the two controller commands (rule R19). -/
def Machine.Seq.legal (c : Config) : Seq → Bool
  | .idle => true
  | .decode => true
  | .enableWait cnt => decide (cnt < c.wLimit)
  | .emit .stcmd b .enabled => b == c.cEnableAux
  | .emit .stcmd b (.forwarded _ k) => b == c.cFwdAux && k.writes
  | .emit .stcmd b .done => b == c.cEnableAux || b == c.cFwdAux
  | .emit .stcmd _ (.sent _) => false
  | .emit .data _ (.sent k) => k.writes
  | .emit .data _ .done => true
  | .emit .data _ .enabled => false
  | .emit .data _ (.forwarded _ _) => false
  | .wait1 cnt _ k => decide (cnt < c.wLimit) && k.writes
  | .wait2 cnt _ k => decide (cnt < c.wLimit) && k.writes
  | .poll cnt _ => decide (cnt < c.rLimit)
  | .dataRead _ => true

/-- The invariant of the block: the parameters obey 00_scope.md rule R6, I-a and I-c of 10_state.md rule R25 hold, and the
sequencer stands at a legal position. (I-b and I-d hold by the types of `packetSize`, `posX`, `posY`.) -/
structure Machine.State.Inv (s : State) : Prop where
  cfgWf : s.cfg.wf = true
  idxInRange : s.idxInRange = true
  coherent : s.modeCoherent = true
  seqLegal : s.seq.legal s.cfg = true

/-- The history of `t` is that of `s` with some accesses after it, each at one of the two ports. -/
def Machine.ExtendsHistory (s t : State) : Prop :=
  ∃ ext : List Access, t.history = s.history ++ ext ∧
    ∀ a ∈ ext, ∃ v, a = .rd s.cfg.portStcmd v ∨ a = .rd s.cfg.portData v ∨ a = .wr s.cfg.portStcmd v ∨
      a = .wr s.cfg.portData v

/-- A run is safe for `n` steps: no step of it is refused, none faults (no fault exists). -/
def Machine.SafeFor (n : Nat) (s : State) : Prop := ∃ t, Host.Core.run core n s = .next t

end Sys2Proof
end

