-- ==== Sys2Proof/Certificates/Slice0/Obligations.lean ====
section
/-! DEFINITION. The statements for the provers. A statement about `exec` or `step` holds for every state, hence for every
value of the parameters, of the environment's script and of the free bytes. -/

open Sys2Proof Sys2Proof.Machine

/-! ### Words the statements use -/

namespace Sys2Proof.Claims

/-- The host may request an operation: none is in progress, and a RESET has been performed. -/
def Ready (s : State) : Prop := s.seq = .idle ∧ s.session ≠ .unconstructed

/-- The four packet classes. -/
def isPacket : Instr → Bool
  | .pkt3Drop _ _ _ => true
  | .pkt3Exec _ _ _ => true
  | .pkt4Drop _ _ _ _ => true
  | .pkt4Exec _ _ _ _ => true
  | .reset _ => false
  | .init _ => false
  | .wrcmd _ => false
  | .rdrsp _ => false
  | .feed _ => false
  | .cEnableAux => false
  | .cFwdAux => false
  | .cSetDefaults => false
  | .cSetRate => false
  | .rate200 => false
  | .rate100 => false
  | .rate80 => false
  | .cGetId => false
  | .cEnableStream => false

/-- The state after a well-formed packet whose result is `e`, but for a held register: both positions moved by the
saturating sum, the result delivered, no operation in progress. -/
def packetEnd (flags xb yb : Byte) (e : Option Event) (s : State) : State :=
  { s with
    posX := satAdd16 s.posX (deltaX flags xb), posY := satAdd16 s.posY (deltaY flags yb)
    seq := .idle, results := s.results ++ [.event e] }

/-- No button's flags bit differs from its held register. -/
def NoEdge (flags : Byte) (s : State) : Prop :=
  flags.getLsbD 0 = s.heldL ∧ flags.getLsbD s.cfg.btnRBit.val = s.heldR ∧ flags.getLsbD s.cfg.btnMBit.val = s.heldM

/-- `n` reads of the port `p` that take the environment's answers from the `j`-th on. -/
def reads (s : State) (p : PortAddr) (j n : Nat) : List Access :=
  (List.range n).map fun i => .rd p (s.answer (j + i))

/-- How many status reads a write-side wait of `limit` iterations makes when its first read takes the `j`-th answer: it
ends at the first answer whose IBF is 0. -/
def waitReads (s : State) : Nat → Nat → Nat
  | 0, _ => 0
  | limit + 1, j => if (s.answer j).getLsbD s.cfg.stIbf.val then waitReads s limit (j + 1) + 1 else 1

/-- Such a wait finds IBF = 0. -/
def waitClears (s : State) : Nat → Nat → Bool
  | 0, _ => false
  | limit + 1, j => if (s.answer j).getLsbD s.cfg.stIbf.val then waitClears s limit (j + 1) else true

/-- `s` after `n` port reads and the accesses `acc`. -/
def afterReads (s : State) (n : Nat) (acc : List Access) : State :=
  { s with script := s.script.drop n, draws := s.draws + (n - s.script.length), history := s.history ++ acc }

/-- OBF and AUX of a status byte, both set. -/
def mouseByte (s : State) (status : Byte) : Bool :=
  status.getLsbD s.cfg.stObf.val && status.getLsbD s.cfg.stAux.val

/-- The edges of one button among results, in order: true for pressed, false for released. -/
def edgesOf (b : Button) (rs : List Result) : List Bool :=
  rs.filterMap fun r =>
    match r with
    | .event (some (.buttonPressed c)) => if c = b then some true else none
    | .event (some (.buttonReleased c)) => if c = b then some false else none
    | _ => none

/-- Each edge is the opposite of the one before, the first the opposite of `held`. -/
def alternates : Bool → List Bool → Bool
  | _, [] => true
  | held, e :: rest => e != held && alternates e rest

/-- The answers of one SEND whose waits and poll end at their first reads, with the value read last. -/
def sendScript (clear1 clear2 ready v : Byte) : List Byte := [clear1, clear2, ready, v]

/-- The accesses of one such SEND of `b`. -/
def sendAccesses (c : Config) (clear1 clear2 ready v b : Byte) : List Access :=
  [.rd c.portStcmd clear1, .wr c.portStcmd c.cFwdAux, .rd c.portStcmd clear2, .wr c.portData b, .rd c.portStcmd ready,
    .rd c.portData v]

/-- The 39 answers of an INIT whose 19 waits and 10 polls all end at their first reads, each with a status byte of its own
(`clear 0` to `clear 18`, `ready 0` to `ready 9`), whose nine acknowledgments are `ack 0` to `ack 8` and whose device ID is
`id`. -/
def idealScript (clear ready ack : Nat → Byte) (id : Byte) : List Byte :=
  [clear 0] ++
    ((List.range 8).flatMap fun n => sendScript (clear (2 * n + 1)) (clear (2 * n + 2)) (ready n) (ack n)) ++
    [ready 8, id] ++ sendScript (clear 17) (clear 18) (ready 9) (ack 8)

/-- The 58 accesses of such an INIT. -/
def idealAccesses (c : Config) (clear ready ack : Nat → Byte) (id : Byte) : List Access :=
  let nth := fun (n : Nat) (b : Byte) => sendAccesses c (clear (2 * n + 1)) (clear (2 * n + 2)) (ready n) (ack n) b
  [.rd c.portStcmd (clear 0), .wr c.portStcmd c.cEnableAux] ++ nth 0 c.cSetDefaults ++
    nth 1 c.cSetRate ++ nth 2 200 ++ nth 3 c.cSetRate ++ nth 4 100 ++ nth 5 c.cSetRate ++ nth 6 80 ++ nth 7 c.cGetId ++
    [.rd c.portStcmd (ready 8), .rd c.portData id] ++
    sendAccesses c (clear 17) (clear 18) (ready 9) (ack 8) c.cEnableStream

/-- The seven bytes the probe sends, in order (41_initializer.md rules R104, R105). -/
def probeBytes (c : Config) : List Byte := [c.cSetRate, 200, c.cSetRate, 100, c.cSetRate, 80, c.cGetId]

/-- The state after SENDs of these bytes, one after the other, that all succeed; `none` when one ends in Timeout. -/
def sendsOk : List Byte → State → Option State
  | [], s => some s
  | b :: rest, s =>
    match send b s with
    | (.ok _, s1) => sendsOk rest s1
    | (.error _, _) => none

/-- A well-formed packet's class, of either length, with the flags byte `f`. -/
def execWithFlags (f : Byte) (i : Instr) : Prop :=
  ∃ x y z : Byte, i = .pkt3Exec f x y ∨ i = .pkt4Exec f x y z

/-- The result of a procedure that answers a byte, as the host gets it. -/
def byteResult : Except ErrorKind Byte → Result
  | .ok v => .okByte v
  | .error e => .err e

/-- More steps than any operation in progress can need. -/
def enoughSteps (s : State) : Nat := 19 * (s.cfg.wLimit + 1) + 10 * (s.cfg.rLimit + 1) + 29

end Sys2Proof.Claims

open Sys2Proof.Claims

/-! ### Encoding -/

/-- Every well-formed instruction is decoded from its own encoding, with every operand (30_encoding.md rules R51, R53,
R54, R58, R63). Where two parameters of format CMD coincide a lone byte stands for the earlier row, hence the premise.
-/
def Obligations.DecodeOfEncodeIsTheInstruction : Prop :=
  ∀ (c : Config) (i : Instr), c.cmdDistinct = true → i.wf = true → decode c (encode c i) = .ok i

/-- Bytes that decode are the encoding of what they decode to, and that is well formed: no bit is dropped, no word has two
meanings (rule R62, rule R65). -/
def Obligations.EncodeOfDecodeIsTheBytes : Prop :=
  ∀ (c : Config) (bytes : List Byte) (i : Instr), decode c bytes = .ok i → encode c i = bytes ∧ i.wf = true

/-- A word in a row of the opcode table (rule R63) decodes to that row's instruction. -/
def Obligations.OpcodeRowsDecodeToTheirInstruction : Prop :=
  ∀ (c : Config) (row : OpcodeRow) (w : Nat), c.cmdDistinct = true → row ∈ opcodeTable c → w < 2 ^ row.width →
    row.matches row.width w = true →
    ∃ i, decode c (bytesOfNat ((row.width + 7) / 8) w) = .ok i ∧ i.mnemonic = row.mnemonic

/-- Words written out from the encodings of rules R51, R53, R54 and R58. The numbers of `op` are the spec's decision D18, the
two-byte layout of a request word is the model's choice (notes/assumptions/13.md), and 0xD4 is the default of `C_FWD_AUX`
(the spec's decision D3, PRESUMED in notes/assumptions/1.md). -/
def Obligations.WordsOfTheSpecDecode : Prop :=
  decodeTableWord 11 0x000 = some (.reset 0x00) ∧ decodeTableWord 11 0x100 = some (.init 0x00) ∧
    decodeTableWord 11 0x2F4 = some (.wrcmd 0xF4) ∧ decodeTableWord 11 0x300 = some (.rdrsp 0x00) ∧
    decodeTableWord 11 0x409 = some (.feed 0x09) ∧ decodeTableWord 11 0x500 = none ∧
    decodeTableWord 24 0x000509 = some (.pkt3Exec 0x09 0x05 0x00) ∧
    decodeTableWord 32 0x03020137 = some (.pkt4Drop 0x37 0x01 0x02 0x03) ∧
    decodeTableWord 8 0xD4 = some .cFwdAux ∧ decodeTableWord 8 0x50 = some .rate80

/-- RESET, INIT and RDRSP ignore their `arg` (rule R51, the spec's decision D18). -/
def Obligations.IgnoredArgumentsHaveNoEffect : Prop :=
  ∀ (a b : Byte) (s : State), exec (.reset a) s = exec (.reset b) s ∧ exec (.init a) s = exec (.init b) s ∧
    exec (.rdrsp a) s = exec (.rdrsp b) s

/-! ### A step -/

/-- With no operation in progress a step takes the next request and performs the instruction its word decodes to; with
none requested the block waits. -/
def Obligations.StepRunsTheDecodedRequest : Prop :=
  (∀ (s : State) (w : ReqWord) (rest : List ReqWord) (i : Instr), s.seq = .idle → s.requests = w :: rest →
    decodeRequest w = .ok i → step s = exec i { s with requests := rest }) ∧
  (∀ s : State, s.seq = .idle → s.requests = [] → step s = .next s)

/-- A complete packet handed to the decoder is performed as the packet class its bytes decode to, in the format that
`packet_size` selects (rules R62, R64). That the hand-over is an instant a step starts from, which no whole FEED leaves
behind, is the model's choice (notes/assumptions/6.md; the placing of a packet there is notes/assumptions/9.md). -/
def Obligations.StepRunsTheDecodedPacket : Prop :=
  ∀ s : State, s.seq = .decode →
    (s.packetSize = .three → step s = exec (decodeP3 s.buf.b0 s.buf.b1 s.buf.b2) s) ∧
    (s.packetSize = .four → step s = exec (decodeP4 s.buf.b0 s.buf.b1 s.buf.b2 s.buf.b3) s)

/-- At a write position whose byte and port are those of a row of format CMD, a step performs that row and moves the
sequencer on. The writes are those of 40_transport.md rule R89; that a write is `exec` of a row, which rule R63 says is no
operation of the block, and the position with nothing following it are the model's choice (notes/assumptions/9.md). -/
def Obligations.StepRunsTheEmittedByte : Prop :=
  ∀ (s : State) (i : Instr) (p : Port) (b : Byte) (k : AfterWrite), s.seq = .emit p b k → emission s.cfg i = some (p, b) →
    ∃ t, exec i s = .next t ∧ step s = .next (afterWrite k t)

/-- Rule R66, the spec's decision D18: `op` 5, 6 and 7 are refused; every `arg` is legal for WRCMD and FEED, the
transport forwards it and the assembler stores it. -/
def Obligations.ReservedRequestsAreRefused : Prop :=
  (∀ (s : State) (w : ReqWord) (rest : List ReqWord), s.seq = .idle → s.requests = w :: rest →
    5 ≤ (w.extractLsb' 8 3).toNat → step s = .refused .reservedRequest) ∧
  (∀ b : Byte, decodeRequest (requestWord 2 b) = .ok (.wrcmd b) ∧ decodeRequest (requestWord 4 b) = .ok (.feed b)) ∧
  (∀ (b : Byte) (s t : State), exec (.wrcmd b) s = .next t → t.results = s.results ++ [.ok] →
    t.history.getLast? = some (.wr s.cfg.portData b)) ∧
  (∀ (b : Byte) (s : State), Ready s → ∃ t, exec (.feed b) s = .next t ∧ t.buf.get s.idx = b)

/-- The refusals the spec asks for by its own decisions: overlap (20_memory.md rule R38, D16), nothing but RESET before
the first RESET (70_reset_and_hazards.md rule R180, D30), no INIT after an INIT that returned `Ok` (41_initializer.md
rule R111, D11). How the model knows them is its own (notes/assumptions/7.md). -/
def Obligations.RefusalsNameTheirReason : Prop :=
  (∀ (i : Instr) (s : State), i.isRequest = true → s.seq ≠ .idle → exec i s = .refused .overlappingRequest) ∧
  (∀ (a b : Byte) (s : State), s.seq = .idle → s.session = .unconstructed →
    exec (.init a) s = .refused .beforeReset ∧ exec (.wrcmd b) s = .refused .beforeReset ∧
      exec (.rdrsp a) s = .refused .beforeReset ∧ exec (.feed b) s = .refused .beforeReset) ∧
  (∀ (a : Byte) (s : State), s.seq = .idle → s.session = .configured → exec (.init a) s = .refused .initAfterInit)

/-- A request of the host completes exactly when none of those refusals applies (60_exceptions.md rule R170: nothing is
stuck, Timeout and a dropped packet are results), and then no operation is in progress any more (rule R168). -/
def Obligations.RequestsCompleteUnlessRefused : Prop :=
  ∀ (i : Instr) (s : State), i.isRequest = true →
    ((∃ t, exec i s = .next t ∧ t.seq = .idle) ↔
      s.seq = .idle ∧ ((∃ a, i = .reset a) ∨ s.session ≠ .unconstructed ∧ ((∃ a, i = .init a) → s.session = .ready)))

/-! ### RESET and the state after reset -/

/-- Rule R100, with the reset values of the spec's decision D14. The buffer, which the rule leaves unspecified, is not
spoken of. That the session is ready afterwards, so that INIT may be requested after any RESET, is the model's choice
(notes/assumptions/7.md). -/
def Obligations.ResetGivesTheResetState : Prop :=
  ∀ (a : Byte) (s : State), s.seq = .idle → ∃ t, exec (.reset a) s = .next t ∧
    t.heldL = false ∧ t.heldR = false ∧ t.heldM = false ∧ t.posX = 0 ∧ t.posY = 0 ∧ t.wheelCapable = false ∧
    t.packetSize = .three ∧ t.idx = 0 ∧ t.seq = .idle ∧ t.session = .ready ∧
    t.history = s.history ∧ t.script = s.script ∧ t.results = s.results ∧ t.requests = s.requests ∧ t.cfg = s.cfg

/-- The machine right after reset has the values of 10_state.md rule R26 and 70_reset_and_hazards.md rule R181, under any
parameters; `State.reset` has the defaults of 00_scope.md rule R5 (the spec's decisions D1 to D5, D12, D14;
notes/assumptions/1.md and 2.md). The packet buffer, which the spec leaves unspecified, is
not spoken of. -/
def Obligations.StateAfterReset : Prop :=
  (∀ c : Config, let s := State.resetWith c
    s.observe = ⟨false, false, false, 0, 0, false, .three, 0⟩ ∧ s.seq = .idle ∧ s.requests = [] ∧ s.history = [] ∧
      s.results = [] ∧ s.cfg = c) ∧
  ∃ w r, State.reset = State.resetWith (Config.standard w r)

/-! ### FEED -/

/-- Rule R121. -/
def Obligations.FeedAccumulates : Prop :=
  ∀ (b : Byte) (s : State), Ready s → s.idx.val < s.packetSize.len - 1 →
    exec (.feed b) s =
      .next { s with buf := s.buf.set s.idx b, idx := s.idx + 1, results := s.results ++ [.event none] } ∧
    (s.idx + 1).val = s.idx.val + 1

/-- Rule R122: the completing FEED is the decoded packet's meaning, on the buffer with the byte stored and the index 0. -/
def Obligations.FeedCompletesThePacket : Prop :=
  ∀ (b : Byte) (s : State), Ready s → s.idx.val = s.packetSize.len - 1 →
    exec (.feed b) s =
      exec
        (match s.packetSize with
          | .three => decodeP3 (s.buf.set s.idx b).b0 (s.buf.set s.idx b).b1 (s.buf.set s.idx b).b2
          | .four =>
            decodeP4 (s.buf.set s.idx b).b0 (s.buf.set s.idx b).b1 (s.buf.set s.idx b).b2 (s.buf.set s.idx b).b3)
        { s with buf := s.buf.set s.idx b, idx := 0 } ∧
    ∃ t, exec (.feed b) s = .next t ∧ t.idx = 0 ∧ t.buf = s.buf.set s.idx b

/-- From fill index `k`, the `packet_size - k` bytes that complete the packet give one result each, the first ones `None`,
leave the index 0 and stand in the buffer in arrival order after the `k` bytes already there (42_assembler.md rule R124,
10_state.md rule R25 I-e). -/
def Obligations.PacketAssemblyRoundTrip : Prop :=
  ∀ (s : State) (bytes : List Byte), Ready s → s.idx.val < s.packetSize.len →
    bytes.length = s.packetSize.len - s.idx.val →
    ∃ t e, execAll (feedPkt bytes) s = .next t ∧ t.idx = 0 ∧
      t.results = s.results ++ List.replicate (bytes.length - 1) (.event none) ++ [.event e] ∧
      ∀ j : Fin 4, j.val < s.packetSize.len →
        t.buf.get j = if j.val < s.idx.val then s.buf.get j else bytes.getD (j.val - s.idx.val) 0

/-! ### DECODE -/

/-- Rule R130: a malformed packet, run as its class or completed by a FEED, gives `None` and leaves every register of
`DeviceState` and the packet size alone. -/
def Obligations.MalformedPacketIsDropped : Prop :=
  (∀ (f x y z : Byte) (s : State), s.seq.mayDecode = true →
    exec (.pkt3Drop f x y) s = .next { s with seq := .idle, results := s.results ++ [.event none] } ∧
      exec (.pkt4Drop f x y z) s = .next { s with seq := .idle, results := s.results ++ [.event none] }) ∧
  (∀ (b : Byte) (s : State), Ready s → s.idx.val = s.packetSize.len - 1 → s.buf.b0.getLsbD 3 = false →
    exec (.feed b) s =
      .next { s with buf := s.buf.set s.idx b, idx := 0, results := s.results ++ [.event none] })

/-- Rule R132, with the range of rule R133: the sign bit alone decides the sign, the data byte is the magnitude's low
part. -/
def Obligations.DeltasAreNineBitSignExtensions : Prop :=
  ∀ flags data : Byte,
    (deltaX flags data).toInt = (data.toNat : Int) - (if flags.getLsbD 4 then 256 else 0) ∧
    (deltaYDevice flags data).toInt = (data.toNat : Int) - (if flags.getLsbD 5 then 256 else 0)

/-- Rule R133 (D21): exactly the values -256 to 255, each from exactly one sign bit and byte. -/
def Obligations.EveryNineBitDeltaHasOneEncoding : Prop :=
  (∀ (sign : Bool) (data : Byte), -256 ≤ (widen sign data).toInt ∧ (widen sign data).toInt ≤ 255) ∧
  (∀ v : Int, -256 ≤ v → v ≤ 255 → ∃! p : Bool × Byte, (widen p.1 p.2).toInt = v)

/-- Rule R134: y is negated without overflow. -/
def Obligations.NegatedDeltaNeverOverflows : Prop :=
  ∀ flags data : Byte, (deltaY flags data).toInt = -(deltaYDevice flags data).toInt ∧
    -255 ≤ (deltaY flags data).toInt ∧ (deltaY flags data).toInt ≤ 256 ∧
    (deltaY flags data = 0 ↔ deltaYDevice flags data = 0)

/-- Rule R135: both positions move by the saturating sum on every well-formed packet, whatever its event; nothing records
that a bound was hit: but for the positions, the held registers and the delivered result no field changes. -/
def Obligations.PositionsSaturate : Prop :=
  ∀ (f x y z : Byte) (s : State) (i : Instr), s.seq.mayDecode = true → (i = .pkt3Exec f x y ∨ i = .pkt4Exec f x y z) →
    ∃ (px py : I16) (hl hr hm : Bool) (e : Option Event),
      exec i s = .next { s with
        posX := px, posY := py, heldL := hl, heldR := hr, heldM := hm, seq := .idle
        results := s.results ++ [.event e] } ∧
      px.toInt = (let sum := s.posX.toInt + (deltaX f x).toInt
        if 32767 < sum then 32767 else if sum < -32768 then -32768 else sum) ∧
      py.toInt = (let sum := s.posY.toInt + (deltaY f y).toInt
        if 32767 < sum then 32767 else if sum < -32768 then -32768 else sum)

/-- Rule R137. -/
def Obligations.LeftEdgeIsReported : Prop :=
  ∀ (f x y z : Byte) (s : State), s.seq.mayDecode = true → f.getLsbD 0 ≠ s.heldL →
    let t := { packetEnd f x y (some (if f.getLsbD 0 then .buttonPressed .left else .buttonReleased .left)) s with
      heldL := f.getLsbD 0 }
    exec (.pkt3Exec f x y) s = .next t ∧ exec (.pkt4Exec f x y z) s = .next t

/-- Rule R138, at whatever bit `BTN_R_BIT` (D12) names. -/
def Obligations.RightEdgeIsReported : Prop :=
  ∀ (f x y z : Byte) (s : State), s.seq.mayDecode = true → f.getLsbD 0 = s.heldL →
    f.getLsbD s.cfg.btnRBit.val ≠ s.heldR →
    let r := f.getLsbD s.cfg.btnRBit.val
    let t := { packetEnd f x y (some (if r then .buttonPressed .right else .buttonReleased .right)) s with heldR := r }
    exec (.pkt3Exec f x y) s = .next t ∧ exec (.pkt4Exec f x y z) s = .next t

/-- Rule R139, at whatever bit `BTN_M_BIT` (D12) names. -/
def Obligations.MiddleEdgeIsReported : Prop :=
  ∀ (f x y z : Byte) (s : State), s.seq.mayDecode = true → f.getLsbD 0 = s.heldL →
    f.getLsbD s.cfg.btnRBit.val = s.heldR → f.getLsbD s.cfg.btnMBit.val ≠ s.heldM →
    let m := f.getLsbD s.cfg.btnMBit.val
    let t := { packetEnd f x y (some (if m then .buttonPressed .middle else .buttonReleased .middle)) s with heldM := m }
    exec (.pkt3Exec f x y) s = .next t ∧ exec (.pkt4Exec f x y z) s = .next t

/-- Rule R141, the spec's decision D23: with no button edge, the wheel byte 0x01 to 0x7F gives WheelUp, 0x80 to 0xFF
WheelDown, 0 goes on to Move; while `wheel_capable` is false the byte plays no part. The wheel byte of a 3-byte packet's
class is `buf[3]` (the model's choice, notes/assumptions/10.md; no run reaches it). -/
def Obligations.WheelStepFollowsTheButtons : Prop :=
  ∀ (f x y z : Byte) (s : State), s.seq.mayDecode = true → NoEdge f s →
    let outcome := fun (zb : Byte) =>
      packetEnd f x y
        (if s.wheelCapable = true ∧ 0x01 ≤ zb.toNat ∧ zb.toNat ≤ 0x7F then some .wheelUp
        else if s.wheelCapable = true ∧ 0x80 ≤ zb.toNat then some .wheelDown
        else if deltaX f x ≠ 0 ∨ deltaY f y ≠ 0 then some (.move (deltaX f x) (deltaY f y)) else none) s
    exec (.pkt3Exec f x y) s = .next (outcome s.buf.b3) ∧ exec (.pkt4Exec f x y z) s = .next (outcome z)

/-- Rule R142, the spec's decision D22: with no button edge and no wheel event, a nonzero delta is reported whole,
saturated or not. -/
def Obligations.MoveIsReportedLast : Prop :=
  ∀ (f x y z : Byte) (s : State), s.seq.mayDecode = true → NoEdge f s →
    (s.wheelCapable = true → s.buf.b3 = 0 ∧ z = 0) → deltaX f x ≠ 0 ∨ deltaY f y ≠ 0 →
    let t := packetEnd f x y (some (.move (deltaX f x) (deltaY f y))) s
    exec (.pkt3Exec f x y) s = .next t ∧ exec (.pkt4Exec f x y z) s = .next t

/-- Rule R143: nothing to report, nothing changed. -/
def Obligations.QuietPacketGivesNoEvent : Prop :=
  ∀ (f x y z : Byte) (s : State), s.seq.mayDecode = true → NoEdge f s →
    (s.wheelCapable = true → s.buf.b3 = 0 ∧ z = 0) → deltaX f x = 0 → deltaY f y = 0 →
    let t := { s with seq := .idle, results := s.results ++ [.event none] }
    exec (.pkt3Exec f x y) s = .next t ∧ exec (.pkt4Exec f x y z) s = .next t

/-- Rule R140: three buttons that change at once take three packets to report, in the order Left, Right, Middle, whatever the
lengths and the data bytes of the packets. -/
def Obligations.SimultaneousEdgesTakeOnePacketEach : Prop :=
  ∀ (f : Byte) (i j k : Instr) (s : State), execWithFlags f i → execWithFlags f j → execWithFlags f k →
    s.seq.mayDecode = true → (∀ b, buttonDown s.cfg f b ≠ s.held b) →
    ∃ t, execAll [i, j, k] s = .next t ∧
      t.results = s.results ++ [.event (some (edgeEvent .left (buttonDown s.cfg f .left))),
        .event (some (edgeEvent .right (buttonDown s.cfg f .right))),
        .event (some (edgeEvent .middle (buttonDown s.cfg f .middle)))] ∧
      ∀ b, t.held b = buttonDown s.cfg f b

/-- A packet changes a held register exactly when it reports that button's edge (43_decoder.md rule R146, P-c and P-d). -/
def Obligations.HeldChangesExactlyWithItsEvent : Prop :=
  ∀ (i : Instr) (s t : State), isPacket i = true → exec i s = .next t →
    ∃ e, t.results = s.results ++ [.event e] ∧
      ∀ b, (e = some (.buttonPressed b) ↔ s.held b = false ∧ t.held b = true) ∧
        (e = some (.buttonReleased b) ↔ s.held b = true ∧ t.held b = false)

/-- In any run of instructions without a RESET, one button's reported events alternate, and its held register is the
last of them (rule R146, P-d). -/
def Obligations.ButtonEventsAlternate : Prop :=
  ∀ (run : List Instr) (s t : State) (b : Button), (∀ i ∈ run, ∀ a, i ≠ .reset a) → execAll run s = .next t →
    ∃ new, t.results = s.results ++ new ∧ alternates (s.held b) (edgesOf b new) = true ∧
      t.held b = (edgesOf b new).getLastD (s.held b)

/-- A wheel event needs `wheel_capable`, a Move is never zero and its deltas have their ranges (rule R146, P-e and P-f;
rules R133, R134). -/
def Obligations.EventsAreLawful : Prop :=
  ∀ (i : Instr) (s t : State) (e : Event), exec i s = .next t → t.results = s.results ++ [.event (some e)] →
    (e = .wheelUp ∨ e = .wheelDown → s.wheelCapable = true) ∧
    ∀ dx dy, e = .move dx dy → (dx ≠ 0 ∨ dy ≠ 0) ∧ -256 ≤ dx.toInt ∧ dx.toInt ≤ 255 ∧ -255 ≤ dy.toInt ∧ dy.toInt ≤ 256

/-- While `wheel_capable` is false no packet's outcome depends on the wheel byte (rule R146, P-g). -/
def Obligations.WheelByteUnseenInThreeByteMode : Prop :=
  ∀ (f x y z z' : Byte) (s : State), s.wheelCapable = false →
    exec (.pkt4Exec f x y z) s = exec (.pkt4Exec f x y z') s ∧
    ∀ t, exec (.pkt3Exec f x y) s = .next t →
      exec (.pkt3Exec f x y) { s with buf := { s.buf with b3 := z } } = .next { t with buf := { t.buf with b3 := z } }

/-- Flags bits 6 and 7 have no effect, where no button is placed on them (30_encoding.md rule R65 (b), the spec's
decision D21). -/
def Obligations.OverflowBitsAreIgnored : Prop :=
  ∀ (f g x y z : Byte) (s : State), s.cfg.btnRBit.val < 6 → s.cfg.btnMBit.val < 6 → f &&& 0x3F = g &&& 0x3F →
    framed f = framed g ∧ exec (.pkt3Exec f x y) s = exec (.pkt3Exec g x y) s ∧
    exec (.pkt4Exec f x y z) s = exec (.pkt4Exec g x y z) s

/-- The greatest x delta again and again approaches the greatest position and never passes it (43_decoder.md rule R135,
vector S6). -/
def Obligations.RepeatedMaximumDeltaSaturates : Prop :=
  ∀ (n : Nat) (s : State), s.seq.mayDecode = true →
    ∃ t, execAll (List.replicate n (.pkt3Exec 0x08 0xFF 0x00)) s = .next t ∧
      t.posX.toInt = min 32767 (s.posX.toInt + 255 * n) ∧ t.posY = s.posY

/-! ### Transport -/

/-- Rule R88, with the iteration of the spec's decision D4, for `WaitInputClear`: the first status answer with IBF = 0
ends the wait, else all `W_LIMIT` reads are made. -/
def Obligations.WaitInputClearClosedForm : Prop :=
  ∀ s : State,
    (∀ k < s.cfg.wLimit, (∀ j < k, (s.answer j).getLsbD s.cfg.stIbf.val = true) →
      (s.answer k).getLsbD s.cfg.stIbf.val = false →
      waitInputClear s = (.cleared, afterReads s (k + 1) (reads s s.cfg.portStcmd 0 (k + 1)))) ∧
    ((∀ j < s.cfg.wLimit, (s.answer j).getLsbD s.cfg.stIbf.val = true) →
      waitInputClear s = (.exhausted, afterReads s s.cfg.wLimit (reads s s.cfg.portStcmd 0 s.cfg.wLimit)))

/-- Rules R81 and R82, the spec's decision D5: WRCMD's accesses, result and everything it leaves alone, for both values
of `WR_EXHAUST`. -/
def Obligations.WrcmdWritesCommandThenPayload : Prop :=
  ∀ (b : Byte) (s : State), Ready s →
    let w := s.cfg.wLimit
    let j := waitReads s w 0
    let k := waitReads s w j
    let first := reads s s.cfg.portStcmd 0 j
    let upToSecond := first ++ [.wr s.cfg.portStcmd s.cfg.cFwdAux] ++ reads s s.cfg.portStcmd j k
    ((s.cfg.wrExhaust = .proceed ∨ waitClears s w 0 = true ∧ waitClears s w j = true) →
      exec (.wrcmd b) s =
        .next { afterReads s (j + k) (upToSecond ++ [.wr s.cfg.portData b]) with results := s.results ++ [.ok] }) ∧
    (s.cfg.wrExhaust = .timeout → waitClears s w 0 = false →
      exec (.wrcmd b) s =
        .next { afterReads s j first with results := s.results ++ [.err (.timeout .wrcmdWait1)] }) ∧
    (s.cfg.wrExhaust = .timeout → waitClears s w 0 = true → waitClears s w j = false →
      exec (.wrcmd b) s =
        .next { afterReads s (j + k) upToSecond with results := s.results ++ [.err (.timeout .wrcmdWait2)] })

/-- Rule R83 in the closed form of rule R88 (the spec's decision D4): RDRSP's accesses, result and everything it leaves
alone. -/
def Obligations.RdrspReadsOneMouseByte : Prop :=
  ∀ (a : Byte) (s : State), Ready s →
    (∀ k < s.cfg.rLimit, (∀ j < k, mouseByte s (s.answer j) = false) → mouseByte s (s.answer k) = true →
      exec (.rdrsp a) s =
        .next { afterReads s (k + 2)
            (reads s s.cfg.portStcmd 0 (k + 1) ++ [.rd s.cfg.portData (s.answer (k + 1))]) with
          results := s.results ++ [.okByte (s.answer (k + 1))] }) ∧
    ((∀ j < s.cfg.rLimit, mouseByte s (s.answer j) = false) →
      exec (.rdrsp a) s =
        .next { afterReads s s.cfg.rLimit (reads s s.cfg.portStcmd 0 s.cfg.rLimit) with
          results := s.results ++ [.err (.timeout .rdrsp)] })

/-- The pseudo-operation SEND (30_encoding.md rule R71) is the procedure SEND of 40_transport.md rule R86 (the
spec's decision D7). -/
def Obligations.SendIsWrcmdThenRdrsp : Prop :=
  ∀ (b : Byte) (s : State), Ready s → ∃ t, sendPseudo b s = .next t ∧
    t.history = (send b s).2.history ∧ t.script = (send b s).2.script ∧ t.draws = (send b s).2.draws ∧
    t.results.getLast? = some (byteResult (send b s).1)

/-- The nine emitted bytes of rule R58 (the spec's decision D3): each is the write of its value to its port and nothing
else (what running such a row alone means is the model's choice, notes/assumptions/9.md). -/
def Obligations.EmittedBytesAreSingleWrites : Prop :=
  ∀ s : State,
    exec .cEnableAux s = .next { s with history := s.history ++ [.wr s.cfg.portStcmd s.cfg.cEnableAux] } ∧
    exec .cFwdAux s = .next { s with history := s.history ++ [.wr s.cfg.portStcmd s.cfg.cFwdAux] } ∧
    exec .cSetDefaults s = .next { s with history := s.history ++ [.wr s.cfg.portData s.cfg.cSetDefaults] } ∧
    exec .cSetRate s = .next { s with history := s.history ++ [.wr s.cfg.portData s.cfg.cSetRate] } ∧
    exec .rate200 s = .next { s with history := s.history ++ [.wr s.cfg.portData 200] } ∧
    exec .rate100 s = .next { s with history := s.history ++ [.wr s.cfg.portData 100] } ∧
    exec .rate80 s = .next { s with history := s.history ++ [.wr s.cfg.portData 80] } ∧
    exec .cGetId s = .next { s with history := s.history ++ [.wr s.cfg.portData s.cfg.cGetId] } ∧
    exec .cEnableStream s = .next { s with history := s.history ++ [.wr s.cfg.portData s.cfg.cEnableStream] }

/-- The outcome and the accesses of a transport operation do not depend on any register: no register is read by INIT, WRCMD
or RDRSP in the read-by column of 10_state.md rule R10, nor in the pseudocode of 40_transport.md rules R81 and R83 and of
41_initializer.md rule R101. -/
def Obligations.TransportIgnoresTheRegisters : Prop :=
  ∀ (i : Instr) (s t : State) (hl hr hm : Bool) (x y : I16) (wc : Bool) (ps : PacketSize) (buf : PacketBuf) (idx : Fin 4),
    ((∃ a, i = .init a) ∨ (∃ b, i = .wrcmd b) ∨ ∃ a, i = .rdrsp a) → exec i s = .next t →
    ∃ t', exec i { s with
        heldL := hl, heldR := hr, heldM := hm, posX := x, posY := y, wheelCapable := wc, packetSize := ps, buf := buf
        idx := idx } = .next t' ∧
      t'.history = t.history ∧ t'.results = t.results ∧ t'.script = t.script ∧ t'.draws = t.draws ∧ t'.session = t.session

/-! ### INIT -/

/-- INIT completes from every state in which it may be requested: with `Ok`, or with the Timeout of a mandatory step (of
step 1 under `timeout` only), and writes no register but the configuration pair, which it never lowers
(41_initializer.md rules R101, R108, R110, R111; the spec's decisions D8 to D11, D25). -/
def Obligations.InitCompletes : Prop :=
  ∀ (a : Byte) (s : State), s.seq = .idle → s.session = .ready → ∃ t, exec (.init a) s = .next t ∧
    ((t.results = s.results ++ [.ok] ∧ t.session = .configured) ∨
      (∃ site, t.results = s.results ++ [.err (.timeout site)] ∧ t.session = .ready ∧
        (site = .initSetDefaults ∨ site = .initEnableStream ∨
          site = .initEnablePort ∧ s.cfg.wrExhaust = .timeout))) ∧
    (t.wheelCapable = s.wheelCapable ∧ t.packetSize = s.packetSize ∨ t.wheelCapable = true ∧ t.packetSize = .four) ∧
    t.heldL = s.heldL ∧ t.heldR = s.heldR ∧ t.heldM = s.heldM ∧ t.posX = s.posX ∧ t.posY = s.posY ∧ t.buf = s.buf ∧
    t.idx = s.idx ∧ t.seq = .idle ∧ t.requests = s.requests ∧ t.cfg = s.cfg

/-- The INIT in which every wait and every poll ends at its first read, each read with a byte of its own: its 58 accesses in
order, `Ok`, and both configuration registers written exactly when the ID is 3 (rules R101 to R107, vectors I1, I2, I9). No
acknowledgment value matters (rule R59, D6). How many reads follow each byte is the spec's decision D7. -/
def Obligations.InitIdealRun : Prop :=
  ∀ (a id : Byte) (clear ready ack : Nat → Byte) (rest : List Byte) (s : State), s.seq = .idle → s.session = .ready →
    0 < s.cfg.wLimit → 0 < s.cfg.rLimit → (∀ n < 19, (clear n).getLsbD s.cfg.stIbf.val = false) →
    (∀ n < 10, mouseByte s (ready n) = true) → s.script = idealScript clear ready ack id ++ rest →
    (idealAccesses s.cfg clear ready ack id).length = 58 ∧
    exec (.init a) s =
      .next { s with
        script := rest, history := s.history ++ idealAccesses s.cfg clear ready ack id
        results := s.results ++ [.ok], session := .configured
        wheelCapable := if id = 3 then true else s.wheelCapable
        packetSize := if id = 3 then .four else s.packetSize }

/-- INIT turns the wheel on only when the probe answered the device ID 3: the byte 3 was read from the data port by the one
RDRSP after the probe's seven SENDs, as the probe's last access. An acknowledgment of 3 does not do it (rules R105, R106;
vector I11). -/
def Obligations.WheelNeedsDeviceIdThree : Prop :=
  ∀ (a : Byte) (s t : State), exec (.init a) s = .next t → s.wheelCapable = false → t.wheelCapable = true →
    t.packetSize = .four ∧ Access.rd s.cfg.portData 3 ∈ t.history.drop s.history.length ∧
    ∃ s1 s2 s3 s4 before after, enablePort s = (.ok (), s1) ∧
      sendMandatory .initSetDefaults s1.cfg.cSetDefaults s1 = (.ok (), s2) ∧
      sendsOk (probeBytes s2.cfg) s2 = some s3 ∧ rdrsp s3 = (.ok 3, s4) ∧ probe s2 = (.ok 3, s4) ∧
      s4.history = s3.history ++ before ++ [.rd s.cfg.portData 3] ∧ t.history = s4.history ++ after

/-- How INIT ends at step 1 or step 2, with every access and everything left alone, under both values of `WR_EXHAUST` (rules
R102, R103; the spec's decisions D5, D7, D8). Under `timeout` an exhausted wait of step 1 ends it with nothing written (vector
I7), an exhausted first wait of set-defaults with only `C_ENABLE_AUX` written, an exhausted second one with `C_FWD_AUX`
written after it. When the writes are made and no response comes to set-defaults, the poll's Timeout ends it (vector I3). No
later step is performed and no register is written. -/
def Obligations.SilentMouseAbortsInitAtSetDefaults : Prop :=
  ∀ (a : Byte) (s : State), s.seq = .idle → s.session = .ready →
    let w := s.cfg.wLimit
    let j1 := waitReads s w 0
    let j2 := waitReads s w j1
    let j3 := waitReads s w (j1 + j2)
    let toEnable := reads s s.cfg.portStcmd 0 j1
    let toForward := toEnable ++ [.wr s.cfg.portStcmd s.cfg.cEnableAux] ++ reads s s.cfg.portStcmd j1 j2
    let toPayload := toForward ++ [.wr s.cfg.portStcmd s.cfg.cFwdAux] ++ reads s s.cfg.portStcmd (j1 + j2) j3
    (s.cfg.wrExhaust = .timeout → waitClears s w 0 = false →
      exec (.init a) s =
        .next { afterReads s j1 toEnable with results := s.results ++ [.err (.timeout .initEnablePort)] }) ∧
    (s.cfg.wrExhaust = .timeout → waitClears s w 0 = true → waitClears s w j1 = false →
      exec (.init a) s =
        .next { afterReads s (j1 + j2) toForward with
          results := s.results ++ [.err (.timeout .initSetDefaults)] }) ∧
    (s.cfg.wrExhaust = .timeout → waitClears s w 0 = true → waitClears s w j1 = true →
      waitClears s w (j1 + j2) = false →
      exec (.init a) s =
        .next { afterReads s (j1 + j2 + j3) toPayload with
          results := s.results ++ [.err (.timeout .initSetDefaults)] }) ∧
    ((s.cfg.wrExhaust = .proceed ∨
        waitClears s w 0 = true ∧ waitClears s w j1 = true ∧ waitClears s w (j1 + j2) = true) →
      (∀ n < s.cfg.rLimit, mouseByte s (s.answer (j1 + j2 + j3 + n)) = false) →
      exec (.init a) s =
        .next { afterReads s (j1 + j2 + j3 + s.cfg.rLimit)
            (toPayload ++ [.wr s.cfg.portData s.cfg.cSetDefaults] ++
              reads s s.cfg.portStcmd (j1 + j2 + j3) s.cfg.rLimit) with
          results := s.results ++ [.err (.timeout .initSetDefaults)] })

/-- Whatever ends the optional probe (an ID, the wrong ID, a Timeout anywhere in it), INIT goes on to enable streaming from the
state the probe left, and its result is that step's alone; and the first Timeout ends the probe at once: the bytes after it
are not sent (rules R104 to R107, R109, R110; the spec's decision D9). -/
def Obligations.ProbeOutcomeIsSwallowed : Prop :=
  (∀ (a : Byte) (s s1 s2 : State), s.seq = .idle → s.session = .ready → enablePort s = (.ok (), s1) →
    sendMandatory .initSetDefaults s1.cfg.cSetDefaults s1 = (.ok (), s2) →
    let s3 := { (probe s2).2 with
      wheelCapable := if (probe s2).1 = .ok 3 then true else s2.wheelCapable
      packetSize := if (probe s2).1 = .ok 3 then .four else s2.packetSize }
    exec (.init a) s =
      .next (match send s3.cfg.cEnableStream s3 with
        | (.ok _, u) => { u with results := u.results ++ [.ok], session := .configured }
        | (.error _, u) => { u with results := u.results ++ [.err (.timeout .initEnableStream)] })) ∧
  (∀ (s s1 u : State) (sent unsent : List Byte) (b : Byte) (e : ErrorKind), probeBytes s.cfg = sent ++ b :: unsent →
    sendsOk sent s = some s1 → send b s1 = (.error e, u) → probe s = (.error e, u)) ∧
  (∀ s s1 : State, sendsOk (probeBytes s.cfg) s = some s1 → probe s = rdrsp s1)

/-- UnsupportedFeature is never delivered to the host (60_exceptions.md rule R162). -/
def Obligations.UnsupportedFeatureNeverSurfaces : Prop :=
  ∀ s t : State, step s = .next t → Result.err .unsupportedFeature ∈ t.results → Result.err .unsupportedFeature ∈ s.results

/-- An INIT in mid-packet: the one or two bytes already stored become the first ones of a 4-byte packet (20_memory.md rule R42,
70_reset_and_hazards.md rule R190, program P6; the spec's decision D28). -/
def Obligations.InitInMidPacketLengthensIt : Prop :=
  ∀ (a b b' b'' : Byte) (s t : State), exec (.init a) s = .next t → s.packetSize = .three → t.packetSize = .four →
    (s.idx = 1 →
      ∃ u v, exec (.feed b) t = .next u ∧ u.idx = 2 ∧ u.results = t.results ++ [.event none] ∧
        exec (.feed b') u = .next v ∧ v.idx = 3 ∧ v.results = u.results ++ [.event none] ∧
        exec (.feed b'') v =
          exec (decodeP4 s.buf.b0 b b' b'') { v with buf := ⟨s.buf.b0, b, b', b''⟩, idx := 0 }) ∧
    (s.idx = 2 →
      ∃ u, exec (.feed b) t = .next u ∧ u.idx = 3 ∧ u.results = t.results ++ [.event none] ∧
        exec (.feed b') u =
          exec (decodeP4 s.buf.b0 s.buf.b1 b b') { u with buf := ⟨s.buf.b0, s.buf.b1, b, b'⟩, idx := 0 })

/-! ### The whole machine -/

/-- The invariant of `Safety` holds after reset, under any parameters that obey rule R6. -/
def Obligations.ResetStateIsInvariant : Prop :=
  State.reset.Inv ∧ ∀ c : Config, c.wf = true → (State.resetWith c).Inv

/-- Every step keeps the invariant (10_state.md rules R14, R15, R16, R19, R25). -/
def Obligations.StepKeepsTheInvariant : Prop :=
  ∀ s t : State, s.Inv → step s = .next t → t.Inv

/-- A step only adds accesses to the event history; each is at one of the two ports, and the command port gets the two
controller commands and nothing else (20_memory.md rule R30, 10_state.md rule R19). -/
def Obligations.StepReachesTheTwoPortsOnly : Prop :=
  ∀ s t : State, s.Inv → step s = .next t →
    ∃ acc, t.history = s.history ++ acc ∧ ∀ x ∈ acc,
      (∃ v, x = .rd s.cfg.portStcmd v) ∨ (∃ v, x = .rd s.cfg.portData v) ∨ (∃ v, x = .wr s.cfg.portData v) ∨
        x = .wr s.cfg.portStcmd s.cfg.cEnableAux ∨ x = .wr s.cfg.portStcmd s.cfg.cFwdAux

/-- RESET, FEED and the packet classes make no port access and take no answer of the environment (10_state.md rule R21).
-/
def Obligations.FeedAndResetReachNoPort : Prop :=
  ∀ (i : Instr) (s t : State), ((∃ a, i = .reset a) ∨ (∃ b, i = .feed b) ∨ isPacket i = true) → exec i s = .next t →
    t.history = s.history ∧ t.script = s.script

/-- No step changes the parameters. 10_state.md rule R28 says that they are inputs of the step relation; that they are a field
of State which no step changes is the model's choice (notes/assumptions/1.md, DESIGN CHOICE). -/
def Obligations.ParametersNeverChange : Prop :=
  ∀ s t : State, step s = .next t → t.cfg = s.cfg

/-- Rule R23: which operation may write which register. -/
def Obligations.AccessRights : Prop :=
  (∀ (a : Byte) (s t : State), exec (.reset a) s = .next t →
    t.observe = ⟨false, false, false, 0, 0, false, .three, 0⟩) ∧
  (∀ (a : Byte) (s t : State), exec (.init a) s = .next t →
    t.observe = { s.observe with wheelCapable := t.wheelCapable, packetSize := t.packetSize } ∧ t.buf = s.buf) ∧
  (∀ (b : Byte) (s t : State), exec (.wrcmd b) s = .next t ∨ exec (.rdrsp b) s = .next t →
    t.observe = s.observe ∧ t.buf = s.buf) ∧
  (∀ (b : Byte) (s t : State), exec (.feed b) s = .next t →
    t.wheelCapable = s.wheelCapable ∧ t.packetSize = s.packetSize ∧ t.buf = s.buf.set s.idx b ∧
    t.idx = (if s.idx.val = s.packetSize.len - 1 then 0 else s.idx + 1) ∧
    (¬(s.idx.val = s.packetSize.len - 1 ∧ t.buf.b0.getLsbD 3 = true) →
      t.posX = s.posX ∧ t.posY = s.posY ∧ ∀ k, t.held k = s.held k) ∧
    ∀ k k', t.held k ≠ s.held k → t.held k' ≠ s.held k' → k = k')

/-- How many port accesses an operation makes at most (20_memory.md rule R45, 70_reset_and_hazards.md rule R184). -/
def Obligations.AccessCountsAreBounded : Prop :=
  ∀ (a : Byte) (s t : State),
    (exec (.wrcmd a) s = .next t → t.history.length ≤ s.history.length + (2 * s.cfg.wLimit + 2)) ∧
    (exec (.rdrsp a) s = .next t → t.history.length ≤ s.history.length + (s.cfg.rLimit + 1)) ∧
    (exec (.init a) s = .next t →
      t.history.length ≤ s.history.length + (19 * s.cfg.wLimit + 10 * s.cfg.rLimit + 29))

/-- The small-step view refines the whole operation (40_transport.md rule R89): begun and then stepped once for each port
access, an operation ends in exactly the state `exec` gives. Giving both views, and the whole operation as one step from the
idle state, is the model's choice (notes/assumptions/6.md). -/
def Obligations.SteppingAnOperationGivesItsWholeEffect : Prop :=
  ∀ (a : Byte) (s t : State),
    (exec (.wrcmd a) s = .next t → ∃ s0, beginWrcmd a s = .next s0 ∧
      Host.Core.run core (t.history.length - s.history.length) s0 = .next t) ∧
    (exec (.rdrsp a) s = .next t → ∃ s0, beginRdrsp s = .next s0 ∧
      Host.Core.run core (t.history.length - s.history.length) s0 = .next t) ∧
    (exec (.init a) s = .next t → ∃ s0, beginInit s = .next s0 ∧
      Host.Core.run core (t.history.length - s.history.length) s0 = .next t)

/-- An operation in progress is never stuck and ends within a bounded number of its own steps, whatever the environment
answers (40_transport.md rules R88, R89; 60_exceptions.md rule R170). -/
def Obligations.OperationInProgressEnds : Prop :=
  ∀ s : State, ∃ (n : Nat) (t : State), n ≤ enoughSteps s ∧ Host.Core.run core n s = .next t ∧ t.seq = .idle

/-! ### Outputs -/

/-- The numbers of rules R68 and R69 (the spec's decisions D19, D20), a field without meaning being 0; and the event port tells
every two results of a FEED apart (an error number tells no two sites and no two results without error apart). -/
def Obligations.EventPortTellsEventsApart : Prop :=
  eventPort none = ⟨0, 0, 0, 0, 0⟩ ∧
  (∀ dx dy : I16, eventPort (some (.move dx dy)) = ⟨1, 0, 0, dx, dy⟩) ∧
  eventPort (some (.buttonPressed .left)) = ⟨1, 1, 0, 0, 0⟩ ∧
  eventPort (some (.buttonPressed .right)) = ⟨1, 1, 1, 0, 0⟩ ∧
  eventPort (some (.buttonPressed .middle)) = ⟨1, 1, 2, 0, 0⟩ ∧
  eventPort (some (.buttonReleased .left)) = ⟨1, 2, 0, 0, 0⟩ ∧
  eventPort (some (.buttonReleased .right)) = ⟨1, 2, 1, 0, 0⟩ ∧
  eventPort (some (.buttonReleased .middle)) = ⟨1, 2, 2, 0, 0⟩ ∧
  eventPort (some .wheelUp) = ⟨1, 3, 0, 0, 0⟩ ∧ eventPort (some .wheelDown) = ⟨1, 4, 0, 0, 0⟩ ∧
  (∀ e e' : Option Event, eventPort e = eventPort e' → e = e') ∧
  (∀ e : Option Event, (eventPort e).tag.toNat ≤ 4 ∧ (eventPort e).btn.toNat ≤ 2 ∧
    ((eventPort e).tag ≠ 0 → (eventPort e).dx = 0 ∧ (eventPort e).dy = 0) ∧
    ((eventPort e).tag ≠ 1 → (eventPort e).tag ≠ 2 → (eventPort e).btn = 0)) ∧
  (∀ site, (ErrorKind.timeout site).code = 1) ∧ ErrorKind.unsupportedFeature.code = 2 ∧
  Result.ok.errCode = 0 ∧ (∀ v, (Result.okByte v).errCode = 0) ∧ (∀ e, (Result.event e).errCode = 0) ∧
  (∀ site, (Result.err (.timeout site)).errCode = 1) ∧ (Result.err .unsupportedFeature).errCode = 2
end

