-- ==== Sys2Proof/Laws/State.lean ====
section
/-! SUPPORT. One lemma for each field of `State` under each update, so that no proof unfolds a record update. -/

namespace Sys2Proof.Machine

variable (s : State)

/-! ### portWrite -/

@[simp] theorem portWrite_cfg (p : PortAddr) (v : Byte) : (portWrite p v s).cfg = s.cfg := rfl
@[simp] theorem portWrite_heldL (p : PortAddr) (v : Byte) : (portWrite p v s).heldL = s.heldL := rfl
@[simp] theorem portWrite_heldR (p : PortAddr) (v : Byte) : (portWrite p v s).heldR = s.heldR := rfl
@[simp] theorem portWrite_heldM (p : PortAddr) (v : Byte) : (portWrite p v s).heldM = s.heldM := rfl
@[simp] theorem portWrite_posX (p : PortAddr) (v : Byte) : (portWrite p v s).posX = s.posX := rfl
@[simp] theorem portWrite_posY (p : PortAddr) (v : Byte) : (portWrite p v s).posY = s.posY := rfl
@[simp] theorem portWrite_wheelCapable (p : PortAddr) (v : Byte) : (portWrite p v s).wheelCapable = s.wheelCapable := rfl
@[simp] theorem portWrite_packetSize (p : PortAddr) (v : Byte) : (portWrite p v s).packetSize = s.packetSize := rfl
@[simp] theorem portWrite_buf (p : PortAddr) (v : Byte) : (portWrite p v s).buf = s.buf := rfl
@[simp] theorem portWrite_idx (p : PortAddr) (v : Byte) : (portWrite p v s).idx = s.idx := rfl
@[simp] theorem portWrite_seq (p : PortAddr) (v : Byte) : (portWrite p v s).seq = s.seq := rfl
@[simp] theorem portWrite_session (p : PortAddr) (v : Byte) : (portWrite p v s).session = s.session := rfl
@[simp] theorem portWrite_requests (p : PortAddr) (v : Byte) : (portWrite p v s).requests = s.requests := rfl
@[simp] theorem portWrite_script (p : PortAddr) (v : Byte) : (portWrite p v s).script = s.script := rfl
@[simp] theorem portWrite_draws (p : PortAddr) (v : Byte) : (portWrite p v s).draws = s.draws := rfl
@[simp] theorem portWrite_history (p : PortAddr) (v : Byte) : (portWrite p v s).history = s.history ++ [.wr p v] := rfl
@[simp] theorem portWrite_results (p : PortAddr) (v : Byte) : (portWrite p v s).results = s.results := rfl

/-! ### writePort -/

@[simp] theorem writePort_cfg (p : Port) (v : Byte) : (writePort p v s).cfg = s.cfg := rfl
@[simp] theorem writePort_heldL (p : Port) (v : Byte) : (writePort p v s).heldL = s.heldL := rfl
@[simp] theorem writePort_heldR (p : Port) (v : Byte) : (writePort p v s).heldR = s.heldR := rfl
@[simp] theorem writePort_heldM (p : Port) (v : Byte) : (writePort p v s).heldM = s.heldM := rfl
@[simp] theorem writePort_posX (p : Port) (v : Byte) : (writePort p v s).posX = s.posX := rfl
@[simp] theorem writePort_posY (p : Port) (v : Byte) : (writePort p v s).posY = s.posY := rfl
@[simp] theorem writePort_wheelCapable (p : Port) (v : Byte) : (writePort p v s).wheelCapable = s.wheelCapable := rfl
@[simp] theorem writePort_packetSize (p : Port) (v : Byte) : (writePort p v s).packetSize = s.packetSize := rfl
@[simp] theorem writePort_buf (p : Port) (v : Byte) : (writePort p v s).buf = s.buf := rfl
@[simp] theorem writePort_idx (p : Port) (v : Byte) : (writePort p v s).idx = s.idx := rfl
@[simp] theorem writePort_seq (p : Port) (v : Byte) : (writePort p v s).seq = s.seq := rfl
@[simp] theorem writePort_session (p : Port) (v : Byte) : (writePort p v s).session = s.session := rfl
@[simp] theorem writePort_requests (p : Port) (v : Byte) : (writePort p v s).requests = s.requests := rfl
@[simp] theorem writePort_script (p : Port) (v : Byte) : (writePort p v s).script = s.script := rfl
@[simp] theorem writePort_draws (p : Port) (v : Byte) : (writePort p v s).draws = s.draws := rfl
@[simp] theorem writePort_history (p : Port) (v : Byte) : (writePort p v s).history = s.history ++ [.wr (s.cfg.addr p) v] := rfl
@[simp] theorem writePort_results (p : Port) (v : Byte) : (writePort p v s).results = s.results := rfl

/-! ### storeByte -/

@[simp] theorem storeByte_cfg (b : Byte) : (storeByte b s).cfg = s.cfg := rfl
@[simp] theorem storeByte_heldL (b : Byte) : (storeByte b s).heldL = s.heldL := rfl
@[simp] theorem storeByte_heldR (b : Byte) : (storeByte b s).heldR = s.heldR := rfl
@[simp] theorem storeByte_heldM (b : Byte) : (storeByte b s).heldM = s.heldM := rfl
@[simp] theorem storeByte_posX (b : Byte) : (storeByte b s).posX = s.posX := rfl
@[simp] theorem storeByte_posY (b : Byte) : (storeByte b s).posY = s.posY := rfl
@[simp] theorem storeByte_wheelCapable (b : Byte) : (storeByte b s).wheelCapable = s.wheelCapable := rfl
@[simp] theorem storeByte_packetSize (b : Byte) : (storeByte b s).packetSize = s.packetSize := rfl
@[simp] theorem storeByte_buf (b : Byte) : (storeByte b s).buf = s.buf.set s.idx b := rfl
@[simp] theorem storeByte_idx (b : Byte) : (storeByte b s).idx = s.idx := rfl
@[simp] theorem storeByte_seq (b : Byte) : (storeByte b s).seq = s.seq := rfl
@[simp] theorem storeByte_session (b : Byte) : (storeByte b s).session = s.session := rfl
@[simp] theorem storeByte_requests (b : Byte) : (storeByte b s).requests = s.requests := rfl
@[simp] theorem storeByte_script (b : Byte) : (storeByte b s).script = s.script := rfl
@[simp] theorem storeByte_draws (b : Byte) : (storeByte b s).draws = s.draws := rfl
@[simp] theorem storeByte_history (b : Byte) : (storeByte b s).history = s.history := rfl
@[simp] theorem storeByte_results (b : Byte) : (storeByte b s).results = s.results := rfl

/-! ### setIdx -/

@[simp] theorem setIdx_cfg (i : Fin 4) : (setIdx i s).cfg = s.cfg := rfl
@[simp] theorem setIdx_heldL (i : Fin 4) : (setIdx i s).heldL = s.heldL := rfl
@[simp] theorem setIdx_heldR (i : Fin 4) : (setIdx i s).heldR = s.heldR := rfl
@[simp] theorem setIdx_heldM (i : Fin 4) : (setIdx i s).heldM = s.heldM := rfl
@[simp] theorem setIdx_posX (i : Fin 4) : (setIdx i s).posX = s.posX := rfl
@[simp] theorem setIdx_posY (i : Fin 4) : (setIdx i s).posY = s.posY := rfl
@[simp] theorem setIdx_wheelCapable (i : Fin 4) : (setIdx i s).wheelCapable = s.wheelCapable := rfl
@[simp] theorem setIdx_packetSize (i : Fin 4) : (setIdx i s).packetSize = s.packetSize := rfl
@[simp] theorem setIdx_buf (i : Fin 4) : (setIdx i s).buf = s.buf := rfl
@[simp] theorem setIdx_idx (i : Fin 4) : (setIdx i s).idx = i := rfl
@[simp] theorem setIdx_seq (i : Fin 4) : (setIdx i s).seq = s.seq := rfl
@[simp] theorem setIdx_session (i : Fin 4) : (setIdx i s).session = s.session := rfl
@[simp] theorem setIdx_requests (i : Fin 4) : (setIdx i s).requests = s.requests := rfl
@[simp] theorem setIdx_script (i : Fin 4) : (setIdx i s).script = s.script := rfl
@[simp] theorem setIdx_draws (i : Fin 4) : (setIdx i s).draws = s.draws := rfl
@[simp] theorem setIdx_history (i : Fin 4) : (setIdx i s).history = s.history := rfl
@[simp] theorem setIdx_results (i : Fin 4) : (setIdx i s).results = s.results := rfl

/-! ### setSeq -/

@[simp] theorem setSeq_cfg (q : Seq) : (setSeq q s).cfg = s.cfg := rfl
@[simp] theorem setSeq_heldL (q : Seq) : (setSeq q s).heldL = s.heldL := rfl
@[simp] theorem setSeq_heldR (q : Seq) : (setSeq q s).heldR = s.heldR := rfl
@[simp] theorem setSeq_heldM (q : Seq) : (setSeq q s).heldM = s.heldM := rfl
@[simp] theorem setSeq_posX (q : Seq) : (setSeq q s).posX = s.posX := rfl
@[simp] theorem setSeq_posY (q : Seq) : (setSeq q s).posY = s.posY := rfl
@[simp] theorem setSeq_wheelCapable (q : Seq) : (setSeq q s).wheelCapable = s.wheelCapable := rfl
@[simp] theorem setSeq_packetSize (q : Seq) : (setSeq q s).packetSize = s.packetSize := rfl
@[simp] theorem setSeq_buf (q : Seq) : (setSeq q s).buf = s.buf := rfl
@[simp] theorem setSeq_idx (q : Seq) : (setSeq q s).idx = s.idx := rfl
@[simp] theorem setSeq_seq (q : Seq) : (setSeq q s).seq = q := rfl
@[simp] theorem setSeq_session (q : Seq) : (setSeq q s).session = s.session := rfl
@[simp] theorem setSeq_requests (q : Seq) : (setSeq q s).requests = s.requests := rfl
@[simp] theorem setSeq_script (q : Seq) : (setSeq q s).script = s.script := rfl
@[simp] theorem setSeq_draws (q : Seq) : (setSeq q s).draws = s.draws := rfl
@[simp] theorem setSeq_history (q : Seq) : (setSeq q s).history = s.history := rfl
@[simp] theorem setSeq_results (q : Seq) : (setSeq q s).results = s.results := rfl

/-! ### setRequests -/

@[simp] theorem setRequests_cfg (l : List ReqWord) : (setRequests l s).cfg = s.cfg := rfl
@[simp] theorem setRequests_heldL (l : List ReqWord) : (setRequests l s).heldL = s.heldL := rfl
@[simp] theorem setRequests_heldR (l : List ReqWord) : (setRequests l s).heldR = s.heldR := rfl
@[simp] theorem setRequests_heldM (l : List ReqWord) : (setRequests l s).heldM = s.heldM := rfl
@[simp] theorem setRequests_posX (l : List ReqWord) : (setRequests l s).posX = s.posX := rfl
@[simp] theorem setRequests_posY (l : List ReqWord) : (setRequests l s).posY = s.posY := rfl
@[simp] theorem setRequests_wheelCapable (l : List ReqWord) : (setRequests l s).wheelCapable = s.wheelCapable := rfl
@[simp] theorem setRequests_packetSize (l : List ReqWord) : (setRequests l s).packetSize = s.packetSize := rfl
@[simp] theorem setRequests_buf (l : List ReqWord) : (setRequests l s).buf = s.buf := rfl
@[simp] theorem setRequests_idx (l : List ReqWord) : (setRequests l s).idx = s.idx := rfl
@[simp] theorem setRequests_seq (l : List ReqWord) : (setRequests l s).seq = s.seq := rfl
@[simp] theorem setRequests_session (l : List ReqWord) : (setRequests l s).session = s.session := rfl
@[simp] theorem setRequests_requests (l : List ReqWord) : (setRequests l s).requests = l := rfl
@[simp] theorem setRequests_script (l : List ReqWord) : (setRequests l s).script = s.script := rfl
@[simp] theorem setRequests_draws (l : List ReqWord) : (setRequests l s).draws = s.draws := rfl
@[simp] theorem setRequests_history (l : List ReqWord) : (setRequests l s).history = s.history := rfl
@[simp] theorem setRequests_results (l : List ReqWord) : (setRequests l s).results = s.results := rfl

/-! ### deliver -/

@[simp] theorem deliver_cfg (r : Result) : (deliver r s).cfg = s.cfg := rfl
@[simp] theorem deliver_heldL (r : Result) : (deliver r s).heldL = s.heldL := rfl
@[simp] theorem deliver_heldR (r : Result) : (deliver r s).heldR = s.heldR := rfl
@[simp] theorem deliver_heldM (r : Result) : (deliver r s).heldM = s.heldM := rfl
@[simp] theorem deliver_posX (r : Result) : (deliver r s).posX = s.posX := rfl
@[simp] theorem deliver_posY (r : Result) : (deliver r s).posY = s.posY := rfl
@[simp] theorem deliver_wheelCapable (r : Result) : (deliver r s).wheelCapable = s.wheelCapable := rfl
@[simp] theorem deliver_packetSize (r : Result) : (deliver r s).packetSize = s.packetSize := rfl
@[simp] theorem deliver_buf (r : Result) : (deliver r s).buf = s.buf := rfl
@[simp] theorem deliver_idx (r : Result) : (deliver r s).idx = s.idx := rfl
@[simp] theorem deliver_seq (r : Result) : (deliver r s).seq = s.seq := rfl
@[simp] theorem deliver_session (r : Result) : (deliver r s).session = s.session := rfl
@[simp] theorem deliver_requests (r : Result) : (deliver r s).requests = s.requests := rfl
@[simp] theorem deliver_script (r : Result) : (deliver r s).script = s.script := rfl
@[simp] theorem deliver_draws (r : Result) : (deliver r s).draws = s.draws := rfl
@[simp] theorem deliver_history (r : Result) : (deliver r s).history = s.history := rfl
@[simp] theorem deliver_results (r : Result) : (deliver r s).results = s.results ++ [r] := rfl

/-! ### raiseToHost -/

@[simp] theorem raiseToHost_cfg (e : ErrorKind) : (raiseToHost e s).cfg = s.cfg := rfl
@[simp] theorem raiseToHost_heldL (e : ErrorKind) : (raiseToHost e s).heldL = s.heldL := rfl
@[simp] theorem raiseToHost_heldR (e : ErrorKind) : (raiseToHost e s).heldR = s.heldR := rfl
@[simp] theorem raiseToHost_heldM (e : ErrorKind) : (raiseToHost e s).heldM = s.heldM := rfl
@[simp] theorem raiseToHost_posX (e : ErrorKind) : (raiseToHost e s).posX = s.posX := rfl
@[simp] theorem raiseToHost_posY (e : ErrorKind) : (raiseToHost e s).posY = s.posY := rfl
@[simp] theorem raiseToHost_wheelCapable (e : ErrorKind) : (raiseToHost e s).wheelCapable = s.wheelCapable := rfl
@[simp] theorem raiseToHost_packetSize (e : ErrorKind) : (raiseToHost e s).packetSize = s.packetSize := rfl
@[simp] theorem raiseToHost_buf (e : ErrorKind) : (raiseToHost e s).buf = s.buf := rfl
@[simp] theorem raiseToHost_idx (e : ErrorKind) : (raiseToHost e s).idx = s.idx := rfl
@[simp] theorem raiseToHost_seq (e : ErrorKind) : (raiseToHost e s).seq = s.seq := rfl
@[simp] theorem raiseToHost_session (e : ErrorKind) : (raiseToHost e s).session = s.session := rfl
@[simp] theorem raiseToHost_requests (e : ErrorKind) : (raiseToHost e s).requests = s.requests := rfl
@[simp] theorem raiseToHost_script (e : ErrorKind) : (raiseToHost e s).script = s.script := rfl
@[simp] theorem raiseToHost_draws (e : ErrorKind) : (raiseToHost e s).draws = s.draws := rfl
@[simp] theorem raiseToHost_history (e : ErrorKind) : (raiseToHost e s).history = s.history := rfl
@[simp] theorem raiseToHost_results (e : ErrorKind) : (raiseToHost e s).results = s.results ++ [.err e] := rfl

/-! ### markConfigured -/

@[simp] theorem markConfigured_cfg : (markConfigured s).cfg = s.cfg := rfl
@[simp] theorem markConfigured_heldL : (markConfigured s).heldL = s.heldL := rfl
@[simp] theorem markConfigured_heldR : (markConfigured s).heldR = s.heldR := rfl
@[simp] theorem markConfigured_heldM : (markConfigured s).heldM = s.heldM := rfl
@[simp] theorem markConfigured_posX : (markConfigured s).posX = s.posX := rfl
@[simp] theorem markConfigured_posY : (markConfigured s).posY = s.posY := rfl
@[simp] theorem markConfigured_wheelCapable : (markConfigured s).wheelCapable = s.wheelCapable := rfl
@[simp] theorem markConfigured_packetSize : (markConfigured s).packetSize = s.packetSize := rfl
@[simp] theorem markConfigured_buf : (markConfigured s).buf = s.buf := rfl
@[simp] theorem markConfigured_idx : (markConfigured s).idx = s.idx := rfl
@[simp] theorem markConfigured_seq : (markConfigured s).seq = s.seq := rfl
@[simp] theorem markConfigured_session : (markConfigured s).session = .configured := rfl
@[simp] theorem markConfigured_requests : (markConfigured s).requests = s.requests := rfl
@[simp] theorem markConfigured_script : (markConfigured s).script = s.script := rfl
@[simp] theorem markConfigured_draws : (markConfigured s).draws = s.draws := rfl
@[simp] theorem markConfigured_history : (markConfigured s).history = s.history := rfl
@[simp] theorem markConfigured_results : (markConfigured s).results = s.results := rfl

/-! ### configureWheel -/

@[simp] theorem configureWheel_cfg : (configureWheel s).cfg = s.cfg := rfl
@[simp] theorem configureWheel_heldL : (configureWheel s).heldL = s.heldL := rfl
@[simp] theorem configureWheel_heldR : (configureWheel s).heldR = s.heldR := rfl
@[simp] theorem configureWheel_heldM : (configureWheel s).heldM = s.heldM := rfl
@[simp] theorem configureWheel_posX : (configureWheel s).posX = s.posX := rfl
@[simp] theorem configureWheel_posY : (configureWheel s).posY = s.posY := rfl
@[simp] theorem configureWheel_wheelCapable : (configureWheel s).wheelCapable = true := rfl
@[simp] theorem configureWheel_packetSize : (configureWheel s).packetSize = .four := rfl
@[simp] theorem configureWheel_buf : (configureWheel s).buf = s.buf := rfl
@[simp] theorem configureWheel_idx : (configureWheel s).idx = s.idx := rfl
@[simp] theorem configureWheel_seq : (configureWheel s).seq = s.seq := rfl
@[simp] theorem configureWheel_session : (configureWheel s).session = s.session := rfl
@[simp] theorem configureWheel_requests : (configureWheel s).requests = s.requests := rfl
@[simp] theorem configureWheel_script : (configureWheel s).script = s.script := rfl
@[simp] theorem configureWheel_draws : (configureWheel s).draws = s.draws := rfl
@[simp] theorem configureWheel_history : (configureWheel s).history = s.history := rfl
@[simp] theorem configureWheel_results : (configureWheel s).results = s.results := rfl

/-! ### accumulate -/

@[simp] theorem accumulate_cfg (dx dy : I16) : (accumulate dx dy s).cfg = s.cfg := rfl
@[simp] theorem accumulate_heldL (dx dy : I16) : (accumulate dx dy s).heldL = s.heldL := rfl
@[simp] theorem accumulate_heldR (dx dy : I16) : (accumulate dx dy s).heldR = s.heldR := rfl
@[simp] theorem accumulate_heldM (dx dy : I16) : (accumulate dx dy s).heldM = s.heldM := rfl
@[simp] theorem accumulate_posX (dx dy : I16) : (accumulate dx dy s).posX = satAdd16 s.posX dx := rfl
@[simp] theorem accumulate_posY (dx dy : I16) : (accumulate dx dy s).posY = satAdd16 s.posY dy := rfl
@[simp] theorem accumulate_wheelCapable (dx dy : I16) : (accumulate dx dy s).wheelCapable = s.wheelCapable := rfl
@[simp] theorem accumulate_packetSize (dx dy : I16) : (accumulate dx dy s).packetSize = s.packetSize := rfl
@[simp] theorem accumulate_buf (dx dy : I16) : (accumulate dx dy s).buf = s.buf := rfl
@[simp] theorem accumulate_idx (dx dy : I16) : (accumulate dx dy s).idx = s.idx := rfl
@[simp] theorem accumulate_seq (dx dy : I16) : (accumulate dx dy s).seq = s.seq := rfl
@[simp] theorem accumulate_session (dx dy : I16) : (accumulate dx dy s).session = s.session := rfl
@[simp] theorem accumulate_requests (dx dy : I16) : (accumulate dx dy s).requests = s.requests := rfl
@[simp] theorem accumulate_script (dx dy : I16) : (accumulate dx dy s).script = s.script := rfl
@[simp] theorem accumulate_draws (dx dy : I16) : (accumulate dx dy s).draws = s.draws := rfl
@[simp] theorem accumulate_history (dx dy : I16) : (accumulate dx dy s).history = s.history := rfl
@[simp] theorem accumulate_results (dx dy : I16) : (accumulate dx dy s).results = s.results := rfl

/-! ### setHeld -/

@[simp] theorem setHeld_cfg (b : Button) (v : Bool) : (setHeld b v s).cfg = s.cfg := by cases b <;> rfl
@[simp] theorem setHeld_heldL (b : Button) (v : Bool) : (setHeld b v s).heldL = if b = .left then v else s.heldL := by cases b <;> rfl
@[simp] theorem setHeld_heldR (b : Button) (v : Bool) : (setHeld b v s).heldR = if b = .right then v else s.heldR := by cases b <;> rfl
@[simp] theorem setHeld_heldM (b : Button) (v : Bool) : (setHeld b v s).heldM = if b = .middle then v else s.heldM := by cases b <;> rfl
@[simp] theorem setHeld_posX (b : Button) (v : Bool) : (setHeld b v s).posX = s.posX := by cases b <;> rfl
@[simp] theorem setHeld_posY (b : Button) (v : Bool) : (setHeld b v s).posY = s.posY := by cases b <;> rfl
@[simp] theorem setHeld_wheelCapable (b : Button) (v : Bool) : (setHeld b v s).wheelCapable = s.wheelCapable := by cases b <;> rfl
@[simp] theorem setHeld_packetSize (b : Button) (v : Bool) : (setHeld b v s).packetSize = s.packetSize := by cases b <;> rfl
@[simp] theorem setHeld_buf (b : Button) (v : Bool) : (setHeld b v s).buf = s.buf := by cases b <;> rfl
@[simp] theorem setHeld_idx (b : Button) (v : Bool) : (setHeld b v s).idx = s.idx := by cases b <;> rfl
@[simp] theorem setHeld_seq (b : Button) (v : Bool) : (setHeld b v s).seq = s.seq := by cases b <;> rfl
@[simp] theorem setHeld_session (b : Button) (v : Bool) : (setHeld b v s).session = s.session := by cases b <;> rfl
@[simp] theorem setHeld_requests (b : Button) (v : Bool) : (setHeld b v s).requests = s.requests := by cases b <;> rfl
@[simp] theorem setHeld_script (b : Button) (v : Bool) : (setHeld b v s).script = s.script := by cases b <;> rfl
@[simp] theorem setHeld_draws (b : Button) (v : Bool) : (setHeld b v s).draws = s.draws := by cases b <;> rfl
@[simp] theorem setHeld_history (b : Button) (v : Bool) : (setHeld b v s).history = s.history := by cases b <;> rfl
@[simp] theorem setHeld_results (b : Button) (v : Bool) : (setHeld b v s).results = s.results := by cases b <;> rfl

/-! ### portRead -/

@[simp] theorem portRead_cfg (p : PortAddr) : (portRead p s).2.cfg = s.cfg := by unfold portRead; split <;> rfl
@[simp] theorem portRead_heldL (p : PortAddr) : (portRead p s).2.heldL = s.heldL := by unfold portRead; split <;> rfl
@[simp] theorem portRead_heldR (p : PortAddr) : (portRead p s).2.heldR = s.heldR := by unfold portRead; split <;> rfl
@[simp] theorem portRead_heldM (p : PortAddr) : (portRead p s).2.heldM = s.heldM := by unfold portRead; split <;> rfl
@[simp] theorem portRead_posX (p : PortAddr) : (portRead p s).2.posX = s.posX := by unfold portRead; split <;> rfl
@[simp] theorem portRead_posY (p : PortAddr) : (portRead p s).2.posY = s.posY := by unfold portRead; split <;> rfl
@[simp] theorem portRead_wheelCapable (p : PortAddr) : (portRead p s).2.wheelCapable = s.wheelCapable := by unfold portRead; split <;> rfl
@[simp] theorem portRead_packetSize (p : PortAddr) : (portRead p s).2.packetSize = s.packetSize := by unfold portRead; split <;> rfl
@[simp] theorem portRead_buf (p : PortAddr) : (portRead p s).2.buf = s.buf := by unfold portRead; split <;> rfl
@[simp] theorem portRead_idx (p : PortAddr) : (portRead p s).2.idx = s.idx := by unfold portRead; split <;> rfl
@[simp] theorem portRead_seq (p : PortAddr) : (portRead p s).2.seq = s.seq := by unfold portRead; split <;> rfl
@[simp] theorem portRead_session (p : PortAddr) : (portRead p s).2.session = s.session := by unfold portRead; split <;> rfl
@[simp] theorem portRead_requests (p : PortAddr) : (portRead p s).2.requests = s.requests := by unfold portRead; split <;> rfl
@[simp] theorem portRead_results (p : PortAddr) : (portRead p s).2.results = s.results := by unfold portRead; split <;> rfl

/-- The byte read is the environment's next answer. -/
@[simp] theorem portRead_value (p : PortAddr) : (portRead p s).1 = s.answer 0 := by
  unfold portRead State.answer; cases h : s.script <;> simp

@[simp] theorem portRead_history (p : PortAddr) :
    (portRead p s).2.history = s.history ++ [.rd p (s.answer 0)] := by
  unfold portRead State.answer; cases h : s.script <;> simp

@[simp] theorem portRead_script (p : PortAddr) : (portRead p s).2.script = s.script.drop 1 := by
  unfold portRead; cases h : s.script <;> simp

@[simp] theorem portRead_draws (p : PortAddr) : (portRead p s).2.draws = s.draws + (1 - s.script.length) := by
  unfold portRead; cases h : s.script <;> simp

/-- A read takes one answer; the later ones stay as they were. -/
@[simp] theorem portRead_answer (p : PortAddr) (n : Nat) : (portRead p s).2.answer n = s.answer (n + 1) := by
  unfold State.answer
  simp only [portRead_script, portRead_draws]
  cases h : s.script with
  | nil => simp; congr 1; omega
  | cons v rest =>
    simp only [List.drop_succ_cons, List.drop_zero, List.length_cons, List.getElem?_cons_succ]
    cases rest[n]? <;> simp

/-! ### resetRegisters and reset -/

@[simp] theorem resetRegisters_cfg : (resetRegisters s).cfg = s.cfg := rfl
@[simp] theorem resetRegisters_heldL : (resetRegisters s).heldL = false := rfl
@[simp] theorem resetRegisters_heldR : (resetRegisters s).heldR = false := rfl
@[simp] theorem resetRegisters_heldM : (resetRegisters s).heldM = false := rfl
@[simp] theorem resetRegisters_posX : (resetRegisters s).posX = 0 := rfl
@[simp] theorem resetRegisters_posY : (resetRegisters s).posY = 0 := rfl
@[simp] theorem resetRegisters_wheelCapable : (resetRegisters s).wheelCapable = false := rfl
@[simp] theorem resetRegisters_packetSize : (resetRegisters s).packetSize = .three := rfl
@[simp] theorem resetRegisters_idx : (resetRegisters s).idx = 0 := rfl
@[simp] theorem resetRegisters_seq : (resetRegisters s).seq = .idle := rfl
@[simp] theorem resetRegisters_session : (resetRegisters s).session = .ready := rfl
@[simp] theorem resetRegisters_requests : (resetRegisters s).requests = s.requests := rfl
@[simp] theorem resetRegisters_script : (resetRegisters s).script = s.script := rfl
@[simp] theorem resetRegisters_draws : (resetRegisters s).draws = s.draws + 4 := rfl
@[simp] theorem resetRegisters_history : (resetRegisters s).history = s.history := rfl
@[simp] theorem resetRegisters_results : (resetRegisters s).results = s.results := rfl

/-! ### The packet buffer -/

/-- A byte stored is read back, and the other bytes stay. -/
@[simp] theorem PacketBuf.get_set (b : PacketBuf) (i j : Fin 4) (v : Byte) :
    (b.set i v).get j = if j = i then v else b.get j := by
  fin_cases i <;> fin_cases j <;> rfl

theorem PacketSize.len_le (p : PacketSize) : p.len ≤ 4 := by cases p <;> decide

theorem PacketSize.len_ge (p : PacketSize) : 3 ≤ p.len := by cases p <;> decide

end Sys2Proof.Machine
end

