-- ==== Sys2Proof/Laws/Ops.lean ====
section
/-! SUPPORT. What each shared operation can do, said once. -/

namespace Sys2Proof.Machine

/-! ### Changes of the environment's side only -/

/-- `t` is `s` after the accesses `ext`: only the script, the count of free bytes and the history moved. -/
def EnvOnly (s t : State) (ext : List Access) : Prop :=
  t = { s with script := t.script, draws := t.draws, history := s.history ++ ext }

namespace EnvOnly

variable {s t u : State} {e f : List Access}

theorem history_eq (h : EnvOnly s t e) : t.history = s.history ++ e := by rw [h]
theorem cfg_eq (h : EnvOnly s t e) : t.cfg = s.cfg := by rw [h]
theorem observe_eq (h : EnvOnly s t e) :
    t.heldL = s.heldL ∧ t.heldR = s.heldR ∧ t.heldM = s.heldM ∧ t.posX = s.posX ∧ t.posY = s.posY ∧
      t.wheelCapable = s.wheelCapable ∧ t.packetSize = s.packetSize ∧ t.buf = s.buf ∧ t.idx = s.idx := by
  rw [h]; simp
theorem seq_eq (h : EnvOnly s t e) : t.seq = s.seq := by rw [h]
theorem session_eq (h : EnvOnly s t e) : t.session = s.session := by rw [h]
theorem requests_eq (h : EnvOnly s t e) : t.requests = s.requests := by rw [h]
theorem results_eq (h : EnvOnly s t e) : t.results = s.results := by rw [h]

theorem refl (s : State) : EnvOnly s s [] := by simp [EnvOnly]

theorem trans (h : EnvOnly s t e) (k : EnvOnly t u f) : EnvOnly s u (e ++ f) := by
  unfold EnvOnly at *
  rw [h] at k
  simpa [List.append_assoc] using k

end EnvOnly

theorem portRead_envOnly (p : PortAddr) (s : State) :
    EnvOnly s (portRead p s).2 [.rd p (s.answer 0)] := by
  unfold EnvOnly portRead State.answer
  cases h : s.script with
  | nil => simp [← h]
  | cons v rest => simp

theorem writePort_envOnly (p : Port) (v : Byte) (s : State) :
    EnvOnly s (writePort p v s) [.wr (s.cfg.addr p) v] := rfl

/-! ### Accepting a request or a packet -/

/-- A request that is accepted found the block idle and constructed. -/
theorem acceptRequest_cases {s : State} {run : State → Host.Outcome State Fault Refusal} {o : Host.Outcome State Fault Refusal}
    (h : acceptRequest s run = o) :
    (s.seq ≠ .idle ∧ o = .refused .overlappingRequest) ∨
      (s.seq = .idle ∧ s.session = .unconstructed ∧ o = .refused .beforeReset) ∨
      (s.seq = .idle ∧ s.session ≠ .unconstructed ∧ o = run s) := by
  subst h
  unfold acceptRequest
  cases hq : s.seq <;> cases hs : s.session <;> simp [Seq.isIdle]

theorem acceptRequest_of_ready {s : State} (run : State → Host.Outcome State Fault Refusal) (hq : s.seq = .idle)
    (hs : s.session ≠ .unconstructed) : acceptRequest s run = run s := by
  rcases acceptRequest_cases (rfl : acceptRequest s run = _) with ⟨h, _⟩ | ⟨_, h, _⟩ | ⟨_, _, h⟩
  · exact absurd hq h
  · exact absurd h hs
  · exact h

theorem acceptPacket_of_mayDecode {s : State} (run : State → State) (h : s.seq.mayDecode = true) :
    acceptPacket s run = .next (run s) := by
  simp [acceptPacket, h]

theorem acceptPacket_next {s t : State} {run : State → State} (h : acceptPacket s run = .next t) :
    s.seq.mayDecode = true ∧ t = run s := by
  unfold acceptPacket at h
  cases hm : s.seq.mayDecode <;> simp_all

end Sys2Proof.Machine
end

