-- ==== Sys2Proof/Laws/Transport.lean ====
section
/-! SUPPORT. What the transport procedures can do, said once (40_transport.md). -/

namespace Sys2Proof.Machine

/-- A read of the history. -/
def Access.isRead : Access → Bool
  | .rd _ _ => true
  | .wr _ _ => false

/-- A wait makes at most its budget of status reads and nothing else; it is exhausted only after all of them. -/
theorem waitLoop_spec (n : Nat) (s : State) :
    ∃ ext, EnvOnly s (waitLoop n s).2 ext ∧ ext.length ≤ n ∧ (∀ a ∈ ext, ∃ v, a = .rd s.cfg.portStcmd v) ∧
      ((waitLoop n s).1 = .exhausted → ext.length = n) := by
  induction n generalizing s with
  | zero => exact ⟨[], by simp [waitLoop, EnvOnly.refl]⟩
  | succ n ih =>
    have hr : EnvOnly s (readStatus s).2 _ := portRead_envOnly s.cfg.portStcmd s
    by_cases hf : inputFull s.cfg (readStatus s).1
    · obtain ⟨ext, he, hl, ha, hx⟩ := ih (readStatus s).2
      refine ⟨[.rd s.cfg.portStcmd (s.answer 0)] ++ ext, ?_, ?_, ?_, ?_⟩
      · simpa [waitLoop, hf] using hr.trans he
      · simp; omega
      · rw [hr.cfg_eq] at ha
        intro a hm
        rcases List.mem_append.1 hm with hm | hm
        · exact ⟨_, by simpa using hm⟩
        · exact ha a hm
      · intro hw
        have := hx (by simpa [waitLoop, hf] using hw)
        simp; omega
    · exact ⟨_, by simpa [waitLoop, hf] using hr, by simp, by simp, by simp [waitLoop, hf]⟩

/-- The wait before a write: as `waitLoop_spec`; it fails only under `timeout`, exhausted, at its own site. -/
theorem writeWait_spec (site : Site) (s : State) :
    ∃ ext, EnvOnly s (writeWait site s).2 ext ∧ ext.length ≤ s.cfg.wLimit ∧
      (∀ a ∈ ext, ∃ v, a = .rd s.cfg.portStcmd v) ∧
      ((writeWait site s).1 = .ok () ∨
        (writeWait site s).1 = .error (.timeout site) ∧ s.cfg.wrExhaust = .timeout ∧ ext.length = s.cfg.wLimit) := by
  obtain ⟨ext, he, hl, ha, hx⟩ := waitLoop_spec s.cfg.wLimit s
  have hc := he.cfg_eq
  refine ⟨ext, ?_, hl, ha, ?_⟩ <;>
    simp only [writeWait, waitInputClear] <;>
    rcases h : waitLoop s.cfg.wLimit s with ⟨_ | _, s1⟩ <;> rw [h] at he hc hx <;> simp only at he hc ⊢
  · exact he
  · cases hw : s1.cfg.wrExhaust <;> exact he
  · left; trivial
  · cases hw : s1.cfg.wrExhaust
    · left; trivial
    · exact .inr ⟨by simp, hc ▸ hw, hx rfl⟩

/-- WRCMD: reads, `C_FWD_AUX`, reads, the payload; or, under `timeout`, the accesses before the first exhausted wait ended. -/
theorem wrcmd_spec (b : Byte) (s : State) :
    ∃ ext, EnvOnly s (wrcmd b s).2 ext ∧ ext.length ≤ 2 * s.cfg.wLimit + 2 ∧
      ((wrcmd b s).1 = .ok () ∧ (∃ r1 r2, (∀ a ∈ r1 ++ r2, ∃ v, a = .rd s.cfg.portStcmd v) ∧
          ext = r1 ++ [.wr s.cfg.portStcmd s.cfg.cFwdAux] ++ r2 ++ [.wr s.cfg.portData b]) ∨
        s.cfg.wrExhaust = .timeout ∧
          ((wrcmd b s).1 = .error (.timeout .wrcmdWait1) ∧ (∀ a ∈ ext, ∃ v, a = .rd s.cfg.portStcmd v) ∨
            (wrcmd b s).1 = .error (.timeout .wrcmdWait2) ∧
              ∃ r1 r2, (∀ a ∈ r1 ++ r2, ∃ v, a = .rd s.cfg.portStcmd v) ∧
                ext = r1 ++ [.wr s.cfg.portStcmd s.cfg.cFwdAux] ++ r2)) := by
  obtain ⟨e1, h1, l1, a1, r1⟩ := writeWait_spec .wrcmdWait1 s
  rcases hw1 : writeWait .wrcmdWait1 s with ⟨o1, s1⟩
  rw [hw1] at h1 r1
  have c1 := h1.cfg_eq
  simp only at h1 c1 r1
  rcases r1 with ro | ⟨ro, hx, hl⟩
  · subst ro
    obtain ⟨e2, h2, l2, a2, r2⟩ := writeWait_spec .wrcmdWait2 (writePort .stcmd s1.cfg.cFwdAux s1)
    have hw := (h1.trans (writePort_envOnly .stcmd s1.cfg.cFwdAux s1)).trans h2
    rcases hw2 : writeWait .wrcmdWait2 (writePort .stcmd s1.cfg.cFwdAux s1) with ⟨o2, s2⟩
    rw [hw2] at h2 r2 hw
    have c2 := h2.cfg_eq
    simp only [writePort_cfg, c1] at h2 l2 a2 r2 hw c2 hw2
    have hreads : ∀ a ∈ e1 ++ e2, ∃ v, a = .rd s.cfg.portStcmd v := by
      intro a hm
      rcases List.mem_append.1 hm with hm | hm
      · exact a1 a hm
      · exact a2 a hm
    rcases r2 with ro2 | ⟨ro2, hx2, hl2⟩
    · subst ro2
      refine ⟨_, ?_, ?_, .inl ⟨?_, e1, e2, hreads, rfl⟩⟩
      · have := hw.trans (writePort_envOnly .data b s2)
        simpa [wrcmd, hw1, hw2, c1, c2, Config.addr, List.append_assoc] using this
      · simp only [List.length_append, List.length_singleton]; omega
      · simp [wrcmd, hw1, hw2, c1]
    · subst ro2
      refine ⟨e1 ++ [.wr s.cfg.portStcmd s.cfg.cFwdAux] ++ e2, ?_, ?_, .inr ⟨hx2, .inr ⟨?_, e1, e2, hreads, rfl⟩⟩⟩
      · simpa [wrcmd, hw1, hw2, c1, Config.addr, List.append_assoc] using hw
      · simp only [List.length_append, List.length_singleton]; omega
      · simp [wrcmd, hw1, hw2, c1]
  · subst ro
    refine ⟨e1, by simpa [wrcmd, hw1] using h1, by omega, .inr ⟨hx, .inl ⟨by simp [wrcmd, hw1], a1⟩⟩⟩

/-- RDRSP's loop: status reads, then on success one data read; it fails only with its own Timeout, after all its reads. -/
theorem pollLoop_spec (n : Nat) (s : State) :
    ∃ reads ext, EnvOnly s (pollLoop n s).2 ext ∧ reads.length ≤ n ∧ (∀ a ∈ reads, ∃ v, a = .rd s.cfg.portStcmd v) ∧
      ((∃ v, (pollLoop n s).1 = .ok v ∧ ext = reads ++ [.rd s.cfg.portData v]) ∨
        (pollLoop n s).1 = .error (.timeout .rdrsp) ∧ ext = reads ∧ reads.length = n) := by
  induction n generalizing s with
  | zero => exact ⟨[], [], by simp [pollLoop, EnvOnly.refl]⟩
  | succ n ih =>
    have hr : EnvOnly s (readStatus s).2 _ := portRead_envOnly s.cfg.portStcmd s
    by_cases hf : responseReady s.cfg (readStatus s).1
    · have hd : EnvOnly (readStatus s).2 (readData (readStatus s).2).2 _ :=
        portRead_envOnly (readStatus s).2.cfg.portData (readStatus s).2
      refine ⟨[.rd s.cfg.portStcmd (s.answer 0)], [.rd s.cfg.portStcmd (s.answer 0)] ++
        [.rd (readStatus s).2.cfg.portData ((readStatus s).2.answer 0)], ?_, by simp, by simp,
        .inl ⟨(readStatus s).2.answer 0, ?_, ?_⟩⟩
      · simpa [pollLoop, hf] using hr.trans hd
      · simp [pollLoop, hf, readData]
      · rw [hr.cfg_eq]
    · obtain ⟨reads, ext, he, hl, ha, ho⟩ := ih (readStatus s).2
      rw [hr.cfg_eq] at ha ho
      refine ⟨.rd s.cfg.portStcmd (s.answer 0) :: reads, .rd s.cfg.portStcmd (s.answer 0) :: ext, ?_, by simpa using hl,
        ?_, ?_⟩
      · simpa [pollLoop, hf] using hr.trans he
      · intro a hm
        rcases List.mem_cons.1 hm with hm | hm
        · exact ⟨_, hm⟩
        · exact ha a hm
      · rcases ho with ⟨v, hv, hx⟩ | ⟨hv, hx, hk⟩
        · exact .inl ⟨v, by simpa [pollLoop, hf] using hv, by simp [hx]⟩
        · exact .inr ⟨by simpa [pollLoop, hf] using hv, by simp [hx], by simp [hk]⟩

/-- RDRSP moves the environment's side only, and fails with Timeout only. -/
theorem rdrsp_spec (s : State) :
    ∃ ext, EnvOnly s (rdrsp s).2 ext ∧ ext.length ≤ s.cfg.rLimit + 1 ∧ (∀ a ∈ ext, a.isRead = true) ∧
      ((∃ v, (rdrsp s).1 = .ok v ∧ Access.rd s.cfg.portData v ∈ ext) ∨ (rdrsp s).1 = .error (.timeout .rdrsp)) := by
  obtain ⟨reads, ext, he, hl, ha, ho⟩ := pollLoop_spec s.cfg.rLimit s
  have hreads : ∀ a ∈ reads, a.isRead = true := by
    intro a hm
    obtain ⟨v, rfl⟩ := ha a hm
    rfl
  refine ⟨ext, he, ?_, ?_, ?_⟩
  · rcases ho with ⟨v, _, hx⟩ | ⟨_, hx, _⟩ <;> simp [hx] <;> omega
  · rcases ho with ⟨v, _, hx⟩ | ⟨_, hx, _⟩ <;> subst hx
    · intro a hm
      rcases List.mem_append.1 hm with hm | hm
      · exact hreads a hm
      · rw [List.mem_singleton.1 hm]; rfl
    · exact hreads
  · rcases ho with ⟨v, hv, hx⟩ | ⟨hv, _, _⟩
    · exact .inl ⟨v, hv, by simp [hx]⟩
    · exact .inr hv

/-- SEND moves the environment's side only, within its budget, and fails with Timeout only. -/
theorem send_spec (b : Byte) (s : State) :
    ∃ ext, EnvOnly s (send b s).2 ext ∧ ext.length ≤ 2 * s.cfg.wLimit + s.cfg.rLimit + 3 ∧
      ((∃ v, (send b s).1 = .ok v) ∨ ∃ site, (send b s).1 = .error (.timeout site)) := by
  obtain ⟨e1, h1, l1, r1⟩ := wrcmd_spec b s
  rcases hw : wrcmd b s with ⟨o, s1⟩
  rw [hw] at h1 r1
  simp only at h1 r1
  rcases r1 with ⟨ro, _⟩ | ⟨_, ⟨ro, _⟩ | ⟨ro, _⟩⟩
  · obtain ⟨e2, h2, l2, _, r2⟩ := rdrsp_spec s1
    rw [h1.cfg_eq] at l2
    subst ro
    refine ⟨e1 ++ e2, by simpa [send, hw] using h1.trans h2, by simp; omega, ?_⟩
    rcases r2 with ⟨v, hv, _⟩ | hv
    · exact .inl ⟨v, by simpa [send, hw] using hv⟩
    · exact .inr ⟨.rdrsp, by simpa [send, hw] using hv⟩
  · subst ro; exact ⟨e1, by simpa [send, hw] using h1, by omega, .inr ⟨.wrcmdWait1, by simp [send, hw]⟩⟩
  · subst ro; exact ⟨e1, by simpa [send, hw] using h1, by omega, .inr ⟨.wrcmdWait2, by simp [send, hw]⟩⟩

end Sys2Proof.Machine
end

