-- ==== Sys2Proof/Laws/Initializer.lean ====
section
/-! SUPPORT. What INIT's procedures can do, said once (41_initializer.md). -/

namespace Sys2Proof.Machine

/-- A mandatory SEND moves the environment's side only and fails with its own site only. -/
theorem sendMandatory_spec (site : Site) (b : Byte) (s : State) :
    ∃ ext, EnvOnly s (sendMandatory site b s).2 ext ∧ ext.length ≤ 2 * s.cfg.wLimit + s.cfg.rLimit + 3 ∧
      ((sendMandatory site b s).1 = .ok () ∨ (sendMandatory site b s).1 = .error (.timeout site)) := by
  obtain ⟨ext, he, hl, hr⟩ := send_spec b s
  rcases h : send b s with ⟨o, s1⟩
  rw [h] at he hr
  refine ⟨ext, ?_, hl, ?_⟩ <;> cases o <;> simp_all [sendMandatory]

/-- INIT's step 1 moves the environment's side only, and fails only under `timeout`. -/
theorem enablePort_spec (s : State) :
    ∃ ext, EnvOnly s (enablePort s).2 ext ∧ ext.length ≤ s.cfg.wLimit + 1 ∧
      ((enablePort s).1 = .ok () ∧ (∃ r, (∀ a ∈ r, ∃ v, a = .rd s.cfg.portStcmd v) ∧
          ext = r ++ [.wr s.cfg.portStcmd s.cfg.cEnableAux]) ∨
        (enablePort s).1 = .error (.timeout .initEnablePort) ∧ s.cfg.wrExhaust = .timeout ∧
          ∀ a ∈ ext, ∃ v, a = .rd s.cfg.portStcmd v) := by
  obtain ⟨ext, he, hl, ha, hr⟩ := writeWait_spec .initEnablePort s
  rcases h : writeWait .initEnablePort s with ⟨o, s1⟩
  rw [h] at he hr
  have hc := he.cfg_eq
  simp only at he hr hc
  rcases hr with ho | ⟨ho, hx, _⟩ <;> subst ho
  · refine ⟨ext ++ [.wr s.cfg.portStcmd s.cfg.cEnableAux], ?_, by simp; omega, .inl ⟨by simp [enablePort, h], ext, ha, rfl⟩⟩
    simpa [enablePort, h, hc, Config.addr] using he.trans (writePort_envOnly .stcmd s1.cfg.cEnableAux s1)
  · exact ⟨ext, by simpa [enablePort, h] using he, by omega, .inr ⟨by simp [enablePort, h], hx, ha⟩⟩

/-- The magic sequence moves the environment's side only. -/
theorem sendRates_spec (l : List Byte) (s : State) :
    ∃ ext, EnvOnly s (sendRates l s).2 ext ∧
      ext.length ≤ 2 * l.length * (2 * s.cfg.wLimit + s.cfg.rLimit + 3) ∧
      ((sendRates l s).1 = .ok () ∨ ∃ site, (sendRates l s).1 = .error (.timeout site)) := by
  induction l generalizing s with
  | nil => exact ⟨[], by simp [sendRates, EnvOnly.refl]⟩
  | cons r rest ih =>
    obtain ⟨e1, h1, l1, r1⟩ := send_spec s.cfg.cSetRate s
    rcases hs1 : send s.cfg.cSetRate s with ⟨o1, s1⟩
    rw [hs1] at h1 r1
    simp only at h1 r1
    have hb : 2 * (r :: rest).length * (2 * s.cfg.wLimit + s.cfg.rLimit + 3) =
        2 * rest.length * (2 * s.cfg.wLimit + s.cfg.rLimit + 3) + 2 * (2 * s.cfg.wLimit + s.cfg.rLimit + 3) := by
      simp only [List.length_cons]; ring
    rcases r1 with ⟨v1, ho⟩ | ⟨site, ho⟩ <;> subst ho
    · obtain ⟨e2, h2, l2, r2⟩ := send_spec r s1
      rcases hs2 : send r s1 with ⟨o2, s2⟩
      rw [hs2] at h2 r2
      simp only at h2 r2
      rw [h1.cfg_eq] at l2
      rcases r2 with ⟨v2, ho⟩ | ⟨site, ho⟩ <;> subst ho
      · obtain ⟨e3, h3, l3, r3⟩ := ih s2
        rw [h2.cfg_eq, h1.cfg_eq] at l3
        refine ⟨e1 ++ e2 ++ e3, ?_, ?_, ?_⟩
        · simpa [sendRates, hs1, hs2] using (h1.trans h2).trans h3
        · simp only [List.length_append, hb]; omega
        · simpa [sendRates, hs1, hs2] using r3
      · refine ⟨e1 ++ e2, ?_, ?_, .inr ⟨site, ?_⟩⟩
        · simpa [sendRates, hs1, hs2] using h1.trans h2
        · simp only [List.length_append, hb]; omega
        · simp [sendRates, hs1, hs2]
    · refine ⟨e1, ?_, ?_, .inr ⟨site, ?_⟩⟩
      · simpa [sendRates, hs1] using h1
      · rw [hb]; omega
      · simp [sendRates, hs1]

/-- The probe moves the environment's side only; an ID it answers was read from the data port. -/
theorem probe_spec (s : State) :
    ∃ ext, EnvOnly s (probe s).2 ext ∧
      ext.length ≤ 7 * (2 * s.cfg.wLimit + s.cfg.rLimit + 3) + s.cfg.rLimit + 1 ∧
      ((∃ id, (probe s).1 = .ok id ∧ Access.rd s.cfg.portData id ∈ ext) ∨ ∃ site, (probe s).1 = .error (.timeout site)) := by
  obtain ⟨e1, h1, l1, r1⟩ := sendRates_spec rateSeq s
  have hlen : rateSeq.length = 3 := rfl
  rw [hlen] at l1
  rcases hs1 : sendRates rateSeq s with ⟨o1, s1⟩
  rw [hs1] at h1 r1
  simp only at h1 r1
  rcases r1 with ho | ⟨site, ho⟩ <;> subst ho
  · obtain ⟨e2, h2, l2, r2⟩ := send_spec s1.cfg.cGetId s1
    rcases hs2 : send s1.cfg.cGetId s1 with ⟨o2, s2⟩
    rw [hs2] at h2 r2
    simp only at h2 r2
    rw [h1.cfg_eq] at l2
    rcases r2 with ⟨v2, ho⟩ | ⟨site, ho⟩ <;> subst ho
    · obtain ⟨e3, h3, l3, _, r3⟩ := rdrsp_spec s2
      rw [h2.cfg_eq, h1.cfg_eq] at l3 r3
      refine ⟨e1 ++ e2 ++ e3, ?_, ?_, ?_⟩
      · simpa [probe, hs1, hs2] using (h1.trans h2).trans h3
      · simp only [List.length_append]; omega
      · rcases r3 with ⟨id, hv, hm⟩ | hv
        · exact .inl ⟨id, by simpa [probe, hs1, hs2] using hv, List.mem_append.2 (.inr hm)⟩
        · exact .inr ⟨.rdrsp, by simpa [probe, hs1, hs2] using hv⟩
    · refine ⟨e1 ++ e2, ?_, ?_, .inr ⟨site, by simp [probe, hs1, hs2]⟩⟩
      · simpa [probe, hs1, hs2] using h1.trans h2
      · simp only [List.length_append]; omega
  · exact ⟨e1, by simpa [probe, hs1] using h1, by omega, .inr ⟨site, by simp [probe, hs1]⟩⟩

/-- Step 5 writes both registers when the ID is 3, and nothing otherwise. -/
theorem applyId_eq (id : Byte) (s : State) :
    applyId id s = if id = Config.wheelId then configureWheel s else s := by
  by_cases h : id = Config.wheelId <;> simp [applyId, checkId, h]

/-- Steps 3 to 5: the environment's side moves, and either nothing else, or the wheel is configured and 3 was read. -/
theorem probeStep_spec (s : State) :
    ∃ ext, ext.length ≤ 7 * (2 * s.cfg.wLimit + s.cfg.rLimit + 3) + s.cfg.rLimit + 1 ∧
      (EnvOnly s (probeStep s) ext ∨
        EnvOnly (configureWheel s) (probeStep s) ext ∧ Access.rd s.cfg.portData Config.wheelId ∈ ext) := by
  obtain ⟨ext, he, hl, hr⟩ := probe_spec s
  refine ⟨ext, hl, ?_⟩
  rcases h : probe s with ⟨o, s1⟩
  rw [h] at he hr
  rcases hr with ⟨id, ho, hm⟩ | ⟨site, ho⟩ <;> simp only at he ho <;> subst ho
  · by_cases hid : id = Config.wheelId
    · refine .inr ⟨?_, hid ▸ hm⟩
      simp only [probeStep, h, applyId_eq, hid, if_true]
      unfold EnvOnly at *
      rw [he]; rfl
    · exact .inl (by simpa [probeStep, h, applyId_eq, hid] using he)
  · exact .inl (by simpa [probeStep, h] using he)

end Sys2Proof.Machine
end

