-- ==== Sys2Proof/Laws/Packet.lean ====
section
/-! SUPPORT. What DECODE and FEED can do, said once (42_assembler.md, 43_decoder.md). -/

namespace Sys2Proof.Machine

variable (s : State)

/-! ### The held registers -/

@[simp] theorem held_setHeld (b c : Button) (v : Bool) : (setHeld b v s).held c = if c = b then v else s.held c := by
  cases b <;> cases c <;> rfl

/-- The reported button differs from its flags bit. -/
theorem firstEdge_some {flags : Byte} {b : Button} (h : firstEdge flags s = some b) :
    buttonDown s.cfg flags b ≠ s.held b := by
  unfold firstEdge at h
  split_ifs at h <;> simp only [Option.some.injEq] at h <;> subst h <;> assumption

/-- No button is reported when none differs. -/
theorem firstEdge_none_iff {flags : Byte} : firstEdge flags s = none ↔ ∀ b, buttonDown s.cfg flags b = s.held b := by
  constructor
  · intro h b
    unfold firstEdge at h
    split_ifs at h
    cases b <;> simp_all [State.held]
  · intro h
    have hl := h .left; have hr := h .right; have hm := h .middle
    simp_all [firstEdge, State.held]

/-! ### DECODE -/

theorem decodeBody_edge {flags xb yb zb : Byte} {b : Button} (h : firstEdge flags s = some b) :
    decodeBody flags xb yb zb s =
      (setHeld b (buttonDown s.cfg flags b) (accumulate (deltaX flags xb) (deltaY flags yb) s),
        some (edgeEvent b (buttonDown s.cfg flags b))) := by
  simp [decodeBody, h]

theorem decodeBody_noEdge {flags xb yb zb : Byte} (h : firstEdge flags s = none) :
    decodeBody flags xb yb zb s =
      (accumulate (deltaX flags xb) (deltaY flags yb) s,
        (if s.wheelCapable then wheelEvent zb else none).or (moveEvent (deltaX flags xb) (deltaY flags yb))) := by
  simp only [decodeBody, h]
  split <;> simp_all

/-- DECODE leaves everything but the position and one held register. -/
theorem decodeBody_state (flags xb yb zb : Byte) :
    ∃ hl hr hm, (decodeBody flags xb yb zb s).1 =
      { s with
        posX := satAdd16 s.posX (deltaX flags xb), posY := satAdd16 s.posY (deltaY flags yb)
        heldL := hl, heldR := hr, heldM := hm } := by
  cases h : firstEdge flags s with
  | none => exact ⟨_, _, _, by rw [decodeBody_noEdge s h]; rfl⟩
  | some b => cases b <;> exact ⟨_, _, _, by rw [decodeBody_edge s h]; rfl⟩

/-! ### The packet classes and FEED -/

theorem execPkt3Drop_eq {f x y : Byte} (h : s.seq.mayDecode = true) :
    execPkt3Drop f x y s = .next (dropPacket s) := acceptPacket_of_mayDecode _ h

theorem execPkt4Drop_eq {f x y z : Byte} (h : s.seq.mayDecode = true) :
    execPkt4Drop f x y z s = .next (dropPacket s) := acceptPacket_of_mayDecode _ h

theorem execPkt3Exec_eq {f x y : Byte} (h : s.seq.mayDecode = true) :
    execPkt3Exec f x y s = .next (finishPacket (decodeBody f x y s.buf.b3 s)) := acceptPacket_of_mayDecode _ h

theorem execPkt4Exec_eq {f x y z : Byte} (h : s.seq.mayDecode = true) :
    execPkt4Exec f x y z s = .next (finishPacket (decodeBody f x y z s)) := acceptPacket_of_mayDecode _ h

/-- DECODE on the buffer is the decoded packet's meaning. -/
theorem runPacket_eq : runPacket s = exec s.packetInstr s := by
  unfold runPacket State.packetInstr decodeP3 decodeP4
  cases s.packetSize <;> cases framed s.buf.b0 <;> rfl

/-- What an accepted FEED does. -/
theorem execFeed_eq {b : Byte} (hq : s.seq = .idle) (hs : s.session ≠ .unconstructed) :
    execFeed b s =
      if s.lastSlot then exec (feedComplete b s).packetInstr (feedComplete b s) else .next (feedAccumulate b s) := by
  unfold execFeed
  rw [acceptRequest_of_ready _ hq hs]
  cases s.lastSlot <;> simp [runPacket_eq]

end Sys2Proof.Machine
end

