-- ==== Sys2Proof/Laws/PerInstr.lean ====
section
/-! SUPPORT. Statements made for each instruction: the encoding of an instruction has the length of its row of the opcode
table (11 bits take two bytes). -/

namespace Sys2Proof.Laws.EncodingWidth

/-- The bytes of the encoding are those the row's width needs. -/
def Statement (i : Instr) : Prop :=
  ∀ c, ∀ row ∈ opcodeTable c, row.mnemonic = i.mnemonic → (encode c i).length = (row.width + 7) / 8

/-- Row by row: only the instruction's own row has its mnemonic. -/
theorem of_rows {i : Instr} (h : ∀ c, (opcodeTable c).all (fun row =>
    row.mnemonic != i.mnemonic || (encode c i).length == (row.width + 7) / 8) = true) : Statement i := by
  intro c row hm hn
  have := List.all_eq_true.1 (h c) row hm
  simpa [hn] using this

/-- The comparison with each of the 18 rows. -/
theorem all (i : Instr) : Statement i := by
  refine of_rows fun _ => ?_
  cases i <;> simp [opcodeTable, Instr.mnemonic, encode, requestBytes]

theorem reset (a : Byte) : Statement (.reset a) := all _
theorem init (a : Byte) : Statement (.init a) := all _
theorem wrcmd (b : Byte) : Statement (.wrcmd b) := all _
theorem rdrsp (a : Byte) : Statement (.rdrsp a) := all _
theorem feed (b : Byte) : Statement (.feed b) := all _
theorem pkt3Drop (f x y : Byte) : Statement (.pkt3Drop f x y) := all _
theorem pkt3Exec (f x y : Byte) : Statement (.pkt3Exec f x y) := all _
theorem pkt4Drop (f x y z : Byte) : Statement (.pkt4Drop f x y z) := all _
theorem pkt4Exec (f x y z : Byte) : Statement (.pkt4Exec f x y z) := all _
theorem cEnableAux : Statement .cEnableAux := all _
theorem cFwdAux : Statement .cFwdAux := all _
theorem cSetDefaults : Statement .cSetDefaults := all _
theorem cSetRate : Statement .cSetRate := all _
theorem rate200 : Statement .rate200 := all _
theorem rate100 : Statement .rate100 := all _
theorem rate80 : Statement .rate80 := all _
theorem cGetId : Statement .cGetId := all _
theorem cEnableStream : Statement .cEnableStream := all _

end Sys2Proof.Laws.EncodingWidth
end

