-- ==== Sys2Proof/Laws/Step.lean ====
section
/-! SUPPORT. What the sequencer and a step can do, said once. -/

namespace Sys2Proof.Machine

/-! ### The sequencer keeps what no transport operation writes -/

/-- The parameters, the requests and every register a transport operation never writes are the same. -/
structure Keeps (s t : State) : Prop where
  cfg : t.cfg = s.cfg
  heldL : t.heldL = s.heldL
  heldR : t.heldR = s.heldR
  heldM : t.heldM = s.heldM
  posX : t.posX = s.posX
  posY : t.posY = s.posY
  buf : t.buf = s.buf
  idx : t.idx = s.idx
  requests : t.requests = s.requests

theorem Keeps.refl (s : State) : Keeps s s := ⟨rfl, rfl, rfl, rfl, rfl, rfl, rfl, rfl, rfl⟩

theorem Keeps.trans {s t u : State} (h : Keeps s t) (k : Keeps t u) : Keeps s u :=
  ⟨k.cfg.trans h.cfg, k.heldL.trans h.heldL, k.heldR.trans h.heldR, k.heldM.trans h.heldM, k.posX.trans h.posX,
    k.posY.trans h.posY, k.buf.trans h.buf, k.idx.trans h.idx, k.requests.trans h.requests⟩

variable (s : State)

theorem setSeq_keeps (q : Seq) : Keeps s (setSeq q s) := ⟨rfl, rfl, rfl, rfl, rfl, rfl, rfl, rfl, rfl⟩

theorem deliver_keeps (r : Result) : Keeps s (deliver r s) := ⟨rfl, rfl, rfl, rfl, rfl, rfl, rfl, rfl, rfl⟩

theorem endOp_keeps (r : Result) : Keeps s (endOp r s) := (deliver_keeps s r).trans (setSeq_keeps _ _)

theorem endTimeout_keeps (site : Site) : Keeps s (endTimeout site s) := (deliver_keeps s _).trans (setSeq_keeps _ _)

theorem readStatus_keeps : Keeps s (readStatus s).2 := by constructor <;> simp [readStatus]

theorem readData_keeps : Keeps s (readData s).2 := by constructor <;> simp [readData]

theorem writePort_keeps (p : Port) (b : Byte) : Keeps s (writePort p b s) := ⟨rfl, rfl, rfl, rfl, rfl, rfl, rfl, rfl, rfl⟩

theorem markConfigured_keeps : Keeps s (markConfigured s) := ⟨rfl, rfl, rfl, rfl, rfl, rfl, rfl, rfl, rfl⟩

theorem applyId_keeps (id : Byte) : Keeps s (applyId id s) := by
  rw [applyId_eq]; split
  · exact ⟨rfl, rfl, rfl, rfl, rfl, rfl, rfl, rfl, rfl⟩
  · exact Keeps.refl s

theorem toForward_keeps (b : Byte) (c : Caller) : Keeps s (toForward b c s) := setSeq_keeps s _

theorem beginStream_keeps : Keeps s (beginStream s) := by
  unfold beginStream; split
  · exact setSeq_keeps s _
  · split
    · exact toForward_keeps s _ _
    · exact endTimeout_keeps s _

theorem timeoutFor_keeps (c : Caller) (site : Site) : Keeps s (timeoutFor c site s) := by
  unfold timeoutFor; split <;> first | exact endTimeout_keeps s _ | exact beginStream_keeps s

theorem exhausted1_keeps (b : Byte) (c : Caller) : Keeps s (exhausted1 b c s) := by
  unfold exhausted1; split <;> first | exact toForward_keeps s _ _ | exact timeoutFor_keeps s _ _

theorem exhausted2_keeps (b : Byte) (c : Caller) : Keeps s (exhausted2 b c s) := by
  unfold exhausted2; split <;> first | exact setSeq_keeps s _ | exact timeoutFor_keeps s _ _

theorem exhaustedEnable_keeps : Keeps s (exhaustedEnable s) := by
  unfold exhaustedEnable; split <;> first | exact setSeq_keeps s _ | exact endTimeout_keeps s _

theorem beginWrite_keeps (b : Byte) (c : Caller) : Keeps s (beginWrite b c s) := by
  unfold beginWrite; split <;> first | exact setSeq_keeps s _ | exact exhausted1_keeps s _ _

theorem beginWait2_keeps (b : Byte) (c : Caller) : Keeps s (beginWait2 b c s) := by
  unfold beginWait2; split <;> first | exact setSeq_keeps s _ | exact exhausted2_keeps s _ _

theorem beginPoll_keeps (c : Caller) : Keeps s (beginPoll c s) := by
  unfold beginPoll; split <;> first | exact setSeq_keeps s _ | exact timeoutFor_keeps s _ _

theorem beginEnable_keeps : Keeps s (beginEnable s) := by
  unfold beginEnable; split <;> first | exact setSeq_keeps s _ | exact exhaustedEnable_keeps s

theorem respondedFor_keeps (c : Caller) (v : Byte) : Keeps s (respondedFor c v s) := by
  unfold respondedFor
  split <;> first
    | exact endOp_keeps s _
    | exact beginWrite_keeps s _ _
    | exact beginPoll_keeps s _
    | exact (applyId_keeps s v).trans (beginStream_keeps _)
    | exact (markConfigured_keeps s).trans (endOp_keeps _ _)

theorem afterWrite_keeps (k : AfterWrite) : Keeps s (afterWrite k s) := by
  unfold afterWrite
  split <;> first
    | exact setSeq_keeps s _
    | exact beginWrite_keeps s _ _
    | exact beginWait2_keeps s _ _
    | exact endOp_keeps s _
    | exact beginPoll_keeps s _

/-- One port access of an operation in progress writes no register but the configuration pair. -/
theorem microStep_keeps : Keeps s (microStep s) := by
  unfold microStep
  split
  · exact Keeps.refl s
  · exact Keeps.refl s
  · exact (writePort_keeps s _ _).trans (afterWrite_keeps _ _)
  · refine (readStatus_keeps s).trans ?_
    simp only; split_ifs <;> first | exact setSeq_keeps _ _ | exact exhaustedEnable_keeps _
  · refine (readStatus_keeps s).trans ?_
    simp only; split_ifs <;> first | exact setSeq_keeps _ _ | exact exhausted1_keeps _ _ _
  · refine (readStatus_keeps s).trans ?_
    simp only; split_ifs <;> first | exact setSeq_keeps _ _ | exact exhausted2_keeps _ _ _
  · refine (readStatus_keeps s).trans ?_
    simp only; split_ifs <;> first | exact setSeq_keeps _ _ | exact timeoutFor_keeps _ _ _
  · exact (readData_keeps s).trans (respondedFor_keeps _ _ _)

/-! ### A step -/

/-- Everything a step can do. -/
theorem step_cases {o : Host.Outcome State Fault Refusal} (h : step s = o) :
    (s.seq = .idle ∧ s.requests = [] ∧ o = .next s) ∨
      (∃ w rest i, s.seq = .idle ∧ s.requests = w :: rest ∧ decodeRequest w = .ok i ∧ o = exec i (setRequests rest s)) ∨
      (∃ w rest e, s.seq = .idle ∧ s.requests = w :: rest ∧ decodeRequest w = .error e ∧ o = .refused .reservedRequest) ∨
      (s.seq = .decode ∧ o = exec s.packetInstr s) ∨
      (s.seq.mayDecode = false ∧ o = .next (microStep s)) := by
  subst h
  unfold step
  cases hq : s.seq with
  | idle =>
    cases hr : s.requests with
    | nil => simp
    | cons w rest => cases hd : decodeRequest w <;> simp [hd]
  | decode => simp
  | enableWait cnt => simp [Seq.mayDecode]
  | emit p b k => simp [Seq.mayDecode]
  | wait1 cnt b c => simp [Seq.mayDecode]
  | wait2 cnt b c => simp [Seq.mayDecode]
  | poll cnt c => simp [Seq.mayDecode]
  | dataRead c => simp [Seq.mayDecode]

end Sys2Proof.Machine
end

