-- ==== Sys2Proof/Tests/Slice0.lean ====
section
/-! SUPPORT. Tests of one step on small states, their expected results taken from the vectors of 95_test_vectors.md (named in
each comment) and from the spec's encodings; ill-formed terms the checks refuse; and, for each obligation with hypotheses, a
state and operands that meet them. -/

namespace Sys2Proof.Tests

open Sys2Proof.Machine Sys2Proof.Claims

/-! ### States of the tests -/

/-- The parameters of the vectors: the defaults, `W_LIMIT` = 3, `R_LIMIT` = 4. -/
def small : Config := Config.standard 3 4
/-- The same under `WR_EXHAUST` = timeout. -/
def strict : Config := { small with wrExhaust := .timeout }
/-- The reset state. -/
def start : State := State.resetWith small
/-- The vectors' `(0,0,0; 0,0; 1,4; 0)`. -/
def wheelStart : State := { start with wheelCapable := true, packetSize := .four }
/-- The reset state under the parameters `c`, with the answers to the next reads. -/
def scripted (c : Config) (answers : List Byte) : State := { State.resetWith c with script := answers }
/-- Before any RESET. -/
def raw : State := { start with session := .unconstructed }
/-- An observation. -/
def obs (l r m : Bool) (x y : I16) (wheel : Bool) (size : PacketSize) (idx : Fin 4) : Observation :=
  ⟨l, r, m, x, y, wheel, size, idx⟩

/-- The answers of vector I1, with the device ID `id`. -/
def favourable (id : Byte) : List Byte := idealScript (fun _ => 0x00) (fun _ => 0x21) (fun _ => 0xFA) id

/-- The outcome is a next state with these results, accesses and observation outputs. -/
def ends (o : Host.Outcome State Fault Refusal) (results : List Result) (history : List Access) (observed : Observation) :
    Bool :=
  match o with
  | .next t => t.results == results && t.history == history && t.observe == observed
  | .fault _ => false
  | .refused _ => false

/-- The outcome is a next state with this result and these observation outputs, after so many accesses, the writes to the
data port being these. -/
def endsInit (o : Host.Outcome State Fault Refusal) (result : Result) (observed : Observation) (accesses : Nat)
    (dataWrites : List Byte) : Bool :=
  match o with
  | .next t =>
    t.results == [result] && t.observe == observed && t.history.length == accesses &&
      (t.history.filterMap fun a =>
        match a with
        | .wr p v => if p = 0x60 then some v else none
        | .rd _ _ => none) == dataWrites
  | .fault _ => false
  | .refused _ => false

/-- The outcome is this refusal. -/
def refusedAs (r : Refusal) (o : Host.Outcome State Fault Refusal) : Bool :=
  match o with
  | .next _ => false
  | .fault _ => false
  | .refused q => q == r

/-! ### WellFormed refuses ill-formed terms (30_encoding.md rule R62) -/

theorem test_wf_drop3_needs_clear_bit : (Instr.pkt3Drop 0x08 0 0).wf = false := by decide
theorem test_wf_exec3_needs_set_bit : (Instr.pkt3Exec 0xF7 0 0).wf = false := by decide
theorem test_wf_drop4_needs_clear_bit : (Instr.pkt4Drop 0xFF 1 2 3).wf = false := by decide
theorem test_wf_exec4_needs_set_bit : (Instr.pkt4Exec 0x07 1 2 3).wf = false := by decide

/-! ### Decoding: words written out from rules R51, R53, R54 and R58 -/

theorem test_decode_reset : decodeTableWord 11 0b000_10110010 = some (.reset 0xB2) := by decide
theorem test_decode_init : decodeTableWord 11 0b001_00000001 = some (.init 0x01) := by decide
theorem test_decode_wrcmd : decodeTableWord 11 0b010_11110100 = some (.wrcmd 0xF4) := by decide
theorem test_decode_rdrsp : decodeTableWord 11 0b011_10000000 = some (.rdrsp 0x80) := by decide
theorem test_decode_feed : decodeTableWord 11 0b100_00001001 = some (.feed 0x09) := by decide
theorem test_decode_reserved : decodeTableWord 11 0b101_00000000 = none ∧ decodeTableWord 11 0b110_11111111 = none ∧
    decodeTableWord 11 0b111_00000000 = none := by decide
/-- `yyyyyyyy xxxxxxxx VUTSFMRL`. -/
theorem test_decode_pkt3Drop : decodeTableWord 24 0b01111111_01111110_11110111 = some (.pkt3Drop 0xF7 0x7E 0x7F) := by
  decide
theorem test_decode_pkt3Exec : decodeTableWord 24 0b00000000_00000101_00001001 = some (.pkt3Exec 0x09 0x05 0x00) := by
  decide
/-- `zzzzzzzz yyyyyyyy xxxxxxxx VUTSFMRL`. -/
theorem test_decode_pkt4Drop : decodeTableWord 32 0b00000001_00000010_00000011_00000000 =
    some (.pkt4Drop 0x00 0x03 0x02 0x01) := by decide
theorem test_decode_pkt4Exec : decodeTableWord 32 0b11111111_00000001_00000000_00101000 =
    some (.pkt4Exec 0x28 0x00 0x01 0xFF) := by decide
theorem test_decode_cEnableAux : decodeTableWord 8 0b10101000 = some .cEnableAux := by decide
theorem test_decode_cFwdAux : decodeTableWord 8 0b11010100 = some .cFwdAux := by decide
theorem test_decode_cSetDefaults : decodeTableWord 8 0b11110110 = some .cSetDefaults := by decide
theorem test_decode_cSetRate : decodeTableWord 8 0b11110011 = some .cSetRate := by decide
theorem test_decode_rate200 : decodeTableWord 8 0b11001000 = some .rate200 := by decide
theorem test_decode_rate100 : decodeTableWord 8 0b01100100 = some .rate100 := by decide
theorem test_decode_rate80 : decodeTableWord 8 0b01010000 = some .rate80 := by decide
theorem test_decode_cGetId : decodeTableWord 8 0b11110010 = some .cGetId := by decide
theorem test_decode_cEnableStream : decodeTableWord 8 0b11110100 = some .cEnableStream := by decide
theorem test_decode_rejects : decode small [0xAA] = .error .noSuchCommand ∧
    decode small [0x00, 0x08] = .error .requestTooWide ∧ decode small [] = .error .noSuchLength ∧
    decode small [1, 2, 3, 4, 5] = .error .noSuchLength := by decide

/-- No word is in two rows of one width. -/
theorem test_rows_disjoint : (opcodeTable small).Pairwise fun r q =>
    r.width ≠ q.width ∨ r.mask &&& q.mask &&& (r.pattern ^^^ q.pattern) ≠ 0 := by decide

/-! ### Format OP -/

/-- Vector I0. -/
theorem test_reset_clears : ends
    (exec (.reset 0)
      { start with heldL := true, heldR := true, posX := -7, posY := 300, wheelCapable := true, packetSize := .four
                   idx := 2 })
    [] [] (obs false false false 0 0 false .three 0) = true := by decide

/-- Vector I1: the wheel is found. -/
theorem test_init_finds_wheel : endsInit (exec (.init 0) (scripted small (favourable 0x03)))
    .ok (obs false false false 0 0 true .four 0) 58 [0xF6, 0xF3, 0xC8, 0xF3, 0x64, 0xF3, 0x50, 0xF2, 0xF4] = true := by
  decide

/-- Vector I12: a write-side Timeout inside the probe is swallowed. -/
theorem test_init_swallows_probe_timeout : endsInit
    (exec (.init 0) (scripted strict ([0x00] ++ sendScript 0x00 0x00 0x21 0xFA ++ [0x02, 0x02, 0x02] ++
      sendScript 0x00 0x00 0x21 0xFA)))
    .ok (obs false false false 0 0 false .three 0) 17 [0xF6, 0xF4] = true := by decide

/-- Vector T5: the second wait is exhausted under `timeout`. -/
theorem test_wrcmd_second_wait : ends (exec (.wrcmd 0xF4) (scripted strict [0x00, 0x02, 0x02, 0x02]))
    [.err (.timeout .wrcmdWait2)]
    [.rd 0x64 0x00, .wr 0x64 0xD4, .rd 0x64 0x02, .rd 0x64 0x02, .rd 0x64 0x02] start.observe = true := by decide

/-- Vector T9: only IBF is looked at; a payload equal to a command is sent like any other. -/
theorem test_wrcmd_ignores_other_bits : ends (exec (.wrcmd 0xD4) (scripted small [0xFD, 0x00])) [.ok]
    [.rd 0x64 0xFD, .wr 0x64 0xD4, .rd 0x64 0x00, .wr 0x60 0xD4] start.observe = true := by decide

/-- Vector T11: success on the last read of the budget; one bit alone is no success. -/
theorem test_rdrsp_last_read : ends (exec (.rdrsp 0) (scripted small [0x00, 0x01, 0x20, 0x21, 0x00])) [.okByte 0x00]
    [.rd 0x64 0x00, .rd 0x64 0x01, .rd 0x64 0x20, .rd 0x64 0x21, .rd 0x60 0x00] start.observe = true := by decide

/-- Vector T13: a keyboard byte is not taken. -/
theorem test_rdrsp_keyboard_byte : ends (exec (.rdrsp 0) (scripted small [0x01, 0x01, 0x01, 0x01, 0x99]))
    [.err (.timeout .rdrsp)] [.rd 0x64 0x01, .rd 0x64 0x01, .rd 0x64 0x01, .rd 0x64 0x01] start.observe = true := by
  decide

/-- Vector F3. -/
theorem test_feed_stores_any_byte : ends (exec (.feed 0xFF) start) [.event none] []
    (obs false false false 0 0 false .three 1) = true := by decide

/-- Vector F4. -/
theorem test_feed_completes : ends (exec (.feed 0x02) { start with idx := 2, buf := ⟨0x08, 0x01, 0xEE, 0xEE⟩ })
    [.event (some (.move 1 (-2)))] [] (obs false false false 1 (-2) false .three 0) = true := by decide

/-! ### The packet classes -/

/-- Rule R130's example. -/
theorem test_pkt3Drop_changes_nothing : ends (exec (.pkt3Drop 0x01 0x7F 0x7F) start) [.event none] [] start.observe = true := by
  decide

/-- Vector A8 with the release of vector B11 in one packet: flags 0x1E, x sign set, left released before right and middle. -/
theorem test_pkt3Exec_release_and_saturation : ends
    (exec (.pkt3Exec 0x1E 0x00 0x00) { start with heldL := true, posX := -32600, posY := 5 })
    [.event (some (.buttonReleased .left))] [] (obs false false false (-32768) 5 false .three 0) = true := by decide

/-- Vector E7: the one delta of magnitude 256 on the positive side. -/
theorem test_pkt3Exec_negates_y : ends (exec (.pkt3Exec 0x28 0x00 0x00) start) [.event (some (.move 0 256))] []
    (obs false false false 0 256 false .three 0) = true := by decide

/-- Vector W6. -/
theorem test_pkt4Drop_ignores_wheel : ends (exec (.pkt4Drop 0x00 0 0 0x01) wheelStart) [.event none] [] wheelStart.observe
    = true := by decide

/-- Vector W9. -/
theorem test_pkt4Exec_wheel_outranks_move : ends (exec (.pkt4Exec 0x28 0x00 0x01 0xFF) wheelStart)
    [.event (some .wheelDown)] [] (obs false false false 0 255 true .four 0) = true := by decide

/-- Vector B14. -/
theorem test_pkt4Exec_button_outranks_wheel : ends (exec (.pkt4Exec 0x0D 0 0 0x05) { wheelStart with heldL := true })
    [.event (some (.buttonPressed .middle))] [] (obs true false true 0 0 true .four 0) = true := by decide

/-! ### Format CMD: rule R58's columns "value" and "written to" -/

theorem test_cEnableAux : ends (exec .cEnableAux start) [] [.wr 0x64 0xA8] start.observe = true := by decide
theorem test_cFwdAux : ends (exec .cFwdAux start) [] [.wr 0x64 0xD4] start.observe = true := by decide
theorem test_cSetDefaults : ends (exec .cSetDefaults start) [] [.wr 0x60 0xF6] start.observe = true := by decide
theorem test_cSetRate : ends (exec .cSetRate start) [] [.wr 0x60 0xF3] start.observe = true := by decide
theorem test_rate200 : ends (exec .rate200 start) [] [.wr 0x60 0xC8] start.observe = true := by decide
theorem test_rate100 : ends (exec .rate100 start) [] [.wr 0x60 0x64] start.observe = true := by decide
theorem test_rate80 : ends (exec .rate80 start) [] [.wr 0x60 0x50] start.observe = true := by decide
theorem test_cGetId : ends (exec .cGetId start) [] [.wr 0x60 0xF2] start.observe = true := by decide
theorem test_cEnableStream : ends (exec .cEnableStream start) [] [.wr 0x60 0xF4] start.observe = true := by decide

/-! ### A step, the four formats fetched, the refusals, the outputs -/

theorem test_step_request : ends (step (start.withFetchWord 11 0x4FF)) [.event none] []
    (obs false false false 0 0 false .three 1) = true := by decide
theorem test_step_packet : ends (step (start.withFetchWord 32 0x01000008)) [.event (some .wheelUp)] []
    (obs false false false 0 0 true .four 0) = true := by decide
theorem test_step_emitted : ends (step (start.withFetchWord 8 0xD4)) [] [.wr 0x64 0xD4] start.observe = true := by decide
theorem test_step_reserved : refusedAs .reservedRequest (step (start.withFetchWord 11 0x7FF)) = true := by decide
theorem test_step_waits : step start = .next start := rfl

/-- Vector I14. -/
theorem test_init_after_init : refusedAs .initAfterInit (exec (.init 0) { start with session := .configured }) = true := by
  decide
theorem test_before_reset : refusedAs .beforeReset (exec (.feed 0x08) raw) = true := by decide
theorem test_overlap : refusedAs .overlappingRequest (exec (.feed 0x08) { start with seq := .poll 0 .host }) = true := by
  decide

/-- Rule R68. -/
theorem test_event_port : eventPort (some (.buttonReleased .middle)) = ⟨1, 2, 2, 0, 0⟩ := by decide
/-- Vector T1's textual form of an access. -/
theorem test_access_text : accessText small (.wr 0x60 0xF4) = "Wr(DA,0xF4)" := by decide

/-- The first port access of a WRCMD taken on its own (40_transport.md rule R89): W1 with IBF set leads to W1 again. -/
theorem test_micro_wait : ∀ s1, beginWrcmd 0xF4 (scripted small [0x02]) = .next s1 →
    (microStep s1).seq = .wait1 1 0xF4 .host := by
  intro s1 h
  obtain rfl : beginWrite 0xF4 .host (scripted small [0x02]) = s1 := by simpa [beginWrcmd, acceptRequest, scripted,
    State.resetWith, Seq.isIdle] using h
  decide

/-! ### Witnesses: states and operands that meet the hypotheses of each obligation -/

/-- A 3-byte packet one byte short of complete, its framing bit set. -/
def last3 : State := { start with idx := 2, buf := ⟨0x08, 0x01, 0, 0⟩ }
/-- A 4-byte packet one byte short of complete. -/
def last4 : State := { wheelStart with idx := 3, buf := ⟨0x08, 0x01, 0x02, 0⟩ }

theorem start_ready : Ready start := ⟨rfl, by decide⟩
theorem last3_ready : Ready last3 := ⟨rfl, by decide⟩
theorem last4_ready : Ready last4 := ⟨rfl, by decide⟩

theorem witness_DecodeOfEncode : small.cmdDistinct = true ∧ (Instr.feed 0xFF).wf = true ∧
    (Instr.pkt3Drop 0xF7 0 0xFF).wf = true ∧ (Instr.pkt4Exec 0xFF 0x80 0 0x7F).wf = true ∧ Instr.cGetId.wf = true := by
  decide
theorem witness_EncodeOfDecode : decode small [0xF4] = .ok .cEnableStream ∧ decode small [0xFF, 0x04] = .ok (.feed 0xFF) ∧
    decode small [0x07, 0, 0] = .ok (.pkt3Drop 0x07 0 0) ∧ decode small [0x08, 0, 0, 1] = .ok (.pkt4Exec 0x08 0 0 1) := by
  decide
theorem witness_OpcodeRows : small.cmdDistinct = true ∧ OpcodeRow.mk "FEED" 11 0x700 0x400 ∈ opcodeTable small ∧
    0x4FF < 2 ^ 11 ∧ (OpcodeRow.mk "FEED" 11 0x700 0x400).matches 11 0x4FF = true := by decide

/-- The first clause: a request waits; the second: none does. -/
theorem witness_StepRunsTheDecodedRequest :
    ({ start with requests := [0x4FF, 0x100] }).seq = .idle ∧
    ({ start with requests := [0x4FF, 0x100] }).requests = 0x4FF :: [0x100] ∧ decodeRequest 0x4FF = .ok (.feed 0xFF) ∧
    start.seq = .idle ∧ start.requests = [] := by decide
theorem witness_StepRunsTheDecodedPacket :
    ({ start with seq := .decode }).seq = .decode ∧ ({ start with seq := .decode }).packetSize = .three ∧
    ({ wheelStart with seq := .decode }).seq = .decode ∧ ({ wheelStart with seq := .decode }).packetSize = .four := by
  decide
/-- A write to either port. -/
theorem witness_StepRunsTheEmittedByte :
    ({ start with seq := .emit .stcmd 0xD4 (.forwarded 1 .host) }).seq = .emit .stcmd 0xD4 (.forwarded 1 .host) ∧
    emission start.cfg .cFwdAux = some (.stcmd, 0xD4) ∧
    ({ start with seq := .emit .data 80 (.sent .host) }).seq = .emit .data 80 (.sent .host) ∧
    emission start.cfg .rate80 = some (.data, 80) := by decide

/-- `op` 5 and `op` 7, the ends of the reserved range. -/
theorem witness_ReservedRequests :
    ({ start with requests := [0x500] }).seq = .idle ∧ ({ start with requests := [0x500] }).requests = 0x500 :: [] ∧
    5 ≤ ((0x500 : ReqWord).extractLsb' 8 3).toNat ∧ ({ start with requests := [0x7FF] }).requests = 0x7FF :: [] ∧
    5 ≤ ((0x7FF : ReqWord).extractLsb' 8 3).toNat := by decide
/-- Its third clause. -/
theorem witness_ForwardedByte : ∃ t, exec (.wrcmd 0xFF) (scripted small [0, 0]) = .next t ∧
    t.results = (scripted small [0, 0]).results ++ [.ok] := ⟨_, rfl, rfl⟩

theorem witness_Refusals : (Instr.feed 0).isRequest = true ∧ ({ start with seq := .decode }).seq ≠ .idle ∧
    raw.seq = .idle ∧ raw.session = .unconstructed ∧ ({ start with session := .configured }).seq = .idle ∧
    ({ start with session := .configured }).session = .configured := by decide
/-- RESET before the first RESET, INIT, and WRCMD after an INIT that returned `Ok`. -/
theorem witness_RequestsComplete : (Instr.reset 0).isRequest = true ∧ (Instr.init 0).isRequest = true ∧
    (Instr.wrcmd 0).isRequest = true ∧ raw.seq = .idle ∧ start.seq = .idle ∧ start.session = .ready ∧
    ({ start with session := .configured }).session ≠ .unconstructed := by decide
theorem witness_ResetGivesTheResetState : raw.seq = .idle ∧ last4.seq = .idle := ⟨rfl, rfl⟩

/-- The first and the last index that accumulates, in both modes. -/
theorem witness_FeedAccumulates : Ready start ∧ start.idx.val < start.packetSize.len - 1 ∧
    Ready { start with idx := 1 } ∧ ({ start with idx := 1 }).idx.val < ({ start with idx := 1 }).packetSize.len - 1 ∧
    Ready { wheelStart with idx := 2 } ∧
    ({ wheelStart with idx := 2 }).idx.val < ({ wheelStart with idx := 2 }).packetSize.len - 1 :=
  ⟨start_ready, by decide, ⟨rfl, by decide⟩, by decide, ⟨rfl, by decide⟩, by decide⟩
theorem witness_FeedCompletes : Ready last3 ∧ last3.idx.val = last3.packetSize.len - 1 ∧ Ready last4 ∧
    last4.idx.val = last4.packetSize.len - 1 := ⟨last3_ready, by decide, last4_ready, by decide⟩
/-- A whole packet, and the last byte of one. -/
theorem witness_PacketAssembly : Ready start ∧ start.idx.val < start.packetSize.len ∧
    [(0x08 : Byte), 0, 0].length = start.packetSize.len - start.idx.val ∧ Ready last4 ∧
    last4.idx.val < last4.packetSize.len ∧ [(0xFF : Byte)].length = last4.packetSize.len - last4.idx.val :=
  ⟨start_ready, by decide, by decide, last4_ready, by decide, by decide⟩
theorem witness_MalformedPacket : start.seq.mayDecode = true ∧ ({ start with seq := .decode }).seq.mayDecode = true ∧
    Ready { last3 with buf := ⟨0xF7, 0, 0, 0⟩ } ∧
    ({ last3 with buf := ⟨0xF7, 0, 0, 0⟩ }).idx.val = ({ last3 with buf := ⟨0xF7, 0, 0, 0⟩ }).packetSize.len - 1 ∧
    ({ last3 with buf := ⟨0xF7, 0, 0, 0⟩ }).buf.b0.getLsbD 3 = false :=
  ⟨rfl, rfl, ⟨rfl, by decide⟩, by decide, by decide⟩
/-- The ends of the range. -/
theorem witness_NineBitDelta : (-256 : Int) ≤ -256 ∧ (-256 : Int) ≤ 255 ∧ (-256 : Int) ≤ 255 ∧ (255 : Int) ≤ 255 := by decide
theorem witness_PositionsSaturate : last3.seq.mayDecode = true ∧
    (Instr.pkt4Exec 0x18 0 0 0 = .pkt3Exec 0x18 0 0 ∨ Instr.pkt4Exec 0x18 0 0 0 = .pkt4Exec 0x18 0 0 0) :=
  ⟨rfl, .inr rfl⟩
theorem witness_LeftEdge : start.seq.mayDecode = true ∧ (0x09 : Byte).getLsbD 0 ≠ start.heldL ∧
    (0x08 : Byte).getLsbD 0 ≠ ({ start with heldL := true }).heldL := by decide
theorem witness_RightEdge : start.seq.mayDecode = true ∧ (0x0A : Byte).getLsbD 0 = start.heldL ∧
    (0x0A : Byte).getLsbD start.cfg.btnRBit.val ≠ start.heldR := by decide
theorem witness_MiddleEdge : start.seq.mayDecode = true ∧ (0x0C : Byte).getLsbD 0 = start.heldL ∧
    (0x0C : Byte).getLsbD start.cfg.btnRBit.val = start.heldR ∧ (0x0C : Byte).getLsbD start.cfg.btnMBit.val ≠ start.heldM := by
  decide
/-- Wheel bytes at the ends of the two ranges. -/
theorem witness_WheelStep : wheelStart.seq.mayDecode = true ∧ NoEdge 0x08 wheelStart ∧ wheelStart.wheelCapable = true ∧
    0x01 ≤ (0x01 : Byte).toNat ∧ (0x7F : Byte).toNat ≤ 0x7F ∧ 0x80 ≤ (0x80 : Byte).toNat ∧ ¬0x01 ≤ (0x00 : Byte).toNat ∧
    start.wheelCapable = false :=
  ⟨rfl, ⟨by decide, by decide, by decide⟩, rfl, by decide, by decide, by decide, by decide, rfl⟩
theorem witness_Move : wheelStart.seq.mayDecode = true ∧ NoEdge 0x28 wheelStart ∧
    (wheelStart.wheelCapable = true → wheelStart.buf.b3 = 0 ∧ (0 : Byte) = 0) ∧
    (deltaX 0x28 0 ≠ 0 ∨ deltaY 0x28 0 ≠ 0) :=
  ⟨rfl, ⟨by decide, by decide, by decide⟩, fun _ => ⟨rfl, rfl⟩, by decide⟩
theorem witness_QuietPacket : start.seq.mayDecode = true ∧ NoEdge 0x08 start ∧
    (start.wheelCapable = true → start.buf.b3 = 0 ∧ (0xFF : Byte) = 0) ∧ deltaX 0x08 0 = 0 ∧ deltaY 0x08 0 = 0 :=
  ⟨rfl, ⟨by decide, by decide, by decide⟩, fun h => (by cases h), by decide, by decide⟩
/-- A 3-byte packet and a 4-byte one. -/
theorem witness_SimultaneousEdges : execWithFlags 0x0F (.pkt3Exec 0x0F 1 2) ∧ execWithFlags 0x0F (.pkt4Exec 0x0F 0 0 1) ∧
    start.seq.mayDecode = true ∧ ∀ b, buttonDown start.cfg 0x0F b ≠ start.held b :=
  ⟨⟨1, 2, 0, .inl rfl⟩, ⟨0, 0, 1, .inr rfl⟩, rfl, fun b => by cases b <;> decide⟩

theorem witness_HeldChanges : isPacket (.pkt3Exec 0x09 0 0) = true ∧ ∃ t, exec (.pkt3Exec 0x09 0 0) start = .next t :=
  ⟨rfl, _, rfl⟩
theorem witness_ButtonEventsAlternate : (∀ i ∈ [Instr.pkt3Exec 0x09 0 0, .pkt3Exec 0x08 0 0, .pkt3Exec 0x09 0 0],
      ∀ a, i ≠ .reset a) ∧
    ∃ t, execAll [.pkt3Exec 0x09 0 0, .pkt3Exec 0x08 0 0, .pkt3Exec 0x09 0 0] start = .next t :=
  ⟨by simp, _, rfl⟩
/-- A wheel event, and a Move at the end of its range. -/
theorem witness_EventsAreLawful :
    (∃ t, exec (.pkt4Exec 0x08 0 0 0x01) wheelStart = .next t ∧
      t.results = wheelStart.results ++ [.event (some .wheelUp)]) ∧
    ∃ t, exec (.pkt3Exec 0x38 0 0) start = .next t ∧ t.results = start.results ++ [.event (some (.move (-256) 256))] :=
  ⟨⟨_, rfl, by decide⟩, _, rfl, by decide⟩
theorem witness_WheelByteUnseen : start.wheelCapable = false ∧ ∃ t, exec (.pkt3Exec 0x08 1 1) start = .next t :=
  ⟨rfl, _, rfl⟩
theorem witness_OverflowBits : start.cfg.btnRBit.val < 6 ∧ start.cfg.btnMBit.val < 6 ∧
    (0xC8 : Byte) &&& 0x3F = 0x08 &&& 0x3F := by decide
theorem witness_RepeatedMaximumDelta : start.seq.mayDecode = true := rfl

/-- The wait ends at its last read; and it is exhausted, with a budget and with none. -/
theorem witness_WaitInputClear :
    (let s := scripted small [0x02, 0x02, 0x00];
      2 < s.cfg.wLimit ∧ (∀ j < 2, (s.answer j).getLsbD s.cfg.stIbf.val = true) ∧
        (s.answer 2).getLsbD s.cfg.stIbf.val = false) ∧
    (let s := scripted small [0x02, 0x02, 0x02];
      ∀ j < s.cfg.wLimit, (s.answer j).getLsbD s.cfg.stIbf.val = true) ∧
    (let s := scripted (Config.standard 0 0) [];
      ∀ j < s.cfg.wLimit, (s.answer j).getLsbD s.cfg.stIbf.val = true) :=
  ⟨by decide, by decide, fun j h => absurd h (Nat.not_lt_zero j)⟩
/-- Each of the three endings. -/
theorem witness_Wrcmd : Ready (scripted small []) ∧ (scripted small []).cfg.wrExhaust = .proceed ∧
    Ready (scripted strict [0x00, 0x00]) ∧
    (let s := scripted strict [0x00, 0x00];
      waitClears s s.cfg.wLimit 0 = true ∧ waitClears s s.cfg.wLimit (waitReads s s.cfg.wLimit 0) = true) ∧
    (let s := scripted strict [0x02, 0x02, 0x02];
      s.cfg.wrExhaust = .timeout ∧ waitClears s s.cfg.wLimit 0 = false) ∧
    (let s := scripted strict [0x00, 0x02, 0x02, 0x02];
      s.cfg.wrExhaust = .timeout ∧ waitClears s s.cfg.wLimit 0 = true ∧
        waitClears s s.cfg.wLimit (waitReads s s.cfg.wLimit 0) = false) :=
  ⟨⟨rfl, by decide⟩, rfl, ⟨rfl, by decide⟩, by decide, by decide, by decide⟩
/-- Success at the last read of the budget; none; and no budget. -/
theorem witness_Rdrsp : Ready (scripted small []) ∧
    (let s := scripted small [0x00, 0x01, 0x20, 0x21, 0x00];
      3 < s.cfg.rLimit ∧ (∀ j < 3, mouseByte s (s.answer j) = false) ∧ mouseByte s (s.answer 3) = true) ∧
    (let s := scripted small [0x01, 0x01, 0x01, 0x01];
      ∀ j < s.cfg.rLimit, mouseByte s (s.answer j) = false) ∧
    (let s := scripted (Config.standard 0 0) [];
      ∀ j < s.cfg.rLimit, mouseByte s (s.answer j) = false) :=
  ⟨⟨rfl, by decide⟩, by decide, by decide, fun j h => absurd h (Nat.not_lt_zero j)⟩
theorem witness_Send : Ready (scripted small [0x00, 0x00, 0x21, 0xFA]) := ⟨rfl, by decide⟩
/-- Each of the three operations. -/
theorem witness_TransportIgnoresTheRegisters :
    ((∃ b, Instr.wrcmd 0x12 = .wrcmd b) ∧ ∃ t, exec (.wrcmd 0x12) (scripted small [0x00, 0x00]) = .next t) ∧
    ((∃ a, Instr.rdrsp 0 = .rdrsp a) ∧ ∃ t, exec (.rdrsp 0) (scripted small [0x21, 0xFA]) = .next t) ∧
    ((∃ a, Instr.init 0 = .init a) ∧ ∃ t, exec (.init 0) (scripted small (favourable 0x03)) = .next t) :=
  ⟨⟨⟨_, rfl⟩, _, rfl⟩, ⟨⟨_, rfl⟩, _, rfl⟩, ⟨_, rfl⟩, _, rfl⟩

theorem witness_InitCompletes : start.seq = .idle ∧ start.session = .ready := ⟨rfl, rfl⟩
/-- A device with ID 3; and one without, whose status and acknowledgment bytes differ from read to read. -/
theorem witness_InitIdealRun :
    (let s := scripted small (favourable 0x03 ++ [0x55]);
      s.seq = .idle ∧ s.session = .ready ∧ 0 < s.cfg.wLimit ∧ 0 < s.cfg.rLimit ∧
        (∀ n < 19, (0x00 : Byte).getLsbD s.cfg.stIbf.val = false) ∧ (∀ n < 10, mouseByte s 0x21 = true) ∧
        s.script = idealScript (fun _ => 0x00) (fun _ => 0x21) (fun _ => 0xFA) 0x03 ++ [0x55]) ∧
    (let clear : Nat → Byte := fun n => if n % 2 = 0 then 0xFD else BitVec.ofNat 8 (4 * n);
      let ready : Nat → Byte := fun n => if n % 2 = 0 then 0xFF else 0x21;
      let ack : Nat → Byte := BitVec.ofNat 8;
      let s := scripted small (idealScript clear ready ack 0x04 ++ []);
      s.seq = .idle ∧ s.session = .ready ∧ 0 < s.cfg.wLimit ∧ 0 < s.cfg.rLimit ∧
        (∀ n < 19, (clear n).getLsbD s.cfg.stIbf.val = false) ∧ (∀ n < 10, mouseByte s (ready n) = true) ∧
        s.script = idealScript clear ready ack 0x04 ++ []) := by decide
theorem witness_WheelNeedsDeviceIdThree : ∃ t, exec (.init 0) (scripted small (favourable 0x03)) = .next t ∧
    (scripted small (favourable 0x03)).wheelCapable = false ∧ t.wheelCapable = true :=
  ⟨_, rfl, rfl, by decide⟩
/-- The numbers of status reads of INIT's first three waits. -/
def initWaits (s : State) : Nat × Nat × Nat :=
  let j1 := waitReads s s.cfg.wLimit 0
  let j2 := waitReads s s.cfg.wLimit j1
  (j1, j2, waitReads s s.cfg.wLimit (j1 + j2))
/-- Vector I7; the two exhausted waits of set-defaults; vector I3 under both values of `WR_EXHAUST`. -/
theorem witness_SilentMouse :
    (let s := scripted strict [0x02, 0x02, 0x02];
      s.seq = .idle ∧ s.session = .ready ∧ s.cfg.wrExhaust = .timeout ∧ waitClears s s.cfg.wLimit 0 = false) ∧
    (let s := scripted strict [0x00, 0x02, 0x02, 0x02];
      s.cfg.wrExhaust = .timeout ∧ waitClears s s.cfg.wLimit 0 = true ∧
        waitClears s s.cfg.wLimit (initWaits s).1 = false) ∧
    (let s := scripted strict [0x00, 0x00, 0x02, 0x02, 0x02];
      s.cfg.wrExhaust = .timeout ∧ waitClears s s.cfg.wLimit 0 = true ∧
        waitClears s s.cfg.wLimit (initWaits s).1 = true ∧
        waitClears s s.cfg.wLimit ((initWaits s).1 + (initWaits s).2.1) = false) ∧
    (let s := scripted small [0x00, 0x00, 0x00, 0x00, 0x00, 0x00, 0x00];
      s.cfg.wrExhaust = .proceed ∧ ∀ n < s.cfg.rLimit,
        mouseByte s (s.answer ((initWaits s).1 + (initWaits s).2.1 + (initWaits s).2.2 + n)) = false) ∧
    (let s := scripted strict [0x00, 0x00, 0x00, 0x01, 0x01, 0x01, 0x01];
      (waitClears s s.cfg.wLimit 0 = true ∧ waitClears s s.cfg.wLimit (initWaits s).1 = true ∧
        waitClears s s.cfg.wLimit ((initWaits s).1 + (initWaits s).2.1) = true) ∧ ∀ n < s.cfg.rLimit,
        mouseByte s (s.answer ((initWaits s).1 + (initWaits s).2.1 + (initWaits s).2.2 + n)) = false) := by decide
theorem witness_ProbeOutcome : ∃ s1 s2,
    let s := scripted small (favourable 0x03);
    s.seq = .idle ∧ s.session = .ready ∧ enablePort s = (.ok (), s1) ∧
      sendMandatory .initSetDefaults s1.cfg.cSetDefaults s1 = (.ok (), s2) := ⟨_, _, rfl, rfl, rfl, rfl⟩
/-- The second SEND of the probe, of the rate 200, ends in Timeout (vector I4); five bytes stay unsent. -/
theorem witness_ProbeEndsAtTimeout : ∃ s1 u,
    let s := scripted small (sendScript 0x00 0x00 0x21 0xFA ++ [0x00, 0x00, 0x01, 0x01, 0x01, 0x01]);
    probeBytes s.cfg = [0xF3] ++ 200 :: [0xF3, 100, 0xF3, 80, 0xF2] ∧ sendsOk [0xF3] s = some s1 ∧
      send 200 s1 = (.error (.timeout .rdrsp), u) := ⟨_, _, rfl, rfl, rfl⟩
theorem witness_ProbeSendsAll : ∃ s1,
    let s := scripted small ((List.range 7).flatMap fun _ => sendScript 0x00 0x00 0x21 0xFA);
    sendsOk (probeBytes s.cfg) s = some s1 := ⟨_, rfl⟩
/-- One byte stored, and two. -/
theorem witness_InitInMidPacket :
    (∃ t,
      let s := { scripted small (favourable 0x03) with idx := 1, buf := ⟨0x08, 0, 0, 0⟩ };
      exec (.init 0) s = .next t ∧ s.packetSize = .three ∧ t.packetSize = .four ∧ s.idx = 1) ∧
    ∃ t,
      let s := { scripted small (favourable 0x03) with idx := 2, buf := ⟨0x08, 0x01, 0, 0⟩ };
      exec (.init 0) s = .next t ∧ s.packetSize = .three ∧ t.packetSize = .four ∧ s.idx = 2 :=
  ⟨⟨_, rfl, rfl, by decide, rfl⟩, _, rfl, rfl, by decide, rfl⟩

theorem small_wf : small.wf = true := by decide
theorem start_inv : start.Inv := ⟨by decide, by decide, by decide, by decide⟩
/-- A state no run reaches from reset by whole operations: an INIT in progress at the last read of its ID poll. -/
theorem witness_StepKeepsTheInvariant :
    ({ wheelStart with seq := .poll 3 (.init .readId) } : State).Inv ∧
    ∃ t, step { wheelStart with seq := .poll 3 (.init .readId), script := [0x21] } = .next t :=
  ⟨⟨by decide, by decide, by decide, by decide⟩, _, rfl⟩
theorem witness_FeedAndResetReachNoPort : isPacket (.pkt4Drop 0 0 0 0) = true ∧
    ∃ t, exec (.pkt4Drop 0 0 0 0) wheelStart = .next t := ⟨rfl, _, rfl⟩
theorem witness_ParametersNeverChange : ∃ t, step start = .next t := ⟨_, rfl⟩
theorem witness_AccessRights : (∃ t, exec (.reset 0) last4 = .next t) ∧ (∃ t, exec (.init 0) start = .next t) ∧
    (∃ t, exec (.wrcmd 0) start = .next t) ∧ (∃ t, exec (.rdrsp 0) start = .next t) ∧
    (∃ t, exec (.feed 0x09) last3 = .next t) := ⟨⟨_, rfl⟩, ⟨_, rfl⟩, ⟨_, rfl⟩, ⟨_, rfl⟩, _, rfl⟩

/-- Each of the three operations, with a wait that is exhausted, a poll answered at its last read, and an ideal INIT. -/
theorem witness_SteppingAnOperation :
    (∃ t, exec (.wrcmd 0xF4) (scripted strict [0x00, 0x02, 0x02, 0x02]) = .next t) ∧
    (∃ t, exec (.rdrsp 0) (scripted small [0x00, 0x01, 0x20, 0x21, 0x00]) = .next t) ∧
    ∃ t, exec (.init 0) (scripted small (favourable 0x03)) = .next t := ⟨⟨_, rfl⟩, ⟨_, rfl⟩, _, rfl⟩

end Sys2Proof.Tests
end

