-- ==== Sys2Proof/Proofs/AccessRights.lean ====
section
/-! PROOFS. Rule R23: which of the five operations may write which register. -/

namespace Sys2Proof.Machine

/-! ### Accesses and procedures that keep the registers -/

/-- Port accesses alone leave the observation outputs and the packet buffer. -/
theorem EnvOnly.observe_buf {s t : State} {e : List Access} (h : EnvOnly s t e) :
    t.observe = s.observe ∧ t.buf = s.buf := by
  rw [h]; exact ⟨rfl, rfl⟩

theorem EnvOnly.keeps {s t : State} {e : List Access} (h : EnvOnly s t e) : Keeps s t := by
  rw [h]; constructor <;> rfl

theorem configureWheel_keeps (s : State) : Keeps s (configureWheel s) := by constructor <;> rfl

/-- What is kept shows in all observation outputs but the configuration pair. -/
theorem Keeps.observe_eq {s t : State} (h : Keeps s t) :
    t.observe = { s.observe with wheelCapable := t.wheelCapable, packetSize := t.packetSize } := by
  simp [State.observe, h.heldL, h.heldR, h.heldM, h.posX, h.posY, h.idx]

/-! ### RESET -/

theorem execReset_next {a : Byte} {s t : State} (h : execReset a s = .next t) : t = resetRegisters s := by
  unfold execReset at h
  cases hq : s.seq.isIdle <;> simp only [hq] at h
  · cases h
  · exact (Host.Outcome.next.inj h).symm

/-! ### WRCMD and RDRSP -/

theorem acceptRequest_next {s t : State} {run : State → Host.Outcome State Fault Refusal}
    (h : acceptRequest s run = .next t) : run s = .next t := by
  rcases acceptRequest_cases h with ⟨_, ho⟩ | ⟨_, _, ho⟩ | ⟨_, _, ho⟩
  · cases ho
  · cases ho
  · exact ho.symm

theorem execWrcmd_next {b : Byte} {s t : State} (h : execWrcmd b s = .next t) : t = finishUnit (wrcmd b s) := by
  have hrun := acceptRequest_next h
  exact (Host.Outcome.next.inj hrun).symm

theorem execRdrsp_next {a : Byte} {s t : State} (h : execRdrsp a s = .next t) : t = finishByte (rdrsp s) := by
  have hrun := acceptRequest_next h
  exact (Host.Outcome.next.inj hrun).symm

/-- Delivering a procedure's result writes no register. -/
theorem finishUnit_observe_buf (r : Except ErrorKind Unit × State) :
    (finishUnit r).observe = r.2.observe ∧ (finishUnit r).buf = r.2.buf := by
  obtain ⟨_ | _, u⟩ := r <;> exact ⟨rfl, rfl⟩

theorem finishByte_observe_buf (r : Except ErrorKind Byte × State) :
    (finishByte r).observe = r.2.observe ∧ (finishByte r).buf = r.2.buf := by
  obtain ⟨_ | _, u⟩ := r <;> exact ⟨rfl, rfl⟩

/-- WRCMD changes no register. -/
theorem execWrcmd_observe_buf {b : Byte} {s t : State} (h : execWrcmd b s = .next t) :
    t.observe = s.observe ∧ t.buf = s.buf := by
  obtain ⟨_, henv, _⟩ := wrcmd_spec b s
  rw [execWrcmd_next h, (finishUnit_observe_buf _).1, (finishUnit_observe_buf _).2]
  exact henv.observe_buf

/-- RDRSP changes no register. -/
theorem execRdrsp_observe_buf {a : Byte} {s t : State} (h : execRdrsp a s = .next t) :
    t.observe = s.observe ∧ t.buf = s.buf := by
  obtain ⟨_, henv, _⟩ := rdrsp_spec s
  rw [execRdrsp_next h, (finishByte_observe_buf _).1, (finishByte_observe_buf _).2]
  exact henv.observe_buf

/-! ### INIT -/

theorem enablePort_keeps (s : State) : Keeps s (enablePort s).2 := by
  obtain ⟨_, henv, _⟩ := enablePort_spec s
  exact henv.keeps

theorem sendMandatory_keeps (site : Site) (b : Byte) (s : State) : Keeps s (sendMandatory site b s).2 := by
  obtain ⟨_, henv, _⟩ := sendMandatory_spec site b s
  exact henv.keeps

theorem probeStep_keeps (s : State) : Keeps s (probeStep s) := by
  obtain ⟨_, _, henv | ⟨henv, _⟩⟩ := probeStep_spec s
  · exact henv.keeps
  · exact (configureWheel_keeps s).trans henv.keeps

/-- INIT's steps, wherever they end, keep all registers but the configuration pair. -/
theorem initRun_keeps (s : State) : Keeps s (initRun s).2 := by
  have h1 := enablePort_keeps s
  unfold initRun
  generalize enablePort s = r1 at h1 ⊢
  obtain ⟨_ | _, s1⟩ := r1
  case error => exact h1
  have h2 := h1.trans (sendMandatory_keeps .initSetDefaults s1.cfg.cSetDefaults s1)
  dsimp only
  generalize sendMandatory .initSetDefaults s1.cfg.cSetDefaults s1 = r2 at h2 ⊢
  obtain ⟨_ | _, s2⟩ := r2
  case error => exact h2
  exact (h2.trans (probeStep_keeps s2)).trans (sendMandatory_keeps _ _ _)

theorem finishInit_keeps (r : Except ErrorKind Unit × State) : Keeps r.2 (finishInit r) := by
  obtain ⟨_ | _, u⟩ := r
  · exact deliver_keeps u _
  · exact (markConfigured_keeps u).trans (deliver_keeps _ _)

theorem execInit_next {a : Byte} {s t : State} (h : execInit a s = .next t) : t = finishInit (initRun s) := by
  have hrun := acceptRequest_next h
  cases hs : s.session <;> simp only [hs] at hrun
  case ready => exact (Host.Outcome.next.inj hrun).symm
  all_goals cases hrun

/-- INIT keeps all registers but the configuration pair. -/
theorem execInit_keeps {a : Byte} {s t : State} (h : execInit a s = .next t) : Keeps s t := by
  rw [execInit_next h]
  exact (initRun_keeps s).trans (finishInit_keeps _)

/-! ### FEED -/

theorem lastSlot_iff (s : State) : s.lastSlot = true ↔ s.idx.val = s.packetSize.len - 1 := by
  have := s.packetSize.len_ge
  simp only [State.lastSlot, beq_iff_eq]
  omega

@[simp] theorem finishPacket_wheelCapable (r : State × Option Event) :
    (finishPacket r).wheelCapable = r.1.wheelCapable := rfl
@[simp] theorem finishPacket_packetSize (r : State × Option Event) : (finishPacket r).packetSize = r.1.packetSize := rfl
@[simp] theorem finishPacket_buf (r : State × Option Event) : (finishPacket r).buf = r.1.buf := rfl
@[simp] theorem finishPacket_idx (r : State × Option Event) : (finishPacket r).idx = r.1.idx := rfl

/-- A packet handed to the decoder is dropped when its framing bit is 0, and decoded when it is 1. -/
theorem runPacket_next {s t : State} (h : runPacket s = .next t) :
    (framed s.buf.b0 = false ∧ t = finishPacket (s, none)) ∨
      (framed s.buf.b0 = true ∧ ∃ zb, t = finishPacket (decodeBody s.buf.b0 s.buf.b1 s.buf.b2 zb s)) := by
  unfold runPacket at h
  cases hp : s.packetSize <;> cases hf : framed s.buf.b0 <;> simp only [hp, hf] at h
  · exact .inl ⟨rfl, (acceptPacket_next h).2⟩
  · exact .inr ⟨rfl, _, (acceptPacket_next h).2⟩
  · exact .inl ⟨rfl, (acceptPacket_next h).2⟩
  · exact .inr ⟨rfl, _, (acceptPacket_next h).2⟩

/-- An accepted FEED accumulates its byte, or completes a malformed packet, or completes a well-formed one. -/
theorem execFeed_next {b : Byte} {s t : State} (h : execFeed b s = .next t) :
    (s.lastSlot = false ∧ t = feedAccumulate b s) ∨
      (s.lastSlot = true ∧ framed (s.buf.set s.idx b).b0 = false ∧ t = finishPacket (feedComplete b s, none)) ∨
      (s.lastSlot = true ∧ framed (s.buf.set s.idx b).b0 = true ∧
        ∃ flags xb yb zb, t = finishPacket (decodeBody flags xb yb zb (feedComplete b s))) := by
  have hrun := acceptRequest_next h
  cases hl : s.lastSlot <;> simp only [hl] at hrun
  case false => exact .inl ⟨rfl, (Host.Outcome.next.inj hrun).symm⟩
  rcases runPacket_next hrun with ⟨hf, ht⟩ | ⟨hf, zb, ht⟩
  · exact .inr (.inl ⟨rfl, hf, ht⟩)
  · exact .inr (.inr ⟨rfl, hf, _, _, _, zb, ht⟩)

/-- DECODE writes neither the configuration pair nor the packet buffer nor the fill index. -/
theorem decodeBody_frame (flags xb yb zb : Byte) (s : State) :
    (decodeBody flags xb yb zb s).1.wheelCapable = s.wheelCapable ∧
      (decodeBody flags xb yb zb s).1.packetSize = s.packetSize ∧
      (decodeBody flags xb yb zb s).1.buf = s.buf ∧ (decodeBody flags xb yb zb s).1.idx = s.idx := by
  obtain ⟨_, _, _, hs⟩ := decodeBody_state s flags xb yb zb
  rw [hs]; exact ⟨rfl, rfl, rfl, rfl⟩

/-- A held register that DECODE changes is the one of the reported button. -/
theorem firstEdge_of_decodeBody_held_ne {flags xb yb zb : Byte} {s : State} {k : Button}
    (h : (decodeBody flags xb yb zb s).1.held k ≠ s.held k) : firstEdge flags s = some k := by
  cases he : firstEdge flags s with
  | none => exact absurd (by rw [decodeBody_noEdge s he]; rfl) h
  | some b =>
    rw [decodeBody_edge s he, held_setHeld] at h
    by_cases hk : k = b
    · rw [hk]
    · exact absurd (by rw [if_neg hk]; rfl) h

/-- FEED never writes the configuration pair; it stores its byte and moves the fill index. -/
theorem execFeed_frame {b : Byte} {s t : State} (h : execFeed b s = .next t) :
    t.wheelCapable = s.wheelCapable ∧ t.packetSize = s.packetSize ∧ t.buf = s.buf.set s.idx b ∧
      t.idx = if s.lastSlot then 0 else s.idx + 1 := by
  rcases execFeed_next h with ⟨hl, rfl⟩ | ⟨hl, _, rfl⟩ | ⟨hl, _, flags, xb, yb, zb, rfl⟩
  · simp [feedAccumulate, hl]
  · simp [feedComplete, hl]
  · simp [decodeBody_frame, feedComplete, hl]

/-- A FEED that completes no well-formed packet moves no position and writes no held register. -/
theorem execFeed_keeps_mouse {b : Byte} {s t : State} (h : execFeed b s = .next t)
    (hn : ¬(s.lastSlot = true ∧ framed (s.buf.set s.idx b).b0 = true)) :
    t.posX = s.posX ∧ t.posY = s.posY ∧ ∀ k, t.held k = s.held k := by
  rcases execFeed_next h with ⟨_, rfl⟩ | ⟨_, _, rfl⟩ | ⟨hl, hf, _⟩
  · exact ⟨rfl, rfl, fun _ => rfl⟩
  · exact ⟨rfl, rfl, fun _ => rfl⟩
  · exact absurd ⟨hl, hf⟩ hn

/-- A FEED writes at most one held register. -/
theorem execFeed_held_unique {b : Byte} {s t : State} (h : execFeed b s = .next t) {k k' : Button}
    (hk : t.held k ≠ s.held k) (hk' : t.held k' ≠ s.held k') : k = k' := by
  rcases execFeed_next h with ⟨_, rfl⟩ | ⟨_, _, rfl⟩ | ⟨_, _, flags, xb, yb, zb, rfl⟩
  · exact absurd rfl hk
  · exact absurd rfl hk
  · have e : firstEdge flags (feedComplete b s) = some k := firstEdge_of_decodeBody_held_ne hk
    have e' : firstEdge flags (feedComplete b s) = some k' := firstEdge_of_decodeBody_held_ne hk'
    exact Option.some.inj (e.symm.trans e')

end Sys2Proof.Machine

namespace Sys2Proof.Proofs

open Sys2Proof.Machine

/-- Settles O53: RESET's values, INIT's and the transport's frames, and the three ways a FEED can end. -/
theorem accessRights : Obligations.AccessRights := by
  unfold Obligations.AccessRights
  refine ⟨?reset, ?init, ?transport, ?feed⟩
  case reset =>
    intro a s t h
    change execReset a s = .next t at h
    rw [execReset_next h]; rfl
  case init =>
    intro a s t h
    change execInit a s = .next t at h
    have hk := execInit_keeps h
    exact ⟨hk.observe_eq, hk.buf⟩
  case transport =>
    intro b s t h
    change execWrcmd b s = .next t ∨ execRdrsp b s = .next t at h
    rcases h with h | h
    · exact execWrcmd_observe_buf h
    · exact execRdrsp_observe_buf h
  case feed =>
    intro b s t h
    change execFeed b s = .next t at h
    obtain ⟨hwheel, hsize, hbuf, hidx⟩ := execFeed_frame h
    refine ⟨hwheel, hsize, hbuf, ?_, fun hn => execFeed_keeps_mouse h ?_, fun k k' => execFeed_held_unique h⟩
    · simpa only [lastSlot_iff] using hidx
    · rw [lastSlot_iff, ← hbuf]; exact hn

end Sys2Proof.Proofs
end

