-- ==== Sys2Proof/Proofs/Assembler.lean ====
section
/-! PROOFS. Rules R121 and R122: the two transitions of FEED. A FEED runs the decoder with the sequencer at `decode`, where
a packet class run on its own starts from `idle`; the two agree because DECODE never looks at the sequencer. -/

namespace Sys2Proof.Machine

/-! ### DECODE and the sequencer -/

theorem firstEdge_setSeq (q : Seq) (flags : Byte) (s : State) : firstEdge flags (setSeq q s) = firstEdge flags s := rfl

/-- DECODE neither reads nor writes the sequencer. -/
theorem decodeBody_setSeq (q : Seq) (flags xb yb zb : Byte) (s : State) :
    decodeBody flags xb yb zb (setSeq q s) =
      (setSeq q (decodeBody flags xb yb zb s).1, (decodeBody flags xb yb zb s).2) := by
  cases h : firstEdge flags s with
  | none => rw [decodeBody_noEdge s h, decodeBody_noEdge _ ((firstEdge_setSeq q flags s).trans h)]; rfl
  | some k =>
    rw [decodeBody_edge s h, decodeBody_edge _ ((firstEdge_setSeq q flags s).trans h)]
    cases k <;> rfl

/-- A packet ends with the sequencer idle, wherever it stood. -/
theorem finishPacket_setSeq (q : Seq) (s : State) (e : Option Event) :
    finishPacket (setSeq q s, e) = finishPacket (s, e) := rfl

/-- A packet that may be decoded ends, in both formats, as its framing bit says: dropped or decoded (rules R130, R131). -/
theorem runPacket_of_mayDecode {s : State} (h : s.seq.mayDecode = true) :
    runPacket s = .next (finishPacket
      (if framed s.buf.b0 then decodeBody s.buf.b0 s.buf.b1 s.buf.b2 s.buf.b3 s else (s, none))) := by
  unfold runPacket
  cases s.packetSize <;> cases framed s.buf.b0
  · exact execPkt3Drop_eq s h
  · exact execPkt3Exec_eq s h
  · exact execPkt4Drop_eq s h
  · exact execPkt4Exec_eq s h

/-- Both positions from which a packet may be decoded give the same outcome. -/
theorem runPacket_setSeq {q : Seq} {s : State} (hq : q.mayDecode = true) (hs : s.seq.mayDecode = true) :
    runPacket (setSeq q s) = runPacket s := by
  rw [runPacket_of_mayDecode (s := setSeq q s) hq, runPacket_of_mayDecode hs]
  by_cases hf : framed s.buf.b0
  · simp [hf, decodeBody_setSeq, finishPacket_setSeq]
  · simp [hf, finishPacket_setSeq]

/-! ### The two transitions of FEED -/

theorem lastSlot_eq_false_iff (s : State) : s.lastSlot = false ↔ s.idx.val ≠ s.packetSize.len - 1 := by
  rw [Ne, ← lastSlot_iff, Bool.not_eq_true]

/-- Below the last index, FEED is the accumulating transition (rule R121). -/
theorem exec_feed_of_not_lastSlot {b : Byte} {s : State} (hq : s.seq = .idle) (hs : s.session ≠ .unconstructed)
    (hl : s.lastSlot = false) : exec (.feed b) s = .next (feedAccumulate b s) := by
  change execFeed b s = _
  rw [execFeed_eq s hq hs, hl]; rfl

/-- At the last index, FEED is DECODE on the buffer with the byte stored and the index 0 (rule R122). -/
theorem exec_feed_of_lastSlot {b : Byte} {s : State} (hq : s.seq = .idle) (hs : s.session ≠ .unconstructed)
    (hl : s.lastSlot = true) : exec (.feed b) s = runPacket (setIdx 0 (storeByte b s)) := by
  have hidle : (setIdx 0 (storeByte b s)).seq.mayDecode = true := by simp [hq, Seq.mayDecode]
  change execFeed b s = _
  rw [execFeed_eq s hq hs, if_pos hl, ← runPacket_eq, feedComplete, runPacket_setSeq rfl hidle]

/-- The fill index below the last one is incremented without a wrap. -/
theorem idx_add_one_val {s : State} (h : s.idx.val < s.packetSize.len - 1) : (s.idx + 1).val = s.idx.val + 1 := by
  have hlen := s.packetSize.len_le
  exact Fin.val_add_one_of_lt' (by omega)

end Sys2Proof.Machine

namespace Sys2Proof.Proofs

open Sys2Proof.Machine

/-- Settles O14: below the last index FEED takes the accumulating branch, and the fill index stays below 4. -/
theorem feedAccumulates : Obligations.FeedAccumulates := by
  unfold Obligations.FeedAccumulates
  rintro b s ⟨hq, hs⟩ hidx
  have hl : s.lastSlot = false := (lastSlot_eq_false_iff s).2 hidx.ne
  exact ⟨exec_feed_of_not_lastSlot hq hs hl, idx_add_one_val hidx⟩

/-- Settles O15: the hand-over to the decoder is DECODE on the stored packet, which always ends and keeps buffer and
index. -/
theorem feedCompletesThePacket : Obligations.FeedCompletesThePacket := by
  unfold Obligations.FeedCompletesThePacket
  rintro b s ⟨hq, hs⟩ hidx
  have hl : s.lastSlot = true := (lastSlot_iff s).2 hidx
  have hfeed := exec_feed_of_lastSlot (b := b) hq hs hl
  refine ⟨?decoded, ?completes⟩
  case decoded =>
    rw [hfeed, runPacket_eq]; rfl
  case completes =>
    have hnext := hfeed.trans (runPacket_of_mayDecode (by simp [hq, Seq.mayDecode]))
    obtain ⟨_, _, hbuf, hidx'⟩ := execFeed_frame hnext
    exact ⟨_, hnext, by rw [hidx', if_pos hl], hbuf⟩

end Sys2Proof.Proofs
end

