-- ==== Sys2Proof/Proofs/Decoder.lean ====
section
/-! PROOFS. Rules R130, R132, R135 and R143: what DECODE drops, the deltas it reads, the positions it moves, and the packet
that reports nothing. The sums and the deltas are compared as integers. -/

namespace Sys2Proof.Machine

/-! ### The operands -/

/-- The high byte of a widened delta is the sign bit eight times over, the low byte the data byte. -/
theorem widen_toNat (sign : Bool) (data : Byte) :
    (widen sign data).toNat = (if sign then 0xFF00 else 0) + data.toNat := by
  have hlow : (data.zeroExtend 16).toNat = data.toNat := BitVec.toNat_setWidth_of_le (by decide)
  rw [widen, BitVec.toNat_or, hlow]
  cases sign with
  | false => simp
  | true => exact (Nat.two_pow_add_eq_or_of_lt data.isLt 0xFF).symm

/-- A widened delta is the data byte, less 256 under a set sign bit (rule R132). -/
theorem widen_toInt (sign : Bool) (data : Byte) :
    (widen sign data).toInt = (data.toNat : Int) - (if sign then 256 else 0) := by
  have hlt := data.isLt
  rw [BitVec.toInt_eq_toNat_cond, widen_toNat]
  split_ifs <;> omega

/-- The saturating sum is the exact sum, clamped (rule R135). -/
theorem satAdd16_toInt (a b : I16) :
    (satAdd16 a b).toInt =
      if 32767 < a.toInt + b.toInt then 32767 else if a.toInt + b.toInt < -32768 then -32768 else a.toInt + b.toInt := by
  unfold satAdd16
  split_ifs with hover hunder
  · rfl
  · rfl
  · exact BitVec.toInt_ofInt_eq_self (by decide) (by omega) (by omega)

/-- Adding zero leaves a position: no `i16` value lies beyond the bounds. -/
theorem satAdd16_zero (a : I16) : satAdd16 a 0 = a := by
  have hlt : a.toInt < 2 ^ 15 := a.toInt_lt
  have hle : -2 ^ 15 ≤ a.toInt := a.le_toInt
  have hzero : (0 : I16).toInt = 0 := rfl
  apply BitVec.eq_of_toInt_eq
  rw [satAdd16_toInt, hzero, add_zero, if_neg (by omega), if_neg (by omega)]

theorem accumulate_zero (s : State) : accumulate 0 0 s = s := by
  simp only [accumulate, satAdd16_zero]

/-- A wheel byte of zero reports nothing (rule R141). -/
theorem wheelEvent_zero : wheelEvent 0 = none := rfl

theorem moveEvent_zero : moveEvent 0 0 = none := rfl

/-! ### The packet classes -/

/-- Without a button edge, a wheel event or a delta, DECODE changes nothing and reports nothing (rule R143). -/
theorem decodeBody_quiet {f x y zb : Byte} {s : State} (hedge : firstEdge f s = none)
    (hwheel : s.wheelCapable = true → zb = 0) (hx : deltaX f x = 0) (hy : deltaY f y = 0) :
    decodeBody f x y zb s = (s, none) := by
  have hev : (if s.wheelCapable then wheelEvent zb else none) = none := by
    split_ifs with hw
    · rw [hwheel hw, wheelEvent_zero]
    · rfl
  rw [decodeBody_noEdge s hedge, hev, hx, hy, accumulate_zero, moveEvent_zero, Option.or_none]

/-! ### A FEED that completes a malformed packet -/

/-- A byte stored at another index leaves the flags byte. -/
theorem PacketBuf.set_b0_of_ne_zero {i : Fin 4} (b : PacketBuf) (v : Byte) (h : i ≠ 0) : (b.set i v).b0 = b.b0 := by
  have hget := PacketBuf.get_set b i 0 v
  rwa [if_neg h.symm] at hget

/-- A packet has at least three bytes, so the byte that completes it is not its flags byte. -/
theorem idx_ne_zero_of_lastSlot {s : State} (h : s.lastSlot = true) : s.idx ≠ 0 := by
  intro h0
  have hidx := (lastSlot_iff s).1 h
  have hlen := s.packetSize.len_ge
  rw [h0, Fin.val_zero] at hidx
  omega

/-- A completing FEED whose flags byte is unframed drops the packet (rule R130). -/
theorem exec_feed_of_unframed {b : Byte} {s : State} (hq : s.seq = .idle) (hs : s.session ≠ .unconstructed)
    (hl : s.lastSlot = true) (hf : framed s.buf.b0 = false) :
    exec (.feed b) s = .next (finishPacket (setIdx 0 (storeByte b s), none)) := by
  have hmay : (setIdx 0 (storeByte b s)).seq.mayDecode = true := by simp [hq, Seq.mayDecode]
  have hframed : framed (setIdx 0 (storeByte b s)).buf.b0 = false := by
    simpa [PacketBuf.set_b0_of_ne_zero s.buf b (idx_ne_zero_of_lastSlot hl)] using hf
  rw [exec_feed_of_lastSlot hq hs hl, runPacket_of_mayDecode hmay, hframed, if_neg Bool.false_ne_true]

end Sys2Proof.Machine

namespace Sys2Proof.Proofs

open Sys2Proof.Machine Sys2Proof.Claims

theorem firstEdge_eq_none_of_noEdge {f : Byte} {s : State} (h : NoEdge f s) : firstEdge f s = none := by
  obtain ⟨hl, hr, hm⟩ := h
  refine (firstEdge_none_iff s).2 fun b => ?_
  cases b with
  | left => exact hl
  | right => exact hr
  | middle => exact hm

/-- A packet class that DECODE's body executes ends with the body's event, on both lengths, for some wheel byte. -/
theorem exec_of_wellFormed {f x y z : Byte} {s : State} {i : Instr} (h : s.seq.mayDecode = true)
    (hi : i = .pkt3Exec f x y ∨ i = .pkt4Exec f x y z) :
    ∃ zb, exec i s = .next (finishPacket (decodeBody f x y zb s)) := by
  rcases hi with rfl | rfl
  · exact ⟨s.buf.b3, execPkt3Exec_eq s h⟩
  · exact ⟨z, execPkt4Exec_eq s h⟩

/-- Settles O21: both lengths run DECODE's body, which moves both positions by the saturating sum. -/
theorem positionsSaturate : Obligations.PositionsSaturate := by
  unfold Obligations.PositionsSaturate
  intro f x y z s i hmay hi
  obtain ⟨zb, hexec⟩ := exec_of_wellFormed hmay hi
  obtain ⟨hl, hr, hm, hstate⟩ := decodeBody_state s f x y zb
  refine ⟨satAdd16 s.posX (deltaX f x), satAdd16 s.posY (deltaY f y), hl, hr, hm, (decodeBody f x y zb s).2,
    ?_, satAdd16_toInt _ _, satAdd16_toInt _ _⟩
  rw [hexec, finishPacket, hstate]; rfl

/-- Settles O17: both classes and a completing FEED end the packet with no event and nothing else done. -/
theorem malformedPacketIsDropped : Obligations.MalformedPacketIsDropped := by
  unfold Obligations.MalformedPacketIsDropped
  refine ⟨?classes, ?feed⟩
  case classes =>
    intro f x y z s hmay
    exact ⟨acceptPacket_of_mayDecode dropPacket hmay, acceptPacket_of_mayDecode dropPacket hmay⟩
  case feed =>
    rintro b s ⟨hq, hs⟩ hidx hframe
    rw [exec_feed_of_unframed hq hs ((lastSlot_iff s).2 hidx) hframe, hq]; rfl

/-- Settles O18: both deltas are a data byte widened under its sign bit. -/
theorem deltasAreNineBitSignExtensions : Obligations.DeltasAreNineBitSignExtensions := by
  unfold Obligations.DeltasAreNineBitSignExtensions
  exact fun flags data => ⟨widen_toInt _ data, widen_toInt _ data⟩

/-- Settles O27: DECODE's body leaves the state of a quiet packet, whichever wheel byte it looks at. -/
theorem quietPacketGivesNoEvent : Obligations.QuietPacketGivesNoEvent := by
  unfold Obligations.QuietPacketGivesNoEvent
  intro f x y z s hmay hno hwheel hx hy
  have hquiet {zb : Byte} (hz : s.wheelCapable = true → zb = 0) : decodeBody f x y zb s = (s, none) :=
    decodeBody_quiet (firstEdge_eq_none_of_noEdge hno) hz hx hy
  constructor
  · exact (execPkt3Exec_eq s hmay).trans (by rw [hquiet fun hw => (hwheel hw).1]; rfl)
  · exact (execPkt4Exec_eq s hmay).trans (by rw [hquiet fun hw => (hwheel hw).2]; rfl)

end Sys2Proof.Proofs
end

