-- ==== Sys2Proof/Proofs/Encoding.lean ====
section
/-! PROOFS. 30_encoding.md: decoding and encoding are inverse, format by format. A request word is its `op` above its `arg`; a
lone byte is looked up among the nine of format CMD, which differ; the framing bit of a packet decides its class. -/

namespace Sys2Proof

/-! ### Format OP -/

/-- The upper field of two bytes that make a request word is the second byte. -/
theorem extractLsb'_op_pairNat {lo hi : Byte} (h : hi.toNat < 8) :
    ((BitVec.ofNat 11 (pairNat lo hi)).extractLsb' 8 3).toNat = hi.toNat := by
  have hlo := lo.isLt
  simp only [BitVec.extractLsb'_toNat, BitVec.toNat_ofNat, pairNat, Nat.shiftRight_eq_div_pow]
  omega

/-- The lower field is the first byte. -/
theorem extractLsb'_arg_pairNat (lo hi : Byte) :
    (BitVec.ofNat 11 (pairNat lo hi)).extractLsb' 0 8 = lo := by
  have hlo := lo.isLt
  apply BitVec.eq_of_toNat_eq
  simp only [BitVec.extractLsb'_toNat, BitVec.toNat_ofNat, pairNat, Nat.shiftRight_zero]
  omega

/-- Two bytes decode as the request word they make. -/
theorem decode_pair {c : Config} {lo hi : Byte} (h : hi.toNat < 8) :
    decode c [lo, hi] = decodeRequest (BitVec.ofNat 11 (pairNat lo hi)) := if_pos h

theorem decodeRequest_reset {w : ReqWord} (h : (w.extractLsb' 8 3).toNat = 0) :
    decodeRequest w = .ok (.reset (w.extractLsb' 0 8)) := by
  rw [decodeRequest, h]; rfl

theorem decodeRequest_init {w : ReqWord} (h : (w.extractLsb' 8 3).toNat = 1) :
    decodeRequest w = .ok (.init (w.extractLsb' 0 8)) := by
  rw [decodeRequest, h]; rfl

theorem decodeRequest_wrcmd {w : ReqWord} (h : (w.extractLsb' 8 3).toNat = 2) :
    decodeRequest w = .ok (.wrcmd (w.extractLsb' 0 8)) := by
  rw [decodeRequest, h]; rfl

theorem decodeRequest_rdrsp {w : ReqWord} (h : (w.extractLsb' 8 3).toNat = 3) :
    decodeRequest w = .ok (.rdrsp (w.extractLsb' 0 8)) := by
  rw [decodeRequest, h]; rfl

theorem decodeRequest_feed {w : ReqWord} (h : (w.extractLsb' 8 3).toNat = 4) :
    decodeRequest w = .ok (.feed (w.extractLsb' 0 8)) := by
  rw [decodeRequest, h]; rfl

/-- The bytes of `op` and `arg` decode to what a word with that `op` decodes to, with that `arg`. -/
theorem decode_requestBytes {c : Config} {op : Nat} {arg : Byte} {mk : Byte → Instr} (hop : op < 8)
    (h : ∀ {w : ReqWord}, (w.extractLsb' 8 3).toNat = op → decodeRequest w = .ok (mk (w.extractLsb' 0 8))) :
    decode c (requestBytes op arg) = .ok (mk arg) := by
  have hhi : (BitVec.ofNat 8 op).toNat = op := by rw [BitVec.toNat_ofNat]; omega
  rw [requestBytes, decode_pair (by omega), h (by rw [extractLsb'_op_pairNat (by omega), hhi]), extractLsb'_arg_pairNat]

/-- What a request word decodes to is encoded by the word's two fields. -/
theorem encode_of_decodeRequest {w : ReqWord} {i : Instr} (c : Config) (h : decodeRequest w = .ok i) :
    encode c i = requestBytes (w.extractLsb' 8 3).toNat (w.extractLsb' 0 8) ∧ i.wf = true := by
  unfold decodeRequest at h
  split at h <;> cases h <;> exact ⟨by simp only [*, encode], rfl⟩

/-! ### Format CMD -/

/-- A lone byte that decodes is the byte of the row it decodes to. -/
theorem encode_of_decodeCmd {c : Config} {b : Byte} {i : Instr} (h : decodeCmd c b = .ok i) :
    encode c i = [b] ∧ i.wf = true := by
  unfold decodeCmd at h
  split_ifs at h <;> cases h <;> exact ⟨by simp only [*, encode], rfl⟩

theorem encode_of_emission {c : Config} {i : Instr} {p : Port} {b : Byte} (h : emission c i = some (p, b)) :
    encode c i = [b] := by
  cases i <;> simp only [emission, reduceCtorEq, Option.some.injEq, Prod.mk.injEq] at h <;>
    rw [← h.2] <;> rfl

/-- Where the nine bytes differ, the byte of a row decodes to that row. -/
theorem decodeCmd_of_emission {c : Config} {i : Instr} {p : Port} {b : Byte} (hd : c.cmdDistinct = true)
    (h : emission c i = some (p, b)) : decodeCmd c b = .ok i := by
  simp only [Config.cmdDistinct, Config.cmdBytes, decide_eq_true_eq, List.nodup_cons, List.mem_cons, List.not_mem_nil,
    or_false, not_or] at hd
  cases i <;> simp only [emission, reduceCtorEq, Option.some.injEq, Prod.mk.injEq] at h <;>
    obtain ⟨-, rfl⟩ := h <;> grind [decodeCmd]

/-! ### Formats P3 and P4 -/

theorem encode_decodeP3 (c : Config) (flags xb yb : Byte) :
    encode c (decodeP3 flags xb yb) = [flags, xb, yb] ∧ (decodeP3 flags xb yb).wf = true := by
  unfold decodeP3
  cases hf : framed flags <;> exact ⟨rfl, by simp [Instr.wf, hf]⟩

theorem encode_decodeP4 (c : Config) (flags xb yb zb : Byte) :
    encode c (decodeP4 flags xb yb zb) = [flags, xb, yb, zb] ∧ (decodeP4 flags xb yb zb).wf = true := by
  unfold decodeP4
  cases hf : framed flags <;> exact ⟨rfl, by simp [Instr.wf, hf]⟩

/-! ### Words of the opcode table -/

/-- The two bytes of an 11-bit number decode as the request word of that number. -/
theorem decode_bytesOfNat_two {w : Nat} (c : Config) (hw : w < 2 ^ 11) :
    decode c (bytesOfNat 2 w) = decodeRequest (BitVec.ofNat 11 w) := by
  have hhi : (BitVec.ofNat 8 (w / 256)).toNat < 8 := by rw [BitVec.toNat_ofNat]; omega
  have hpair : pairNat (BitVec.ofNat 8 w) (BitVec.ofNat 8 (w / 256)) = w := by
    simp only [pairNat, BitVec.toNat_ofNat]; omega
  exact (decode_pair hhi).trans (by rw [hpair])

/-- The bits the mask of a request row selects are the `op`. -/
theorem extractLsb'_op_of_mask {w op : Nat} (hw : w < 2 ^ 11) (h : w &&& 0x700 = op * 256) :
    ((BitVec.ofNat 11 w).extractLsb' 8 3).toNat = op := by
  have hop : w / 2 ^ 8 &&& 2 ^ 3 - 1 = op :=
    (Nat.and_div_two_pow (a := w) (b := 0x700)).symm.trans (by rw [h]; exact Nat.mul_div_cancel op (by decide))
  rw [Nat.and_two_pow_sub_one_eq_mod] at hop
  simp only [BitVec.extractLsb'_toNat, BitVec.toNat_ofNat, Nat.shiftRight_eq_div_pow]
  omega

/-- A word of a request row decodes to what a word with the row's `op` decodes to. -/
theorem decode_requestWord {c : Config} {w op : Nat} {mk : Byte → Instr} (hw : w < 2 ^ 11)
    (hmask : w &&& 0x700 = op * 256)
    (h : ∀ {w : ReqWord}, (w.extractLsb' 8 3).toNat = op → decodeRequest w = .ok (mk (w.extractLsb' 0 8))) :
    decode c (bytesOfNat 2 w) = .ok (mk ((BitVec.ofNat 11 w).extractLsb' 0 8)) :=
  (decode_bytesOfNat_two c hw).trans (h (extractLsb'_op_of_mask hw hmask))

/-- The bit the mask of a packet row selects is the framing bit. -/
theorem framed_of_mask {w : Nat} : framed (BitVec.ofNat 8 w) = true ↔ w &&& 0x08 = 0x08 := by
  have hbit : framed (BitVec.ofNat 8 w) = w.testBit 3 := by
    rw [framed, BitVec.getLsbD_ofNat]; rfl
  have hand : w &&& 0x08 = (w.testBit 3).toNat * 2 ^ 3 := Nat.and_two_pow w 3
  rw [hbit, hand]
  cases w.testBit 3 <;> decide

/-- The word a CMD row selects is the row's byte. -/
theorem ofNat_of_mask {w : Nat} {b : Byte} (h : w &&& 0xFF = b.toNat) : BitVec.ofNat 8 w = b := by
  have hand : w &&& 0xFF = w % 2 ^ 8 := Nat.and_two_pow_sub_one_eq_mod w 8
  apply BitVec.eq_of_toNat_eq
  rw [BitVec.toNat_ofNat, ← h, hand]

theorem decode_cmdWord {c : Config} {p : Port} {b : Byte} {w : Nat} (hd : c.cmdDistinct = true) (i : Instr)
    (hi : emission c i = some (p, b)) (h : w &&& 0xFF = b.toNat) :
    decode c (bytesOfNat ((8 + 7) / 8) w) = .ok i := by
  have hbytes : bytesOfNat ((8 + 7) / 8) w = [b] := congrArg (fun b => [b]) (ofNat_of_mask h)
  rw [hbytes]
  exact decodeCmd_of_emission hd hi

end Sys2Proof

namespace Sys2Proof.Proofs

/-- Settles O1: format by format. -/
theorem decodeOfEncodeIsTheInstruction : Obligations.DecodeOfEncodeIsTheInstruction := by
  unfold Obligations.DecodeOfEncodeIsTheInstruction
  intro c i hd hwf
  have cmd {p : Port} {b : Byte} (h : emission c i = some (p, b)) : decode c (encode c i) = .ok i := by
    rw [encode_of_emission h]; exact decodeCmd_of_emission hd h
  cases i with
  | reset arg => exact decode_requestBytes (by decide) decodeRequest_reset
  | init arg => exact decode_requestBytes (by decide) decodeRequest_init
  | wrcmd arg => exact decode_requestBytes (by decide) decodeRequest_wrcmd
  | rdrsp arg => exact decode_requestBytes (by decide) decodeRequest_rdrsp
  | feed arg => exact decode_requestBytes (by decide) decodeRequest_feed
  | pkt3Drop f x y => simp_all [Instr.wf, encode, decode, decodeP3]
  | pkt3Exec f x y => simp_all [Instr.wf, encode, decode, decodeP3]
  | pkt4Drop f x y z => simp_all [Instr.wf, encode, decode, decodeP4]
  | pkt4Exec f x y z => simp_all [Instr.wf, encode, decode, decodeP4]
  | cEnableAux => exact cmd rfl
  | cFwdAux => exact cmd rfl
  | cSetDefaults => exact cmd rfl
  | cSetRate => exact cmd rfl
  | rate200 => exact cmd rfl
  | rate100 => exact cmd rfl
  | rate80 => exact cmd rfl
  | cGetId => exact cmd rfl
  | cEnableStream => exact cmd rfl

/-- Settles O2: by the number of bytes, which is the format. -/
theorem encodeOfDecodeIsTheBytes : Obligations.EncodeOfDecodeIsTheBytes := by
  unfold Obligations.EncodeOfDecodeIsTheBytes
  intro c bytes i h
  match bytes, h with
  | [b], h => exact encode_of_decodeCmd h
  | [lo, hi], h =>
    by_cases hhi : hi.toNat < 8
    · rw [decode_pair hhi] at h
      have henc := encode_of_decodeRequest c h
      rwa [extractLsb'_op_pairNat hhi, extractLsb'_arg_pairNat, requestBytes, BitVec.ofNat_toNat,
        BitVec.setWidth_eq] at henc
    · simp only [decode, if_neg hhi, reduceCtorEq] at h
  | [flags, xb, yb], h => cases h; exact encode_decodeP3 c flags xb yb
  | [flags, xb, yb, zb], h => cases h; exact encode_decodeP4 c flags xb yb zb

/-- Settles O3: the rows of each format by what their mask selects. -/
theorem opcodeRowsDecodeToTheirInstruction : Obligations.OpcodeRowsDecodeToTheirInstruction := by
  unfold Obligations.OpcodeRowsDecodeToTheirInstruction
  intro c row w hd hrow hw hmatch
  have hmask : w &&& row.mask = row.pattern := by simpa [OpcodeRow.matches] using hmatch
  simp only [opcodeTable, List.cons_append, List.nil_append, List.mem_cons, List.not_mem_nil, or_false] at hrow
  rcases hrow with rfl | rfl | rfl | rfl | rfl | rfl | rfl | rfl | rfl | rfl | rfl | rfl | rfl | rfl | rfl | rfl | rfl | rfl
  · exact ⟨_, decode_requestWord hw hmask decodeRequest_reset, rfl⟩
  · exact ⟨_, decode_requestWord hw hmask decodeRequest_init, rfl⟩
  · exact ⟨_, decode_requestWord hw hmask decodeRequest_wrcmd, rfl⟩
  · exact ⟨_, decode_requestWord hw hmask decodeRequest_rdrsp, rfl⟩
  · exact ⟨_, decode_requestWord hw hmask decodeRequest_feed, rfl⟩
  · exact ⟨_, rfl, by rw [decodeP3, if_neg (framed_of_mask.not.2 (by rw [hmask]; decide))]; rfl⟩
  · exact ⟨_, rfl, by rw [decodeP3, if_pos (framed_of_mask.2 hmask)]; rfl⟩
  · exact ⟨_, rfl, by rw [decodeP4, if_neg (framed_of_mask.not.2 (by rw [hmask]; decide))]; rfl⟩
  · exact ⟨_, rfl, by rw [decodeP4, if_pos (framed_of_mask.2 hmask)]; rfl⟩
  · exact ⟨_, decode_cmdWord hd .cEnableAux rfl hmask, rfl⟩
  · exact ⟨_, decode_cmdWord hd .cFwdAux rfl hmask, rfl⟩
  · exact ⟨_, decode_cmdWord hd .cSetDefaults rfl hmask, rfl⟩
  · exact ⟨_, decode_cmdWord hd .cSetRate rfl hmask, rfl⟩
  · exact ⟨_, decode_cmdWord hd .rate200 rfl hmask, rfl⟩
  · exact ⟨_, decode_cmdWord hd .rate100 rfl hmask, rfl⟩
  · exact ⟨_, decode_cmdWord hd .rate80 rfl hmask, rfl⟩
  · exact ⟨_, decode_cmdWord hd .cGetId rfl hmask, rfl⟩
  · exact ⟨_, decode_cmdWord hd .cEnableStream rfl hmask, rfl⟩

/-- Settles O4: the words evaluated. -/
theorem wordsOfTheSpecDecode : Obligations.WordsOfTheSpecDecode := by
  unfold Obligations.WordsOfTheSpecDecode
  decide

end Sys2Proof.Proofs
end

