-- ==== Sys2Proof/Proofs/Effects.lean ====
section
/-! PROOFS. What an instruction that answers a next state has done, said once for all of them: RESET writes its registers, a
transport operation delivers one result of its own and moves at most the configuration pair, a packet is accumulated, dropped
or decoded, an emitted byte is written. -/

namespace Sys2Proof.Machine

/-! ### Accesses alone -/

theorem EnvOnly.wheelCapable_eq {s t : State} {e : List Access} (h : EnvOnly s t e) : t.wheelCapable = s.wheelCapable := by
  rw [h]
theorem EnvOnly.packetSize_eq {s t : State} {e : List Access} (h : EnvOnly s t e) : t.packetSize = s.packetSize := by
  rw [h]

/-- Accesses from the state with the wheel configured keep all but the configuration pair. -/
def EnvOrWheel (s t : State) (ext : List Access) : Prop := EnvOnly s t ext ∨ EnvOnly (configureWheel s) t ext

namespace EnvOrWheel

variable {s t u : State} {e f : List Access}

theorem history_eq (h : EnvOrWheel s t e) : t.history = s.history ++ e := h.elim EnvOnly.history_eq EnvOnly.history_eq
theorem cfg_eq (h : EnvOrWheel s t e) : t.cfg = s.cfg := h.elim EnvOnly.cfg_eq EnvOnly.cfg_eq
theorem seq_eq (h : EnvOrWheel s t e) : t.seq = s.seq := h.elim EnvOnly.seq_eq EnvOnly.seq_eq
theorem session_eq (h : EnvOrWheel s t e) : t.session = s.session := h.elim EnvOnly.session_eq EnvOnly.session_eq
theorem results_eq (h : EnvOrWheel s t e) : t.results = s.results := h.elim EnvOnly.results_eq EnvOnly.results_eq

theorem keeps (h : EnvOrWheel s t e) : Keeps s t :=
  h.elim EnvOnly.keeps fun h => (configureWheel_keeps s).trans h.keeps

/-- The configuration pair is left alone or set. -/
theorem pair_eq (h : EnvOrWheel s t e) :
    t.wheelCapable = s.wheelCapable ∧ t.packetSize = s.packetSize ∨ t.wheelCapable = true ∧ t.packetSize = .four := by
  rcases h with h | h <;> rw [h]
  · exact .inl ⟨rfl, rfl⟩
  · exact .inr ⟨rfl, rfl⟩

theorem trans (h : EnvOrWheel s t e) (k : EnvOnly t u f) : EnvOrWheel s u (e ++ f) :=
  h.imp (·.trans k) (·.trans k)

/-- Accesses before the configuration pair is set may as well come after it. -/
theorem of_trans (h : EnvOnly s t e) (k : EnvOrWheel t u f) : EnvOrWheel s u (e ++ f) := by
  refine k.imp h.trans fun k => EnvOnly.trans ?_ k
  unfold EnvOnly at *
  rw [h]; rfl

end EnvOrWheel

/-! ### INIT -/

/-- The sites a Timeout of INIT can be named by, step 1 under `timeout` only. -/
def initSite (c : Config) (site : Site) : Prop :=
  site = .initSetDefaults ∨ site = .initEnableStream ∨ site = .initEnablePort ∧ c.wrExhaust = .timeout

/-- INIT ends in step 1, in step 2, or with step 6 after the probe. -/
theorem initRun_cases (s : State) :
    (∃ e s1, enablePort s = (.error e, s1) ∧ initRun s = (.error e, s1)) ∨
      (∃ s1 e s2, enablePort s = (.ok (), s1) ∧ sendMandatory .initSetDefaults s1.cfg.cSetDefaults s1 = (.error e, s2) ∧
        initRun s = (.error e, s2)) ∨
      ∃ s1 s2, enablePort s = (.ok (), s1) ∧ sendMandatory .initSetDefaults s1.cfg.cSetDefaults s1 = (.ok (), s2) ∧
        initRun s = sendMandatory .initEnableStream (probeStep s2).cfg.cEnableStream (probeStep s2) := by
  unfold initRun
  rcases enablePort s with ⟨e | _, s1⟩
  · exact .inl ⟨e, s1, rfl, rfl⟩
  · rcases h2 : sendMandatory .initSetDefaults s1.cfg.cSetDefaults s1 with ⟨e | _, s2⟩
    · exact .inr (.inl ⟨s1, e, s2, rfl, h2, by simp [h2]⟩)
    · exact .inr (.inr ⟨s1, s2, rfl, h2, by simp [h2]⟩)

theorem probeStep_envOrWheel (s : State) :
    ∃ ext, EnvOrWheel s (probeStep s) ext ∧
      ext.length ≤ 7 * (2 * s.cfg.wLimit + s.cfg.rLimit + 3) + s.cfg.rLimit + 1 := by
  obtain ⟨ext, hlen, henv⟩ := probeStep_spec s
  exact ⟨ext, henv.imp id And.left, hlen⟩

/-- INIT moves the environment's side within its budget, sets at most the configuration pair, and fails with the Timeout of a
mandatory step only. -/
theorem initRun_spec (s : State) :
    ∃ ext, EnvOrWheel s (initRun s).2 ext ∧ ext.length ≤ 19 * s.cfg.wLimit + 10 * s.cfg.rLimit + 29 ∧
      ((initRun s).1 = .ok () ∨ ∃ site, (initRun s).1 = .error (.timeout site) ∧ initSite s.cfg site) := by
  obtain ⟨e1, henv1, hlen1, hr1⟩ := enablePort_spec s
  rcases initRun_cases s with ⟨e, s1, h1, h⟩ | ⟨s1, e, s2, h1, h2, h⟩ | ⟨s1, s2, h1, h2, h⟩ <;>
    rw [h1] at henv1 hr1 <;> rw [h]
  · refine ⟨e1, .inl henv1, by omega, .inr ?_⟩
    rcases hr1 with ⟨he, _⟩ | ⟨he, hx, _⟩
    · cases he
    · exact ⟨_, he, .inr (.inr ⟨rfl, hx⟩)⟩
  all_goals
    obtain ⟨e2, henv2, hlen2, hr2⟩ := sendMandatory_spec .initSetDefaults s1.cfg.cSetDefaults s1
    rw [h2] at henv2 hr2
    rw [henv1.cfg_eq] at hlen2
  · refine ⟨e1 ++ e2, .inl (henv1.trans henv2), by rw [List.length_append]; omega, .inr ?_⟩
    rcases hr2 with he | he
    · cases he
    · exact ⟨_, he, .inl rfl⟩
  · obtain ⟨e3, henv3, hlen3⟩ := probeStep_envOrWheel s2
    obtain ⟨e4, henv4, hlen4, hr4⟩ :=
      sendMandatory_spec .initEnableStream (probeStep s2).cfg.cEnableStream (probeStep s2)
    rw [henv3.cfg_eq] at hlen4
    rw [henv2.cfg_eq, henv1.cfg_eq] at hlen3 hlen4
    refine ⟨e1 ++ e2 ++ (e3 ++ e4), .of_trans (henv1.trans henv2) (henv3.trans henv4), ?_, ?_⟩
    · simp only [List.length_append]; omega
    · exact hr4.imp id fun he => ⟨_, he, .inr (.inl rfl)⟩

/-! ### Where the accesses go -/

/-- An access at one of the two ports; the command port gets the two controller commands only (10_state.md rule R19). -/
def PortAccess (c : Config) (x : Access) : Prop :=
  (∃ v, x = .rd c.portStcmd v) ∨ (∃ v, x = .rd c.portData v) ∨ (∃ v, x = .wr c.portData v) ∨
    x = .wr c.portStcmd c.cEnableAux ∨ x = .wr c.portStcmd c.cFwdAux

/-- Between `s` and `t` only such accesses were made. -/
def PortsOnly (s t : State) : Prop :=
  t.cfg = s.cfg ∧ ∃ acc, t.history = s.history ++ acc ∧ ∀ x ∈ acc, PortAccess s.cfg x

namespace PortsOnly

variable {s t u : State}

theorem of_history_eq (hc : t.cfg = s.cfg) (h : t.history = s.history) : PortsOnly s t :=
  ⟨hc, [], h.trans (List.append_nil _).symm, nofun⟩

theorem of_envOnly {ext : List Access} (h : EnvOnly s t ext) (ha : ∀ x ∈ ext, PortAccess s.cfg x) : PortsOnly s t :=
  ⟨h.cfg_eq, ext, h.history_eq, ha⟩

theorem trans (h : PortsOnly s t) (k : PortsOnly t u) : PortsOnly s u := by
  obtain ⟨hc, e, he, ha⟩ := h
  obtain ⟨kc, f, hf, hb⟩ := k
  refine ⟨kc.trans hc, e ++ f, by rw [hf, he, List.append_assoc], fun x hx => ?_⟩
  rcases List.mem_append.1 hx with hx | hx
  · exact ha x hx
  · exact hc ▸ hb x hx

end PortsOnly

theorem PortAccess.of_status {c : Config} {x : Access} (h : ∃ v, x = .rd c.portStcmd v) : PortAccess c x := .inl h

theorem wrcmd_portsOnly (b : Byte) (s : State) : PortsOnly s (wrcmd b s).2 := by
  obtain ⟨ext, henv, _, hres⟩ := wrcmd_spec b s
  have hfwd : PortAccess s.cfg (.wr s.cfg.portStcmd s.cfg.cFwdAux) := .inr (.inr (.inr (.inr rfl)))
  have hpayload : PortAccess s.cfg (.wr s.cfg.portData b) := .inr (.inr (.inl ⟨b, rfl⟩))
  refine .of_envOnly henv fun x hx => ?_
  rcases hres with ⟨_, r1, r2, hr, rfl⟩ | ⟨_, ⟨_, hr⟩ | ⟨_, r1, r2, hr, rfl⟩⟩
  · simp only [List.mem_append, List.mem_singleton] at hx hr
    rcases hx with ((hx | rfl) | hx) | rfl
    · exact .of_status (hr x (.inl hx))
    · exact hfwd
    · exact .of_status (hr x (.inr hx))
    · exact hpayload
  · exact .of_status (hr x hx)
  · simp only [List.mem_append, List.mem_singleton] at hx hr
    rcases hx with (hx | rfl) | hx
    · exact .of_status (hr x (.inl hx))
    · exact hfwd
    · exact .of_status (hr x (.inr hx))

theorem rdrsp_portsOnly (s : State) : PortsOnly s (rdrsp s).2 := by
  obtain ⟨reads, ext, henv, _, hr, hres⟩ := pollLoop_spec s.cfg.rLimit s
  refine .of_envOnly henv fun x hx => ?_
  rcases hres with ⟨v, _, rfl⟩ | ⟨_, rfl, _⟩
  · rcases List.mem_append.1 hx with hx | hx
    · exact .of_status (hr x hx)
    · exact .inr (.inl ⟨v, List.mem_singleton.1 hx⟩)
  · exact .of_status (hr x hx)

theorem send_portsOnly (b : Byte) (s : State) : PortsOnly s (send b s).2 := by
  have h := wrcmd_portsOnly b s
  unfold send
  generalize wrcmd b s = r at h ⊢
  obtain ⟨_ | _, s1⟩ := r
  · exact h
  · exact h.trans (rdrsp_portsOnly s1)

theorem sendMandatory_portsOnly (site : Site) (b : Byte) (s : State) : PortsOnly s (sendMandatory site b s).2 := by
  have h := send_portsOnly b s
  unfold sendMandatory
  generalize send b s = r at h ⊢
  obtain ⟨_ | _, s1⟩ := r <;> exact h

theorem enablePort_portsOnly (s : State) : PortsOnly s (enablePort s).2 := by
  obtain ⟨ext, henv, _, hres⟩ := enablePort_spec s
  refine .of_envOnly henv fun x hx => ?_
  rcases hres with ⟨_, r, hr, rfl⟩ | ⟨_, _, hr⟩
  · rcases List.mem_append.1 hx with hx | hx
    · exact .of_status (hr x hx)
    · exact .inr (.inr (.inr (.inl (List.mem_singleton.1 hx))))
  · exact .of_status (hr x hx)

theorem sendRates_portsOnly (l : List Byte) (s : State) : PortsOnly s (sendRates l s).2 := by
  induction l generalizing s with
  | nil => exact .of_history_eq rfl rfl
  | cons r rest ih =>
    have h1 := send_portsOnly s.cfg.cSetRate s
    unfold sendRates
    generalize send s.cfg.cSetRate s = r at h1 ⊢
    obtain ⟨_ | _, s1⟩ := r
    · exact h1
    · have h2 := h1.trans (send_portsOnly r s1)
      dsimp only
      generalize send r s1 = a at h2 ⊢
      obtain ⟨_ | _, s2⟩ := a
      · exact h2
      · exact h2.trans (ih s2)

theorem probeStep_portsOnly (s : State) : PortsOnly s (probeStep s) := by
  have h1 := sendRates_portsOnly rateSeq s
  have hprobe : PortsOnly s (probe s).2 := by
    unfold probe
    generalize sendRates rateSeq s = r at h1 ⊢
    obtain ⟨_ | _, s1⟩ := r
    · exact h1
    · have h2 := h1.trans (send_portsOnly s1.cfg.cGetId s1)
      dsimp only
      generalize send s1.cfg.cGetId s1 = r at h2 ⊢
      obtain ⟨_ | _, s2⟩ := r
      · exact h2
      · exact h2.trans (rdrsp_portsOnly s2)
  unfold probeStep
  generalize probe s = r at hprobe ⊢
  obtain ⟨_ | id, s1⟩ := r
  · exact hprobe
  · refine hprobe.trans ?_
    dsimp only
    rw [applyId_eq]
    split_ifs <;> exact .of_history_eq rfl rfl

theorem initRun_portsOnly (s : State) : PortsOnly s (initRun s).2 := by
  have h1 := enablePort_portsOnly s
  rcases initRun_cases s with ⟨e, s1, hp, h⟩ | ⟨s1, e, s2, hp, hd, h⟩ | ⟨s1, s2, hp, hd, h⟩ <;> rw [hp] at h1 <;> rw [h]
  · exact h1
  all_goals
    have h2 := h1.trans (sendMandatory_portsOnly .initSetDefaults s1.cfg.cSetDefaults s1)
    rw [hd] at h2
  · exact h2
  · exact (h2.trans (probeStep_portsOnly s2)).trans (sendMandatory_portsOnly _ _ _)

/-! ### What a transport operation does -/

/-- A result WRCMD, RDRSP or INIT may deliver. -/
def Result.ofTransport : Result → Bool
  | .ok => true
  | .okByte _ => true
  | .err (.timeout _) => true
  | .err .unsupportedFeature => false
  | .event _ => false

/-- `t` is `s` after a whole transport operation. -/
structure TransportEnd (s t : State) : Prop extends Keeps s t where
  seq : t.seq = s.seq
  pair : t.wheelCapable = s.wheelCapable ∧ t.packetSize = s.packetSize ∨ t.wheelCapable = true ∧ t.packetSize = .four
  results : ∃ r, t.results = s.results ++ [r] ∧ r.ofTransport = true
  accesses : PortsOnly s t

theorem EnvOrWheel.deliver_end {s u : State} {ext : List Access} {r : Result} (h : EnvOrWheel s u ext)
    (ha : PortsOnly s u) (hr : r.ofTransport = true) : TransportEnd s (deliver r u) :=
  { h.keeps.trans (deliver_keeps u r) with
    seq := h.seq_eq
    pair := h.pair_eq
    results := ⟨r, congrArg (· ++ [r]) h.results_eq, hr⟩
    accesses := ha.trans (.of_history_eq rfl rfl) }

theorem finishUnit_wrcmd_end (b : Byte) (s : State) : TransportEnd s (finishUnit (wrcmd b s)) := by
  obtain ⟨ext, henv, _, hres⟩ := wrcmd_spec b s
  have ha := wrcmd_portsOnly b s
  rcases h : wrcmd b s with ⟨_ | _, u⟩ <;> rw [h] at henv hres ha
  · rcases hres with ⟨he, _⟩ | ⟨_, ⟨he, _⟩ | ⟨he, _⟩⟩ <;> cases he <;> exact EnvOrWheel.deliver_end (.inl henv) ha rfl
  · exact EnvOrWheel.deliver_end (.inl henv) ha rfl

theorem finishByte_rdrsp_end (s : State) : TransportEnd s (finishByte (rdrsp s)) := by
  obtain ⟨ext, henv, _, _, hres⟩ := rdrsp_spec s
  have ha := rdrsp_portsOnly s
  rcases h : rdrsp s with ⟨_ | _, u⟩ <;> rw [h] at henv hres ha
  · rcases hres with ⟨_, he, _⟩ | he <;> cases he; exact EnvOrWheel.deliver_end (.inl henv) ha rfl
  · exact EnvOrWheel.deliver_end (.inl henv) ha rfl

theorem finishInit_initRun_end (s : State) : TransportEnd s (finishInit (initRun s)) := by
  obtain ⟨ext, henv, _, hres⟩ := initRun_spec s
  have ha := initRun_portsOnly s
  rcases h : initRun s with ⟨_ | _, u⟩ <;> rw [h] at henv hres ha
  · rcases hres with he | ⟨_, he, _⟩ <;> cases he; exact henv.deliver_end ha rfl
  · exact { henv.deliver_end ha rfl with }

/-! ### What an instruction does -/

/-- `u` is the state in which a packet is decoded: `s` itself, or `s` with the byte of a completing FEED stored. -/
def HandedOver (s u : State) : Prop := u = s ∨ ∃ b, u = feedComplete b s

/-- What the instruction `i` may have done to `s`. -/
inductive Effect (s : State) : Instr → State → Prop
  | reset (a : Byte) : Effect s (.reset a) (resetRegisters s)
  | transport {i : Instr} {t : State} (h : TransportEnd s t) : Effect s i t
  | accumulated {i : Instr} (b : Byte) (hl : s.lastSlot = false) : Effect s i (feedAccumulate b s)
  | dropped {i : Instr} {u : State} (hu : HandedOver s u) : Effect s i (finishPacket (u, none))
  | decoded {i : Instr} {u : State} (hu : HandedOver s u) (flags xb yb zb : Byte) :
    Effect s i (finishPacket (decodeBody flags xb yb zb u))
  | emitted {i : Instr} {p : Port} {b : Byte} (h : emission s.cfg i = some (p, b)) : Effect s i (writePort p b s)

/-- A packet class that completes drops the packet or decodes it. -/
theorem exec_packet_next {i : Instr} {s t : State} (hi : Claims.isPacket i = true) (h : exec i s = .next t) :
    t = finishPacket (s, none) ∨ ∃ flags xb yb zb, t = finishPacket (decodeBody flags xb yb zb s) := by
  cases i <;> cases hi
  case pkt3Drop => exact .inl (acceptPacket_next h).2
  case pkt3Exec f x y =>
    exact .inr ⟨f, x, y, s.buf.b3, (acceptPacket_next (run := fun s => finishPacket (decodeBody f x y s.buf.b3 s)) h).2⟩
  case pkt4Drop => exact .inl (acceptPacket_next h).2
  case pkt4Exec f x y z =>
    exact .inr ⟨f, x, y, z, (acceptPacket_next (run := fun s => finishPacket (decodeBody f x y z s)) h).2⟩

/-- The row of an emitted byte is the write of its byte to its port. -/
theorem exec_of_emission {i : Instr} {s : State} {p : Port} {b : Byte} (h : emission s.cfg i = some (p, b)) :
    exec i s = .next (writePort p b s) := by
  cases i <;> cases h <;> rfl

theorem Effect.of_feed {b : Byte} {s t : State} (h : execFeed b s = .next t) : Effect s (.feed b) t := by
  rcases execFeed_next h with ⟨hl, rfl⟩ | ⟨_, _, rfl⟩ | ⟨_, _, flags, xb, yb, zb, rfl⟩
  · exact .accumulated b hl
  · exact .dropped (.inr ⟨b, rfl⟩)
  · exact .decoded (.inr ⟨b, rfl⟩) flags xb yb zb

/-- Everything an instruction can do. -/
theorem Effect.of_exec {i : Instr} {s t : State} (h : exec i s = .next t) : Effect s i t := by
  have packet (hi : Claims.isPacket i = true) : Effect s i t := by
    rcases exec_packet_next hi h with rfl | ⟨flags, xb, yb, zb, rfl⟩
    · exact .dropped (.inl rfl)
    · exact .decoded (.inl rfl) flags xb yb zb
  have cmd {p : Port} {b : Byte} (hi : emission s.cfg i = some (p, b)) : Effect s i t := by
    cases (exec_of_emission hi).symm.trans h; exact .emitted hi
  cases i with
  | reset a => cases execReset_next (a := a) h; exact .reset a
  | init a => cases execInit_next (a := a) h; exact .transport (finishInit_initRun_end s)
  | wrcmd b => cases execWrcmd_next (b := b) h; exact .transport (finishUnit_wrcmd_end b s)
  | rdrsp a => cases execRdrsp_next (a := a) h; exact .transport (finishByte_rdrsp_end s)
  | feed b => exact .of_feed h
  | pkt3Drop f x y => exact packet rfl
  | pkt3Exec f x y => exact packet rfl
  | pkt4Drop f x y z => exact packet rfl
  | pkt4Exec f x y z => exact packet rfl
  | cEnableAux => exact cmd rfl
  | cFwdAux => exact cmd rfl
  | cSetDefaults => exact cmd rfl
  | cSetRate => exact cmd rfl
  | rate200 => exact cmd rfl
  | rate100 => exact cmd rfl
  | rate80 => exact cmd rfl
  | cGetId => exact cmd rfl
  | cEnableStream => exact cmd rfl

end Sys2Proof.Machine
end

