-- ==== Sys2Proof/Proofs/Buttons.lean ====
section
/-! PROOFS. 43_decoder.md rule R146, P-c and P-d: a button event is reported exactly when its held register changes, for one
packet and, by induction over the instructions, along every run without RESET. -/

namespace Sys2Proof.Machine

open Sys2Proof.Claims

/-! ### One packet -/

@[simp] theorem finishPacket_results (r : State × Option Event) :
    (finishPacket r).results = r.1.results ++ [.event r.2] := rfl
@[simp] theorem finishPacket_held (r : State × Option Event) (b : Button) : (finishPacket r).held b = r.1.held b := rfl
@[simp] theorem accumulate_held (dx dy : I16) (s : State) (b : Button) : (accumulate dx dy s).held b = s.held b := rfl

@[simp] theorem decodeBody_results (flags xb yb zb : Byte) (s : State) :
    (decodeBody flags xb yb zb s).1.results = s.results := by
  obtain ⟨_, _, _, hs⟩ := decodeBody_state s flags xb yb zb
  rw [hs]

/-- A result that is no button event is a wheel event while `wheel_capable`, or a nonzero Move. -/
theorem wheelOrMove_cases {wheel : Bool} {zb : Byte} {dx dy : I16} {e : Event}
    (h : (if wheel then wheelEvent zb else none).or (moveEvent dx dy) = some e) :
    (wheel = true ∧ (e = .wheelUp ∨ e = .wheelDown)) ∨ (e = .move dx dy ∧ (dx ≠ 0 ∨ dy ≠ 0)) := by
  rcases Option.or_eq_some_iff.1 h with hw | ⟨_, hm⟩
  · cases wheel
    · cases hw
    · simp only [if_true, wheelEvent] at hw
      split_ifs at hw <;> cases hw <;> simp
  · unfold moveEvent at hm
    split_ifs at hm with hne
    cases hm
    exact .inr ⟨rfl, hne⟩

/-- `e` reports an edge of `b` exactly when the held register goes from `before` to another value `after`. -/
def ReportsEdge (b : Button) (e : Option Event) (before after : Bool) : Prop :=
  (e = some (.buttonPressed b) ↔ before = false ∧ after = true) ∧
    (e = some (.buttonReleased b) ↔ before = true ∧ after = false)

/-- No button event goes with an unchanged register. -/
theorem ReportsEdge.of_no_button {b : Button} {e : Option Event} (h : Bool) (hp : e ≠ some (.buttonPressed b))
    (hr : e ≠ some (.buttonReleased b)) : ReportsEdge b e h h := by
  constructor <;> simp [*]

/-- DECODE reports the edge of the one register it writes. -/
theorem decodeBody_reportsEdge (flags xb yb zb : Byte) (s : State) (b : Button) :
    ReportsEdge b (decodeBody flags xb yb zb s).2 (s.held b) ((decodeBody flags xb yb zb s).1.held b) := by
  cases hedge : firstEdge flags s with
  | none =>
    rw [decodeBody_noEdge s hedge]
    refine .of_no_button (s.held b) (fun h => ?_) (fun h => ?_) <;>
      rcases wheelOrMove_cases h with ⟨_, h | h⟩ | ⟨h, _⟩ <;> cases h
  | some c =>
    have hne := firstEdge_some s hedge
    rw [decodeBody_edge s hedge, held_setHeld]
    by_cases hc : b = c
    · subst hc
      cases hd : buttonDown s.cfg flags b <;> cases hh : s.held b <;> simp_all [ReportsEdge, edgeEvent]
    · rw [if_neg hc, accumulate_held]
      refine .of_no_button (s.held b) ?_ ?_ <;> unfold edgeEvent <;> split_ifs <;> simp [Ne.symm hc]

/-! ### Runs -/

/-- The new results report each change of the held register of `b`, which changes at most once. -/
def HeldStep (b : Button) (s t : State) : Prop :=
  ∃ new, t.results = s.results ++ new ∧
    (edgesOf b new = [] ∧ t.held b = s.held b ∨ edgesOf b new = [!s.held b] ∧ t.held b = !s.held b)

theorem edgesOf_append (b : Button) (l m : List Result) : edgesOf b (l ++ m) = edgesOf b l ++ edgesOf b m :=
  List.filterMap_append

theorem edgesOf_event (b : Button) (e : Option Event) :
    edgesOf b [.event e] =
      if e = some (.buttonPressed b) then [true] else if e = some (.buttonReleased b) then [false] else [] := by
  cases e with
  | none => rfl
  | some e =>
    cases e with
    | move dx dy => rfl
    | wheelUp => rfl
    | wheelDown => rfl
    | buttonPressed c => by_cases hc : c = b <;> simp [edgesOf, hc]
    | buttonReleased c => by_cases hc : c = b <;> simp [edgesOf, hc]

theorem edgesOf_ofTransport (b : Button) {r : Result} (h : r.ofTransport = true) : edgesOf b [r] = [] := by
  cases r with
  | event e => cases h
  | ok => rfl
  | okByte v => rfl
  | err e => rfl

theorem HeldStep.of_reportsEdge {b : Button} {s t : State} {e : Option Event} (hres : t.results = s.results ++ [.event e])
    (h : ReportsEdge b e (s.held b) (t.held b)) : HeldStep b s t := by
  refine ⟨_, hres, ?_⟩
  obtain ⟨hp, hr⟩ := h
  rw [edgesOf_event]
  simp only [hp, hr]
  cases s.held b <;> cases t.held b <;> simp

theorem Keeps.held {s t : State} (h : Keeps s t) (b : Button) : t.held b = s.held b := by
  cases b
  · exact h.heldL
  · exact h.heldR
  · exact h.heldM

theorem HandedOver.results_held {s u : State} (h : HandedOver s u) :
    u.results = s.results ∧ ∀ b, u.held b = s.held b := by
  rcases h with rfl | ⟨b, rfl⟩ <;> exact ⟨rfl, fun _ => rfl⟩

/-- Every instruction but RESET reports the change of a held register it makes. -/
theorem Effect.heldStep {i : Instr} {s t : State} (h : Effect s i t) (hi : ∀ a, i ≠ .reset a) (b : Button) :
    HeldStep b s t := by
  cases h with
  | reset a => exact absurd rfl (hi a)
  | transport h =>
    obtain ⟨r, hres, hr⟩ := h.results
    exact ⟨[r], hres, .inl ⟨edgesOf_ofTransport b hr, h.toKeeps.held b⟩⟩
  | accumulated => exact ⟨_, rfl, .inl ⟨rfl, rfl⟩⟩
  | dropped hu =>
    obtain ⟨hres, hheld⟩ := hu.results_held
    exact ⟨_, by rw [finishPacket_results, hres], .inl ⟨rfl, hheld b⟩⟩
  | decoded hu flags xb yb zb =>
    obtain ⟨hres, hheld⟩ := hu.results_held
    refine .of_reportsEdge (by rw [finishPacket_results, decodeBody_results, hres]) ?_
    rw [finishPacket_held, ← hheld]
    exact decodeBody_reportsEdge flags xb yb zb _ b
  | emitted => exact ⟨[], (List.append_nil _).symm, .inl ⟨rfl, rfl⟩⟩

/-- The instructions of a run that ends, one after the other. -/
theorem execAll_cons_next {i : Instr} {rest : List Instr} {s t : State} (h : execAll (i :: rest) s = .next t) :
    ∃ s1, exec i s = .next s1 ∧ execAll rest s1 = .next t := by
  rw [execAll] at h
  cases hi : exec i s with
  | next s1 => exact ⟨s1, rfl, by rwa [hi] at h⟩
  | fault f => rw [hi] at h; cases h
  | refused r => rw [hi] at h; cases h

theorem execAll_cons {i : Instr} {rest : List Instr} {s s1 : State} (h : exec i s = .next s1) :
    execAll (i :: rest) s = execAll rest s1 := by
  rw [execAll, h]

end Sys2Proof.Machine

namespace Sys2Proof.Proofs

open Sys2Proof.Machine Sys2Proof.Claims

/-- Settles O30: by induction over the run; each instruction reports the change it makes. -/
theorem buttonEventsAlternate : Obligations.ButtonEventsAlternate := by
  unfold Obligations.ButtonEventsAlternate
  intro run
  induction run with
  | nil =>
    rintro s t b - ⟨⟩
    exact ⟨[], (List.append_nil _).symm, rfl, rfl⟩
  | cons i rest ih =>
    intro s t b hrun h
    obtain ⟨s1, hi, hrest⟩ := execAll_cons_next h
    obtain ⟨new1, hres1, hstep⟩ := (Effect.of_exec hi).heldStep (hrun i List.mem_cons_self) b
    obtain ⟨new2, hres2, halt, hheld⟩ := ih s1 t b (fun j hj => hrun j (List.mem_cons_of_mem i hj)) hrest
    refine ⟨new1 ++ new2, by rw [hres2, hres1, List.append_assoc], ?_⟩
    rw [edgesOf_append, hheld]
    rcases hstep with ⟨hedges, hsame⟩ | ⟨hedges, hflip⟩
    · rw [hedges, List.nil_append, ← hsame]
      exact ⟨halt, rfl⟩
    · rw [hedges, List.singleton_append, ← hflip, List.getLastD_cons, alternates, halt, hflip]
      exact ⟨by cases s.held b <;> rfl, rfl⟩

/-- Settles O29: a dropped packet changes nothing, a decoded one reports the register it writes. -/
theorem heldChangesExactlyWithItsEvent : Obligations.HeldChangesExactlyWithItsEvent := by
  unfold Obligations.HeldChangesExactlyWithItsEvent
  intro i s t hi h
  rcases exec_packet_next hi h with rfl | ⟨flags, xb, yb, zb, rfl⟩
  · exact ⟨none, rfl, fun b => ReportsEdge.of_no_button (s.held b) nofun nofun⟩
  · exact ⟨_, by rw [finishPacket_results, decodeBody_results], decodeBody_reportsEdge flags xb yb zb s⟩

end Sys2Proof.Proofs
end

