-- ==== Sys2Proof/Proofs/Sequencer.lean ====
section
/-! PROOFS. What one port access of an operation in progress does, said once: it makes that access, moves the sequencer to a
legal position from a legal one, and lowers a bound on the accesses still to come (40_transport.md rules R88, R89). -/

namespace Sys2Proof.Machine

/-! ### How many accesses may still come -/

/-- At most so many accesses, and one more step for each wait and poll, make up a SEND. -/
def sendCost (c : Config) : Nat := 2 * (c.wLimit + 1) + (c.rLimit + 1) + 3

/-- The same for a poll and its data read. -/
def pollCost (c : Config) : Nat := (c.rLimit + 1) + 1

/-- The same for what INIT does after the answer to a byte (41_initializer.md rule R101). -/
def InitStage.cost (c : Config) : InitStage → Nat
  | .setDefaults => 8 * sendCost c + pollCost c
  | .rateCmd .r200 => 7 * sendCost c + pollCost c
  | .rateArg .r200 => 6 * sendCost c + pollCost c
  | .rateCmd .r100 => 5 * sendCost c + pollCost c
  | .rateArg .r100 => 4 * sendCost c + pollCost c
  | .rateCmd .r80 => 3 * sendCost c + pollCost c
  | .rateArg .r80 => 2 * sendCost c + pollCost c
  | .getId => sendCost c + pollCost c
  | .readId => sendCost c
  | .stream => 0

def Caller.cost (c : Config) : Caller → Nat
  | .host => 0
  | .init stage => stage.cost c

/-- The same for what follows a write. -/
def AfterWrite.cost (c : Config) : AfterWrite → Nat
  | .done => 0
  | .enabled => 9 * sendCost c + pollCost c
  | .forwarded _ k => (c.wLimit + 1) + 1 + pollCost c + k.cost c
  | .sent k => pollCost c + k.cost c

/-- The same for the operation in progress; a packet handed over takes one step. -/
def Seq.cost (c : Config) : Seq → Nat
  | .idle => 0
  | .decode => 1
  | .enableWait cnt => (c.wLimit - cnt + 1) + 1 + AfterWrite.enabled.cost c
  | .emit _ _ k => 1 + k.cost c
  | .wait1 cnt payload k => (c.wLimit - cnt + 1) + 1 + (AfterWrite.forwarded payload k).cost c
  | .wait2 cnt _ k => (c.wLimit - cnt + 1) + 1 + (AfterWrite.sent k).cost c
  | .poll cnt k => (c.rLimit - cnt + 1) + 1 + k.cost c
  | .dataRead k => 1 + k.cost c

/-- Inside the probe step 6 is still to come, at least. -/
theorem InitStage.sendCost_le_cost (c : Config) {stage : InitStage} (h : stage ≠ .setDefaults) (h' : stage ≠ .stream) :
    sendCost c ≤ stage.cost c := by
  rcases stage with _ | (_ | _ | _) | (_ | _ | _) | _ | _ | _ <;> simp_all only [InitStage.cost, ne_eq, not_true] <;> omega

/-! ### Moves of the sequencer -/

/-- `t` is `s` with the sequencer moved, legally if `ok`, to a position that costs at most `n`; transport results may have been
delivered, the session marked and the configuration pair set. -/
structure Moved (ok : Prop) (n : Nat) (s t : State) : Prop where
  frame : t = { s with
    seq := t.seq, results := t.results, session := t.session, wheelCapable := t.wheelCapable, packetSize := t.packetSize }
  results : ∃ rs, t.results = s.results ++ rs ∧ ∀ r ∈ rs, r.ofTransport = true
  pair : t.wheelCapable = s.wheelCapable ∧ t.packetSize = s.packetSize ∨ t.wheelCapable = true ∧ t.packetSize = .four
  legal : ok → t.seq.legal s.cfg = true
  cost : t.seq.cost s.cfg ≤ n

namespace Moved

variable {ok ok' : Prop} {m n : Nat} {s t u : State}

theorem mono (h : Moved ok m s t) (hok : ok' → ok) (hn : m ≤ n) : Moved ok' n s t :=
  { h with legal := h.legal ∘ hok, cost := h.cost.trans hn }

theorem setSeq {q : Seq} (hl : ok → q.legal s.cfg = true) (hc : q.cost s.cfg ≤ n) : Moved ok n s (setSeq q s) :=
  ⟨rfl, ⟨[], (List.append_nil _).symm, nofun⟩, .inl ⟨rfl, rfl⟩, hl, hc⟩

theorem endOp {r : Result} (hr : r.ofTransport = true) : Moved ok n s (endOp r s) :=
  ⟨rfl, ⟨[r], rfl, fun _ h => List.mem_singleton.1 h ▸ hr⟩, .inl ⟨rfl, rfl⟩, fun _ => rfl, Nat.zero_le n⟩

theorem endTimeout (site : Site) : Moved ok n s (endTimeout site s) := endOp (r := .err (.timeout site)) rfl

/-- A move after the configuration pair was set, or the session marked. -/
theorem of_configureWheel (h : Moved ok n (configureWheel s) t) : Moved ok n s t where
  frame := h.frame
  results := h.results
  pair := .inr (h.pair.elim id id)
  legal := h.legal
  cost := h.cost

theorem of_markConfigured (h : Moved ok n (markConfigured s) t) : Moved ok n s t :=
  ⟨h.frame, h.results, h.pair, h.legal, h.cost⟩

end Moved

variable (s : State)

theorem beginWrite_stream : beginStream s = beginWrite s.cfg.cEnableStream (.init .stream) s := rfl

theorem toForward_moved (b : Byte) (c : Caller) :
    Moved (c.writes = true) (1 + (AfterWrite.forwarded b c).cost s.cfg) s (toForward b c s) :=
  .setSeq (by simp [Seq.legal]) le_rfl

/-- The last SEND begins whatever the budget is. -/
theorem beginStream_moved : Moved True (sendCost s.cfg) s (beginStream s) := by
  unfold beginStream
  split_ifs with hw
  · exact .setSeq (fun _ => by simp [Seq.legal, hw, Caller.writes])
      (by simp only [Seq.cost, AfterWrite.cost, Caller.cost, InitStage.cost, sendCost, pollCost]; omega)
  · split
    · refine (toForward_moved s _ _).mono (fun _ => rfl) ?_
      simp only [AfterWrite.cost, Caller.cost, InitStage.cost, sendCost, pollCost]; omega
    · exact .endTimeout _

theorem timeoutFor_moved (c : Caller) (site : Site) : Moved True (c.cost s.cfg) s (timeoutFor c site s) := by
  have stream {stage : InitStage} (h : stage ≠ .setDefaults) (h' : stage ≠ .stream) :
      Moved True (stage.cost s.cfg) s (beginStream s) :=
    (beginStream_moved s).mono id (stage.sendCost_le_cost s.cfg h h')
  rcases c with _ | (_ | r | r | _ | _ | _)
  · exact .endTimeout _
  · exact .endTimeout _
  · exact stream nofun nofun
  · exact stream nofun nofun
  · exact stream (stage := .getId) nofun nofun
  · exact stream (stage := .readId) nofun nofun
  · exact .endTimeout _

theorem exhausted1_moved (b : Byte) (c : Caller) :
    Moved (c.writes = true) (1 + (AfterWrite.forwarded b c).cost s.cfg) s (exhausted1 b c s) := by
  unfold exhausted1
  split
  · exact toForward_moved s b c
  · exact (timeoutFor_moved s c _).mono (fun _ => trivial) (by simp only [AfterWrite.cost]; omega)

theorem exhausted2_moved (b : Byte) (c : Caller) :
    Moved (c.writes = true) (1 + (AfterWrite.sent c).cost s.cfg) s (exhausted2 b c s) := by
  unfold exhausted2
  split
  · exact .setSeq id le_rfl
  · exact (timeoutFor_moved s c _).mono (fun _ => trivial) (by simp only [AfterWrite.cost]; omega)

theorem exhaustedEnable_moved : Moved True (1 + AfterWrite.enabled.cost s.cfg) s (exhaustedEnable s) := by
  unfold exhaustedEnable
  split
  · exact .setSeq (fun _ => by simp [Seq.legal]) le_rfl
  · exact .endTimeout _

theorem beginWrite_moved (b : Byte) (c : Caller) :
    Moved (c.writes = true) (sendCost s.cfg + c.cost s.cfg) s (beginWrite b c s) := by
  unfold beginWrite
  split_ifs with hw
  · exact .setSeq (fun h => by simp [Seq.legal, hw, h])
      (by simp only [Seq.cost, AfterWrite.cost, sendCost, pollCost]; omega)
  · exact (exhausted1_moved s b c).mono id (by simp only [AfterWrite.cost, sendCost, pollCost]; omega)

theorem beginWait2_moved (b : Byte) (c : Caller) :
    Moved (c.writes = true) ((AfterWrite.forwarded b c).cost s.cfg) s (beginWait2 b c s) := by
  unfold beginWait2
  split_ifs with hw
  · exact .setSeq (fun h => by simp [Seq.legal, hw, h]) (by simp only [Seq.cost, AfterWrite.cost]; omega)
  · exact (exhausted2_moved s b c).mono id (by simp only [AfterWrite.cost]; omega)

theorem beginPoll_moved (c : Caller) : Moved True (pollCost s.cfg + c.cost s.cfg) s (beginPoll c s) := by
  unfold beginPoll
  split_ifs with hr
  · exact .setSeq (fun _ => by simp [Seq.legal, hr]) (by simp only [Seq.cost, pollCost]; omega)
  · exact (timeoutFor_moved s c _).mono id (by omega)

/-- After the ID byte the last SEND begins, with the configuration pair set or not. -/
theorem beginStream_applyId_moved (v : Byte) : Moved True (sendCost s.cfg) s (beginStream (applyId v s)) := by
  rw [applyId_eq]
  split_ifs
  · exact .of_configureWheel (beginStream_moved (configureWheel s))
  · exact beginStream_moved s

theorem respondedFor_moved (c : Caller) (v : Byte) : Moved True (c.cost s.cfg) s (respondedFor c v s) := by
  have write {b : Byte} {stage : InitStage} {n : Nat} (hw : (Caller.init stage).writes = true)
      (hn : sendCost s.cfg + stage.cost s.cfg ≤ n) : Moved True n s (beginWrite b (.init stage) s) :=
    (beginWrite_moved s b (.init stage)).mono (fun _ => hw) hn
  rcases c with _ | (_ | (_ | _ | _) | (_ | _ | _) | _ | _ | _)
  · exact .endOp rfl
  · exact write rfl (by simp only [InitStage.cost, Caller.cost]; omega)
  · exact write rfl (by simp only [InitStage.cost, Caller.cost]; omega)
  · exact write rfl (by simp only [InitStage.cost, Caller.cost]; omega)
  · exact write rfl (by simp only [InitStage.cost, Caller.cost]; omega)
  · exact write rfl (by simp only [InitStage.cost, Caller.cost]; omega)
  · exact write rfl (by simp only [InitStage.cost, Caller.cost]; omega)
  · exact write rfl (by simp only [InitStage.cost, Caller.cost]; omega)
  · exact (beginPoll_moved s (.init .readId)).mono id (by simp only [InitStage.cost, Caller.cost]; omega)
  · exact beginStream_applyId_moved s v
  · exact .of_markConfigured (.endOp rfl)

/-- The caller of the write that `C_FWD_AUX` announces is one that writes. -/
def AfterWrite.callerWrites : AfterWrite → Bool
  | .forwarded _ c => c.writes
  | .done => true
  | .enabled => true
  | .sent _ => true

theorem afterWrite_moved (k : AfterWrite) : Moved (k.callerWrites = true) (k.cost s.cfg) s (afterWrite k s) := by
  rcases k with _ | _ | ⟨b, c⟩ | (_ | stage)
  · exact .setSeq (fun _ => rfl) le_rfl
  · exact (beginWrite_moved s _ _).mono (fun _ => rfl)
      (by simp only [Caller.cost, InitStage.cost, AfterWrite.cost]; omega)
  · exact beginWait2_moved s b c
  · exact .endOp rfl
  · exact (beginPoll_moved s _).mono (fun _ => trivial) le_rfl

/-! ### One access -/

theorem emit_legal {c : Config} {p : Port} {b : Byte} {k : AfterWrite} (h : (Seq.emit p b k).legal c = true) :
    PortAccess c (.wr (c.addr p) b) ∧ k.callerWrites = true := by
  cases p with
  | data =>
    refine ⟨.inr (.inr (.inl ⟨b, rfl⟩)), ?_⟩
    cases k with
    | done => rfl
    | enabled => cases h
    | forwarded _ _ => cases h
    | sent _ => rfl
  | stcmd =>
    cases k <;> simp only [Seq.legal, Bool.and_eq_true, Bool.or_eq_true, beq_iff_eq, reduceCtorEq] at h
    case done => exact ⟨by rcases h with rfl | rfl <;> simp [PortAccess, Config.addr], rfl⟩
    case enabled => exact ⟨by subst h; simp [PortAccess, Config.addr], rfl⟩
    case forwarded payload caller => exact ⟨by rw [h.1]; simp [PortAccess, Config.addr], h.2⟩

/-- `t` is `s` after one access and a move of the sequencer that lowers the cost; from a legal position the access is one of
the block's and the next position is legal. -/
def OneAccess (s t : State) : Prop :=
  ∃ s1 x n, EnvOnly s s1 [x] ∧ (s.seq.legal s.cfg = true → PortAccess s.cfg x) ∧ n < s.seq.cost s.cfg ∧
    Moved (s.seq.legal s.cfg = true) n s1 t

variable {s}

theorem OneAccess.of_status {ok : Prop} {t : State} {n : Nat} (h : Moved ok n (readStatus s).2 t)
    (hok : s.seq.legal s.cfg = true → ok) (hn : n < s.seq.cost s.cfg) : OneAccess s t :=
  ⟨_, _, n, portRead_envOnly s.cfg.portStcmd s, fun _ => .inl ⟨_, rfl⟩, hn, h.mono hok le_rfl⟩

/-- An operation in progress makes one access. -/
theorem microStep_oneAccess (h : s.seq.mayDecode = false) : OneAccess s (microStep s) := by
  have hstatus : (readStatus s).2.cfg = s.cfg := portRead_cfg s s.cfg.portStcmd
  have hdata : EnvOnly s (readData s).2 _ := portRead_envOnly s.cfg.portData s
  unfold microStep
  cases hq : s.seq with
  | idle => rw [hq] at h; cases h
  | decode => rw [hq] at h; cases h
  | emit p b k =>
    refine ⟨_, _, k.cost s.cfg, writePort_envOnly p b s, fun hl => ?_, by rw [hq, Seq.cost]; omega,
      (afterWrite_moved (writePort p b s) k).mono (fun hl => ?_) le_rfl⟩ <;> rw [hq] at hl
    · exact (emit_legal hl).1
    · exact (emit_legal hl).2
  | dataRead c =>
    exact ⟨_, _, c.cost s.cfg, hdata, fun _ => .inr (.inl ⟨_, rfl⟩), by rw [hq, Seq.cost]; omega,
      (respondedFor_moved (readData s).2 c _).mono (fun _ => trivial) (by rw [hdata.cfg_eq])⟩
  | enableWait cnt =>
    dsimp only
    split_ifs with hfull hmore
    · refine .of_status (ok := True) (.setSeq (fun _ => ?_) le_rfl) (fun _ => trivial) ?_
      · simpa [Seq.legal, hstatus] using hmore
      · rw [hq, hstatus]; simp only [Seq.cost]; omega
    · exact .of_status (exhaustedEnable_moved _) (fun _ => trivial) (by rw [hq, hstatus]; simp only [Seq.cost]; omega)
    · refine .of_status (ok := True) (.setSeq (fun _ => ?_) le_rfl) (fun _ => trivial) ?_
      · simp [Seq.legal, hstatus]
      · rw [hq, hstatus]; simp only [Seq.cost]; omega
  | wait1 cnt b c =>
    have hwrites (hl : s.seq.legal s.cfg = true) : c.writes = true := by
      rw [hq] at hl; exact (Bool.and_eq_true_iff.1 hl).2
    dsimp only
    split_ifs with hfull hmore
    · refine .of_status (ok := c.writes = true) (.setSeq (fun hc => ?_) le_rfl) hwrites ?_
      · simpa [Seq.legal, hstatus, hc] using hmore
      · rw [hq, hstatus]; simp only [Seq.cost]; omega
    · exact .of_status (exhausted1_moved _ b c) hwrites (by rw [hq, hstatus]; simp only [Seq.cost]; omega)
    · exact .of_status (toForward_moved _ b c) hwrites (by rw [hq, hstatus]; simp only [Seq.cost]; omega)
  | wait2 cnt b c =>
    have hwrites (hl : s.seq.legal s.cfg = true) : c.writes = true := by
      rw [hq] at hl; exact (Bool.and_eq_true_iff.1 hl).2
    dsimp only
    split_ifs with hfull hmore
    · refine .of_status (ok := c.writes = true) (.setSeq (fun hc => ?_) le_rfl) hwrites ?_
      · simpa [Seq.legal, hstatus, hc] using hmore
      · rw [hq, hstatus]; simp only [Seq.cost]; omega
    · exact .of_status (exhausted2_moved _ b c) hwrites (by rw [hq, hstatus]; simp only [Seq.cost]; omega)
    · exact .of_status (.setSeq id le_rfl) hwrites (by rw [hq, hstatus]; simp only [Seq.cost]; omega)
  | poll cnt c =>
    dsimp only
    split_ifs with hready hmore
    · exact .of_status (ok := True) (.setSeq (fun _ => rfl) le_rfl) (fun _ => trivial)
        (by rw [hq, hstatus]; simp only [Seq.cost]; omega)
    · refine .of_status (ok := True) (.setSeq (fun _ => ?_) le_rfl) (fun _ => trivial) ?_
      · simpa [Seq.legal, hstatus] using hmore
      · rw [hq, hstatus]; simp only [Seq.cost]; omega
    · exact .of_status (timeoutFor_moved _ c _) (fun _ => trivial) (by rw [hq, hstatus]; simp only [Seq.cost]; omega)

end Sys2Proof.Machine
end

