-- ==== Sys2Proof/Proofs/Invariant.lean ====
section
/-! PROOFS. What every step keeps: the invariant of 10_state.md rule R25, the parameters, the two ports of 20_memory.md rule R30;
and that an operation in progress ends. Each is a fact of what an instruction does (`Effect`) and one of what one port access
does (`OneAccess`). -/

namespace Sys2Proof.Machine

variable {s t : State} {i : Instr}

/-! ### A step -/

theorem step_of_inProgress (h : s.seq.mayDecode = false) : step s = .next (microStep s) := by
  rcases step_cases s rfl with ⟨hq, _⟩ | ⟨_, _, _, hq, _⟩ | ⟨_, _, _, hq, _⟩ | ⟨hq, _⟩ | ⟨_, ho⟩
  · rw [hq] at h; cases h
  · rw [hq] at h; cases h
  · rw [hq] at h; cases h
  · rw [hq] at h; cases h
  · exact ho

/-- A step that answers a next state waits, performs an instruction with the requests moved on, or makes one access. -/
theorem step_next (h : step s = .next t) :
    t = s ∨ (∃ i rest, Effect (setRequests rest s) i t) ∨ OneAccess s t := by
  rcases step_cases s h with ⟨_, _, ho⟩ | ⟨_, rest, i, _, _, _, ho⟩ | ⟨_, _, _, _, _, _, ho⟩ | ⟨_, ho⟩ | ⟨hq, ho⟩
  · exact .inl (Host.Outcome.next.inj ho)
  · exact .inr (.inl ⟨i, rest, .of_exec ho.symm⟩)
  · cases ho
  · exact .inr (.inl ⟨s.packetInstr, s.requests, .of_exec ho.symm⟩)
  · cases ho; exact .inr (.inr (microStep_oneAccess hq))

/-! ### The parameters -/

theorem HandedOver.cfg_eq {u : State} (h : HandedOver s u) : u.cfg = s.cfg := by
  rcases h with rfl | ⟨b, rfl⟩ <;> rfl

theorem HandedOver.history_eq {u : State} (h : HandedOver s u) : u.history = s.history := by
  rcases h with rfl | ⟨b, rfl⟩ <;> rfl

/-- A packet changes neither the parameters nor the history nor the answers to come. -/
theorem finishPacket_decodeBody_env (flags xb yb zb : Byte) (u : State) :
    (finishPacket (decodeBody flags xb yb zb u)).cfg = u.cfg ∧
      (finishPacket (decodeBody flags xb yb zb u)).history = u.history ∧
      (finishPacket (decodeBody flags xb yb zb u)).script = u.script := by
  obtain ⟨_, _, _, hs⟩ := decodeBody_state u flags xb yb zb
  rw [finishPacket, hs]; exact ⟨rfl, rfl, rfl⟩

/-- An instruction reaches the two ports only, and keeps the parameters. -/
theorem Effect.portsOnly (h : Effect s i t) : PortsOnly s t := by
  cases h with
  | reset => exact .of_history_eq rfl rfl
  | transport h => exact h.accesses
  | accumulated => exact .of_history_eq rfl rfl
  | dropped hu => exact .of_history_eq hu.cfg_eq hu.history_eq
  | decoded hu flags xb yb zb =>
    obtain ⟨hc, hh, _⟩ := finishPacket_decodeBody_env flags xb yb zb _
    exact .of_history_eq (hc.trans hu.cfg_eq) (hh.trans hu.history_eq)
  | @emitted _ p b hi =>
    refine .of_envOnly (writePort_envOnly p b s) fun x hx => ?_
    rw [List.mem_singleton.1 hx]
    cases i <;> cases hi <;> simp [PortAccess, Config.addr]

theorem Effect.cfg_eq (h : Effect s i t) : t.cfg = s.cfg := h.portsOnly.1

theorem Moved.cfg_eq {ok : Prop} {n : Nat} (h : Moved ok n s t) : t.cfg = s.cfg := by rw [h.frame]
theorem Moved.history_eq {ok : Prop} {n : Nat} (h : Moved ok n s t) : t.history = s.history := by rw [h.frame]
theorem Moved.idx_eq {ok : Prop} {n : Nat} (h : Moved ok n s t) : t.idx = s.idx := by rw [h.frame]

theorem OneAccess.cfg_eq (h : OneAccess s t) : t.cfg = s.cfg := by
  obtain ⟨s1, x, n, henv, _, _, hm⟩ := h
  exact hm.cfg_eq.trans henv.cfg_eq

/-- From a legal position the access reaches one of the two ports. -/
theorem OneAccess.portsOnly (h : OneAccess s t) (hl : s.seq.legal s.cfg = true) : PortsOnly s t := by
  obtain ⟨s1, x, n, henv, hx, _, hm⟩ := h
  exact (PortsOnly.of_envOnly henv fun y hy => List.mem_singleton.1 hy ▸ hx hl).trans
    (.of_history_eq hm.cfg_eq hm.history_eq)

/-! ### The invariant -/

/-- What keeps the parameters, the fill index in range, the mode coherent and the position legal keeps the invariant. -/
theorem State.Inv.of_parts (h : s.Inv) (hcfg : t.cfg = s.cfg) (hidx : t.idx.val < t.packetSize.len)
    (hpair : t.wheelCapable = s.wheelCapable ∧ t.packetSize = s.packetSize ∨ t.wheelCapable = true ∧ t.packetSize = .four)
    (hseq : t.seq.legal s.cfg = true) : t.Inv where
  cfgWf := hcfg ▸ h.cfgWf
  idxInRange := decide_eq_true hidx
  coherent := by
    have hc := h.coherent
    unfold State.modeCoherent at *
    rcases hpair with ⟨hw, hp⟩ | ⟨hw, hp⟩ <;> rw [hw, hp]
    · exact hc
    · rfl
  seqLegal := hcfg ▸ hseq

theorem State.Inv.idx_lt (h : s.Inv) : s.idx.val < s.packetSize.len := of_decide_eq_true h.idxInRange

/-- A 4-byte mode admits every fill index. -/
theorem idx_lt_of_pair {wheel : Bool} (h : s.idx.val < s.packetSize.len) (hi : t.idx = s.idx)
    (hpair : t.wheelCapable = wheel ∧ t.packetSize = s.packetSize ∨ t.wheelCapable = true ∧ t.packetSize = .four) :
    t.idx.val < t.packetSize.len := by
  rcases hpair with ⟨_, hp⟩ | ⟨_, hp⟩ <;> rw [hp]
  · rwa [hi]
  · exact t.idx.isLt

theorem HandedOver.idx_lt {u : State} (hu : HandedOver s u) (h : s.Inv) : u.idx.val < u.packetSize.len := by
  rcases hu with rfl | ⟨b, rfl⟩
  · exact h.idx_lt
  · have := s.packetSize.len_ge
    simp only [feedComplete, setSeq_idx, setIdx_idx, Fin.val_zero, setSeq_packetSize, setIdx_packetSize,
      storeByte_packetSize]
    omega

theorem HandedOver.pair_eq {u : State} (hu : HandedOver s u) :
    u.wheelCapable = s.wheelCapable ∧ u.packetSize = s.packetSize := by
  rcases hu with rfl | ⟨b, rfl⟩ <;> exact ⟨rfl, rfl⟩

/-- Every instruction keeps the invariant. -/
theorem Effect.inv (he : Effect s i t) (h : s.Inv) : t.Inv := by
  have hcfg := he.cfg_eq
  cases he with
  | reset => exact ⟨h.cfgWf, rfl, rfl, rfl⟩
  | transport he =>
    exact h.of_parts hcfg (idx_lt_of_pair h.idx_lt he.idx he.pair) he.pair (he.seq ▸ h.seqLegal)
  | accumulated b hl =>
    have hne := (lastSlot_eq_false_iff s).1 hl
    have hlt := h.idx_lt
    have hidx := idx_add_one_val (s := s) (by omega)
    refine h.of_parts hcfg ?_ (.inl ⟨rfl, rfl⟩) h.seqLegal
    change (s.idx + 1).val < s.packetSize.len
    omega
  | dropped hu => exact h.of_parts hcfg (hu.idx_lt h) (.inl hu.pair_eq) rfl
  | @decoded _ u hu flags xb yb zb =>
    obtain ⟨hw, hp, _, hi⟩ := decodeBody_frame flags xb yb zb u
    refine h.of_parts hcfg ?_ (.inl ⟨hw.trans hu.pair_eq.1, hp.trans hu.pair_eq.2⟩) rfl
    rw [finishPacket_idx, finishPacket_packetSize, hi, hp]
    exact hu.idx_lt h
  | emitted => exact h.of_parts hcfg h.idx_lt (.inl ⟨rfl, rfl⟩) h.seqLegal

/-- Every access of an operation in progress keeps the invariant. -/
theorem OneAccess.inv (ha : OneAccess s t) (h : s.Inv) : t.Inv := by
  have hcfg := ha.cfg_eq
  obtain ⟨s1, x, n, henv, _, _, hm⟩ := ha
  have hi : s1.idx = s.idx := henv.keeps.idx
  have hpair := hm.pair
  rw [henv.wheelCapable_eq, henv.packetSize_eq] at hpair
  exact h.of_parts hcfg (idx_lt_of_pair h.idx_lt (hm.idx_eq.trans hi) hpair) hpair
    (henv.cfg_eq ▸ hm.legal h.seqLegal)

/-! ### An operation in progress ends -/

theorem Core.run_succ {M : Host.Core} {n : Nat} {u v : M.State} (h : M.step u = .next v) : M.run (n + 1) u = M.run n v := by
  rw [Host.Core.run, h]

theorem run_succ {n : Nat} {s1 : State} (h : step s = .next s1) :
    Host.Core.run core (n + 1) s = Host.Core.run core n s1 := Core.run_succ (M := core) h

/-- No operation costs more than a whole INIT. -/
theorem Seq.cost_le (c : Config) (q : Seq) :
    q.cost c ≤ 19 * (c.wLimit + 1) + 10 * (c.rLimit + 1) + 29 := by
  have hstage (stage : InitStage) : stage.cost c ≤ 8 * sendCost c + pollCost c := by
    rcases stage with _ | (_ | _ | _) | (_ | _ | _) | _ | _ | _ <;> simp only [InitStage.cost] <;> omega
  have hcaller (k : Caller) : k.cost c ≤ 8 * sendCost c + pollCost c := by
    cases k with
    | host => exact Nat.zero_le _
    | init stage => exact hstage stage
  have hnext (k : AfterWrite) : k.cost c ≤ 9 * sendCost c + pollCost c := by
    cases k with
    | done => exact Nat.zero_le _
    | enabled => exact le_rfl
    | forwarded _ k => have := hcaller k; simp only [AfterWrite.cost, sendCost, pollCost] at *; omega
    | sent k => have := hcaller k; simp only [AfterWrite.cost, sendCost, pollCost] at *; omega
  cases q with
  | idle => exact Nat.zero_le _
  | decode => simp only [Seq.cost]; omega
  | enableWait cnt => simp only [Seq.cost, AfterWrite.cost, sendCost, pollCost]; omega
  | emit p b k => have := hnext k; simp only [Seq.cost, sendCost, pollCost] at *; omega
  | wait1 cnt b k => have := hcaller k; simp only [Seq.cost, AfterWrite.cost, sendCost, pollCost] at *; omega
  | wait2 cnt b k => have := hcaller k; simp only [Seq.cost, AfterWrite.cost, sendCost, pollCost] at *; omega
  | poll cnt k => have := hcaller k; simp only [Seq.cost, sendCost, pollCost] at *; omega
  | dataRead k => have := hcaller k; simp only [Seq.cost, sendCost, pollCost] at *; omega

/-- A packet handed to the decoder takes one step. -/
theorem step_of_decode (h : s.seq = .decode) : ∃ t, step s = .next t ∧ t.seq = .idle := by
  have hstep : step s = exec s.packetInstr s := by unfold step; rw [h]
  exact ⟨_, hstep.trans ((runPacket_eq s).symm.trans (runPacket_of_mayDecode (by rw [h]; rfl))), rfl⟩

/-- Within the cost of its position an operation has ended. -/
theorem run_to_idle (n : Nat) : ∀ s : State, s.seq.cost s.cfg ≤ n →
    ∃ k t, k ≤ n ∧ Host.Core.run core k s = .next t ∧ t.seq = .idle := by
  induction n with
  | zero =>
    intro s hs
    cases hq : s.seq <;> rw [hq] at hs <;> simp only [Seq.cost] at hs
    case idle => exact ⟨0, s, le_rfl, rfl, hq⟩
    all_goals omega
  | succ n ih =>
    intro s hs
    by_cases hidle : s.seq = .idle
    · exact ⟨0, s, Nat.zero_le _, rfl, hidle⟩
    by_cases hdecode : s.seq = .decode
    · obtain ⟨t, ht, hq⟩ := step_of_decode hdecode
      exact ⟨1, t, by omega, (run_succ ht).trans rfl, hq⟩
    have hin : s.seq.mayDecode = false := by cases hq : s.seq <;> simp_all [Seq.mayDecode]
    have hone := microStep_oneAccess hin
    have hcfg := hone.cfg_eq
    obtain ⟨s1, x, m, henv, _, hlt, hm⟩ := hone
    have hcost := hm.cost
    rw [henv.cfg_eq] at hcost
    obtain ⟨k, t, hk, hrun, hq⟩ := ih (microStep s) (by rw [hcfg]; omega)
    exact ⟨k + 1, t, by omega, (run_succ (step_of_inProgress hin)).trans hrun, hq⟩

/-! ### The errors -/

/-- No instruction adds UnsupportedFeature to the results. -/
theorem Effect.unsupported (h : Effect s i t) (hm : Result.err .unsupportedFeature ∈ t.results) :
    Result.err .unsupportedFeature ∈ s.results := by
  cases h with
  | reset => exact hm
  | transport h =>
    obtain ⟨r, hres, hr⟩ := h.results
    rw [hres, List.mem_append, List.mem_singleton] at hm
    rcases hm with hm | rfl
    · exact hm
    · cases hr
  | accumulated => simpa [feedAccumulate] using hm
  | dropped hu => simpa [hu.results_held.1] using hm
  | decoded hu => simpa [hu.results_held.1] using hm
  | emitted => exact hm

theorem OneAccess.unsupported (h : OneAccess s t) (hm : Result.err .unsupportedFeature ∈ t.results) :
    Result.err .unsupportedFeature ∈ s.results := by
  obtain ⟨s1, x, n, henv, _, _, hmoved⟩ := h
  obtain ⟨rs, hres, hrs⟩ := hmoved.results
  rw [hres, List.mem_append, henv.results_eq] at hm
  rcases hm with hm | hm
  · exact hm
  · cases hrs _ hm

end Sys2Proof.Machine

namespace Sys2Proof.Proofs

open Sys2Proof.Machine Sys2Proof.Claims

/-- Settles O48: the defaults obey rule R6 whatever the two ceilings are; the registers start coherent and idle. -/
theorem resetStateIsInvariant : Obligations.ResetStateIsInvariant := by
  unfold Obligations.ResetStateIsInvariant
  have hreset (c : Config) (h : c.wf = true) : (State.resetWith c).Inv := ⟨h, rfl, rfl, rfl⟩
  exact ⟨hreset _ rfl, hreset⟩

/-- Settles O49: an instruction keeps the invariant, and so does one access of an operation in progress. -/
theorem stepKeepsTheInvariant : Obligations.StepKeepsTheInvariant := by
  unfold Obligations.StepKeepsTheInvariant
  intro s t h hstep
  rcases step_next hstep with rfl | ⟨i, rest, he⟩ | ha
  · exact h
  · exact he.inv ⟨h.cfgWf, h.idxInRange, h.coherent, h.seqLegal⟩
  · exact ha.inv h

/-- Settles O50: the accesses of an instruction, and the one access made from a legal position. -/
theorem stepReachesTheTwoPortsOnly : Obligations.StepReachesTheTwoPortsOnly := by
  unfold Obligations.StepReachesTheTwoPortsOnly
  intro s t h hstep
  rcases step_next hstep with rfl | ⟨i, rest, he⟩ | ha
  · exact ⟨[], (List.append_nil _).symm, nofun⟩
  · exact he.portsOnly.2
  · exact (ha.portsOnly h.seqLegal).2

/-- Settles O51: none of these instructions is a transport operation. -/
theorem feedAndResetReachNoPort : Obligations.FeedAndResetReachNoPort := by
  unfold Obligations.FeedAndResetReachNoPort
  rintro i s t (⟨a, rfl⟩ | ⟨b, rfl⟩ | hi) h
  · rw [execReset_next (a := a) h]; exact ⟨rfl, rfl⟩
  · rcases execFeed_next (b := b) h with ⟨_, rfl⟩ | ⟨_, _, rfl⟩ | ⟨_, _, flags, xb, yb, zb, rfl⟩
    · exact ⟨rfl, rfl⟩
    · exact ⟨rfl, rfl⟩
    · exact (finishPacket_decodeBody_env flags xb yb zb _).2
  · rcases exec_packet_next hi h with rfl | ⟨flags, xb, yb, zb, rfl⟩
    · exact ⟨rfl, rfl⟩
    · exact (finishPacket_decodeBody_env flags xb yb zb s).2

/-- Settles O52: neither an instruction nor an access writes them. -/
theorem parametersNeverChange : Obligations.ParametersNeverChange := by
  unfold Obligations.ParametersNeverChange
  intro s t hstep
  rcases step_next hstep with rfl | ⟨i, rest, he⟩ | ha
  · rfl
  · exact he.cfg_eq
  · exact ha.cfg_eq

/-- Settles O46: the results a transport operation delivers are `Ok`, a byte, or a Timeout. -/
theorem unsupportedFeatureNeverSurfaces : Obligations.UnsupportedFeatureNeverSurfaces := by
  unfold Obligations.UnsupportedFeatureNeverSurfaces
  intro s t hstep hm
  rcases step_next hstep with rfl | ⟨i, rest, he⟩ | ha
  · exact hm
  · exact he.unsupported hm
  · exact ha.unsupported hm

/-- Settles O56: each access lowers the cost of the position, which is at most that of a whole INIT. -/
theorem operationInProgressEnds : Obligations.OperationInProgressEnds := by
  unfold Obligations.OperationInProgressEnds
  intro s
  exact run_to_idle (enoughSteps s) s (s.seq.cost_le s.cfg)

end Sys2Proof.Proofs
end

