-- ==== Sys2Proof/Proofs/Events.lean ====
section
/-! PROOFS. 43_decoder.md: the deltas as numbers (rules R133, R134), the order of the event sources (rules R136 to R143), and
which bits of a packet play no part. Both lengths run DECODE's body, so each fact is one about `decodeBody`. -/

namespace Sys2Proof.Machine

open Sys2Proof.Claims

/-! ### The deltas -/

theorem widen_range (sign : Bool) (data : Byte) : -256 ≤ (widen sign data).toInt ∧ (widen sign data).toInt ≤ 255 := by
  have hlt := data.isLt
  rw [widen_toInt]
  split_ifs <;> omega

/-- A nine-bit value belongs to one sign bit and one byte. -/
theorem widen_toInt_inj {sign sign' : Bool} {data data' : Byte} (h : (widen sign data).toInt = (widen sign' data').toInt) :
    sign = sign' ∧ data = data' := by
  have hlt := data.isLt
  have hlt' := data'.isLt
  simp only [widen_toInt] at h
  have hsign : sign = sign' := by
    cases sign <;> cases sign' <;> simp only [if_true, Bool.false_eq_true, if_false] at h ⊢ <;> omega
  subst hsign
  exact ⟨rfl, BitVec.eq_of_toNat_eq (by omega)⟩

/-- The byte and the sign bit of a value in the range. -/
theorem exists_widen_toInt {v : Int} (hlo : -256 ≤ v) (hhi : v ≤ 255) : ∃ sign data, (widen sign data).toInt = v := by
  refine ⟨decide (v < 0), BitVec.ofNat 8 (v + if v < 0 then 256 else 0).toNat, ?_⟩
  rw [widen_toInt, BitVec.toNat_ofNat]
  simp only [decide_eq_true_eq]
  split_ifs <;> omega

theorem deltaY_toInt (flags yb : Byte) : (deltaY flags yb).toInt = -(deltaYDevice flags yb).toInt := by
  have hrange : _ ∧ _ := widen_range (flags.getLsbD Config.ysBit) yb
  refine BitVec.toInt_neg_of_ne_intMin fun h => ?_
  rw [← deltaYDevice, h] at hrange
  exact absurd hrange.1 (by decide)

theorem deltaX_range (flags xb : Byte) : -256 ≤ (deltaX flags xb).toInt ∧ (deltaX flags xb).toInt ≤ 255 :=
  widen_range _ xb

theorem deltaY_range (flags yb : Byte) : -255 ≤ (deltaY flags yb).toInt ∧ (deltaY flags yb).toInt ≤ 256 := by
  have hrange : _ ∧ _ := widen_range (flags.getLsbD Config.ysBit) yb
  rw [← deltaYDevice] at hrange
  rw [deltaY_toInt]
  omega

/-! ### The event sources -/

/-- The sign of the wheel byte, by its number (rule R141). -/
theorem wheelEvent_eq (zb : Byte) :
    wheelEvent zb =
      if 0x01 ≤ zb.toNat ∧ zb.toNat ≤ 0x7F then some .wheelUp else if 0x80 ≤ zb.toNat then some .wheelDown else none := by
  have hlt := zb.isLt
  unfold wheelEvent
  rw [BitVec.toInt_eq_toNat_cond]
  split_ifs <;> grind

/-- Without a button edge and a wheel event DECODE reports the deltas, if one is not 0. -/
theorem decodeBody_noWheel {f x y zb : Byte} {s : State} (hedge : firstEdge f s = none)
    (hwheel : s.wheelCapable = true → zb = 0) :
    decodeBody f x y zb s = (accumulate (deltaX f x) (deltaY f y) s, moveEvent (deltaX f x) (deltaY f y)) := by
  rw [decodeBody_noEdge s hedge]
  split_ifs with hw
  · rw [hwheel hw, wheelEvent_zero, Option.none_or]
  · rw [Option.none_or]

/-- What DECODE reports: an edge, a wheel event while `wheel_capable`, or a Move of the deltas. -/
theorem decodeBody_event {f x y zb : Byte} {s : State} {e : Event} (h : (decodeBody f x y zb s).2 = some e) :
    (∃ b down, e = edgeEvent b down) ∨ (s.wheelCapable = true ∧ (e = .wheelUp ∨ e = .wheelDown)) ∨
      (e = .move (deltaX f x) (deltaY f y) ∧ (deltaX f x ≠ 0 ∨ deltaY f y ≠ 0)) := by
  cases hedge : firstEdge f s with
  | some b =>
    rw [decodeBody_edge s hedge] at h
    exact .inl ⟨b, _, (Option.some.inj h).symm⟩
  | none =>
    rw [decodeBody_noEdge s hedge] at h
    exact .inr (wheelOrMove_cases h)

/-- Both lengths end in `t` when DECODE's body does on both wheel bytes. -/
theorem exec_both {f x y z : Byte} {s t : State} (hmay : s.seq.mayDecode = true)
    (h : ∀ zb, zb = s.buf.b3 ∨ zb = z → finishPacket (decodeBody f x y zb s) = t) :
    exec (.pkt3Exec f x y) s = .next t ∧ exec (.pkt4Exec f x y z) s = .next t :=
  ⟨(execPkt3Exec_eq s hmay).trans (congrArg _ (h _ (.inl rfl))), (execPkt4Exec_eq s hmay).trans (congrArg _ (h _ (.inr rfl)))⟩

/-- An edge is reported whatever the data bytes and the wheel byte are. -/
theorem exec_both_edge {f x y z : Byte} {s : State} {b : Button} (hmay : s.seq.mayDecode = true)
    (hedge : firstEdge f s = some b) :
    let t := setHeld b (buttonDown s.cfg f b) (packetEnd f x y (some (edgeEvent b (buttonDown s.cfg f b))) s)
    exec (.pkt3Exec f x y) s = .next t ∧ exec (.pkt4Exec f x y z) s = .next t := by
  refine exec_both hmay fun zb _ => ?_
  rw [decodeBody_edge s hedge]
  cases b <;> rfl

/-! ### Three edges at once -/

theorem firstEdge_left {f : Byte} {s : State} (h : buttonDown s.cfg f .left ≠ s.heldL) : firstEdge f s = some .left :=
  if_pos h

theorem firstEdge_right {f : Byte} {s : State} (hl : buttonDown s.cfg f .left = s.heldL)
    (h : buttonDown s.cfg f .right ≠ s.heldR) : firstEdge f s = some .right := by
  rw [firstEdge, if_neg (not_not.2 hl), if_pos h]

theorem firstEdge_middle {f : Byte} {s : State} (hl : buttonDown s.cfg f .left = s.heldL)
    (hr : buttonDown s.cfg f .right = s.heldR) (h : buttonDown s.cfg f .middle ≠ s.heldM) :
    firstEdge f s = some .middle := by
  rw [firstEdge, if_neg (not_not.2 hl), if_neg (not_not.2 hr), if_pos h]

/-- A well-formed packet, of either length, reports the first edge, and only its register takes the flags bit. -/
theorem exec_withFlags_edge {f : Byte} {i : Instr} {s : State} {b : Button} (hi : execWithFlags f i)
    (hmay : s.seq.mayDecode = true) (hedge : firstEdge f s = some b) :
    ∃ t, exec i s = .next t ∧ t.seq = .idle ∧ t.cfg = s.cfg ∧
      t.results = s.results ++ [.event (some (edgeEvent b (buttonDown s.cfg f b)))] ∧
      ∀ c, t.held c = if c = b then buttonDown s.cfg f b else s.held c := by
  obtain ⟨x, y, z, hi⟩ := hi
  obtain ⟨h3, h4⟩ := exec_both_edge (x := x) (y := y) (z := z) hmay hedge
  refine ⟨_, hi.elim (fun h => h ▸ h3) (fun h => h ▸ h4), ?_, ?_, ?_, fun c => ?_⟩
  · exact setHeld_seq _ b _
  · exact setHeld_cfg _ b _
  · exact setHeld_results _ b _
  · exact held_setHeld _ b c _

/-! ### What plays no part -/

/-- A packet class shows no more of its bytes than DECODE's body does. -/
theorem execPkt3Exec_congr {f g x y : Byte} {s : State}
    (h : decodeBody f x y s.buf.b3 s = decodeBody g x y s.buf.b3 s) : execPkt3Exec f x y s = execPkt3Exec g x y s := by
  simp only [execPkt3Exec, acceptPacket, h]

theorem execPkt4Exec_congr {f g x y z z' : Byte} {s : State} (h : decodeBody f x y z s = decodeBody g x y z' s) :
    execPkt4Exec f x y z s = execPkt4Exec g x y z' s := by
  simp only [execPkt4Exec, acceptPacket, h]

/-- While `wheel_capable` is false the wheel byte is not looked at. -/
theorem decodeBody_wheel_unseen {f x y z z' : Byte} {s : State} (h : s.wheelCapable = false) :
    decodeBody f x y z s = decodeBody f x y z' s := by
  unfold decodeBody
  rw [h]
  rfl

/-- DECODE neither reads nor writes the packet buffer. -/
theorem finishPacket_decodeBody_buf (f x y z : Byte) (buf : PacketBuf) (s : State) :
    finishPacket (decodeBody f x y z { s with buf := buf }) =
      { finishPacket (decodeBody f x y z s) with buf := buf } := by
  cases hedge : firstEdge f s with
  | none => rw [decodeBody_noEdge s hedge, decodeBody_noEdge { s with buf := buf } hedge]; rfl
  | some b => rw [decodeBody_edge s hedge, decodeBody_edge { s with buf := buf } hedge]; cases b <;> rfl

/-- Flags bytes that agree on bits 0 to 5. -/
theorem getLsbD_eq_of_and {f g : Byte} (h : f &&& 0x3F = g &&& 0x3F) {k : Nat} (hk : k < 6) : f.getLsbD k = g.getLsbD k := by
  have hmask : (0x3F : Byte).getLsbD k = true := by
    interval_cases k <;> rfl
  have hbit := congrArg (BitVec.getLsbD · k) h
  simpa only [BitVec.getLsbD_and, hmask, Bool.and_true] using hbit

/-- DECODE sees of a flags byte the bits of the buttons and the two sign bits. -/
theorem decodeBody_congr {f g : Byte} {s : State} (x y z : Byte) (hb : ∀ b, buttonDown s.cfg f b = buttonDown s.cfg g b)
    (hx : deltaX f x = deltaX g x) (hy : deltaY f y = deltaY g y) : decodeBody f x y z s = decodeBody g x y z s := by
  have hedge : firstEdge f s = firstEdge g s := by simp only [firstEdge, hb]
  simp only [decodeBody, hedge, hx, hy, hb]

/-! ### The greatest delta, repeated -/

theorem deltaX_max : deltaX 0x08 0xFF = 255 := by decide
theorem deltaY_zero : deltaY 0x08 0x00 = 0 := by decide

/-- One packet of the greatest x delta. -/
theorem exec_maxDelta {s : State} (h : s.seq.mayDecode = true) :
    ∃ t, exec (.pkt3Exec 0x08 0xFF 0x00) s = .next t ∧ t.seq = .idle ∧ t.posX = satAdd16 s.posX 255 ∧ t.posY = s.posY := by
  obtain ⟨_, _, _, hs⟩ := decodeBody_state s 0x08 0xFF 0x00 s.buf.b3
  refine ⟨_, execPkt3Exec_eq s h, rfl, ?_, ?_⟩ <;> rw [finishPacket, hs]
  · exact congrArg (satAdd16 s.posX) deltaX_max
  · exact (congrArg (satAdd16 s.posY) deltaY_zero).trans (satAdd16_zero s.posY)

end Sys2Proof.Machine

namespace Sys2Proof.Proofs

open Sys2Proof.Machine Sys2Proof.Claims

/-- Settles O19: the byte is the value's low part, the sign bit its sign. -/
theorem everyNineBitDeltaHasOneEncoding : Obligations.EveryNineBitDeltaHasOneEncoding := by
  unfold Obligations.EveryNineBitDeltaHasOneEncoding
  refine ⟨widen_range, fun v hlo hhi => ?_⟩
  obtain ⟨sign, data, hv⟩ := exists_widen_toInt hlo hhi
  refine ⟨(sign, data), hv, fun ⟨sign', data'⟩ hv' => ?_⟩
  obtain ⟨rfl, rfl⟩ := widen_toInt_inj (hv'.trans hv.symm)
  rfl

/-- Settles O20: the device's delta is never the least `i16`. -/
theorem negatedDeltaNeverOverflows : Obligations.NegatedDeltaNeverOverflows := by
  unfold Obligations.NegatedDeltaNeverOverflows
  exact fun flags data => ⟨deltaY_toInt flags data, (deltaY_range flags data).1, (deltaY_range flags data).2,
    BitVec.neg_eq_zero_iff⟩

/-- Settles O22: Left is looked at first. -/
theorem leftEdgeIsReported : Obligations.LeftEdgeIsReported := by
  unfold Obligations.LeftEdgeIsReported
  intro f x y z s hmay hl
  exact exec_both_edge hmay (firstEdge_left hl)

/-- Settles O23: Right is looked at when Left shows no edge. -/
theorem rightEdgeIsReported : Obligations.RightEdgeIsReported := by
  unfold Obligations.RightEdgeIsReported
  intro f x y z s hmay hl hr
  exact exec_both_edge hmay (firstEdge_right hl hr)

/-- Settles O24: Middle is looked at when neither shows an edge. -/
theorem middleEdgeIsReported : Obligations.MiddleEdgeIsReported := by
  unfold Obligations.MiddleEdgeIsReported
  intro f x y z s hmay hl hr hm
  exact exec_both_edge hmay (firstEdge_middle hl hr hm)

/-- Settles O25: without an edge the wheel byte's sign decides, then the deltas. -/
theorem wheelStepFollowsTheButtons : Obligations.WheelStepFollowsTheButtons := by
  unfold Obligations.WheelStepFollowsTheButtons
  intro f x y z s hmay hno outcome
  have hbody (zb : Byte) : finishPacket (decodeBody f x y zb s) = outcome zb := by
    rw [decodeBody_noEdge s (firstEdge_eq_none_of_noEdge hno), wheelEvent_eq]
    change packetEnd f x y _ s = packetEnd f x y _ s
    congr 1
    cases s.wheelCapable
    · simp [moveEvent]
    · simp only [if_true, true_and, moveEvent]
      split_ifs <;> rfl
  exact ⟨(execPkt3Exec_eq s hmay).trans (congrArg _ (hbody _)), (execPkt4Exec_eq s hmay).trans (congrArg _ (hbody _))⟩

/-- Settles O26: the deltas are reported as they were computed, not as the positions moved. -/
theorem moveIsReportedLast : Obligations.MoveIsReportedLast := by
  unfold Obligations.MoveIsReportedLast
  intro f x y z s hmay hno hwheel hne
  refine exec_both hmay fun zb hzb => ?_
  have hz (hw : s.wheelCapable = true) : zb = 0 := hzb.elim (·.trans (hwheel hw).1) (·.trans (hwheel hw).2)
  rw [decodeBody_noWheel (firstEdge_eq_none_of_noEdge hno) hz, moveEvent, if_pos hne]
  rfl

/-- Settles O28: after each packet the register it reported agrees with its bit, and the next button is the first edge. -/
theorem simultaneousEdgesTakeOnePacketEach : Obligations.SimultaneousEdgesTakeOnePacketEach := by
  unfold Obligations.SimultaneousEdgesTakeOnePacketEach
  intro f i j k s hi hj hk hmay hne
  obtain ⟨s1, h1, q1, c1, r1, d1⟩ := exec_withFlags_edge hi hmay (firstEdge_left (hne .left))
  have hne1 : buttonDown s1.cfg f .right ≠ s1.held .right := by rw [c1, d1]; exact hne .right
  obtain ⟨s2, h2, q2, c2, r2, d2⟩ := exec_withFlags_edge hj (by rw [q1]; rfl)
    (firstEdge_right (by rw [c1]; exact (d1 .left).symm) hne1)
  rw [c1] at c2 r2 d2
  have hl2 : buttonDown s2.cfg f .left = s2.held .left := by rw [c2, d2, d1]; rfl
  have hne2 : buttonDown s2.cfg f .middle ≠ s2.held .middle := by rw [c2, d2, d1]; exact hne .middle
  obtain ⟨s3, h3, q3, c3, r3, d3⟩ := exec_withFlags_edge hk (by rw [q2]; rfl)
    (firstEdge_middle hl2 (by rw [c2]; exact (d2 .right).symm) hne2)
  rw [c2] at r3 d3
  refine ⟨s3, ?_, ?_, fun b => ?_⟩
  · rw [execAll_cons h1, execAll_cons h2, execAll_cons h3]; rfl
  · rw [r3, r2, r1]; simp
  · rw [d3, d2, d1]; cases b <;> rfl

/-- Settles O31: only a decoded packet delivers an event, and it is an edge, a wheel event or a Move. -/
theorem eventsAreLawful : Obligations.EventsAreLawful := by
  unfold Obligations.EventsAreLawful
  intro i s t e h hres
  have hlast {r : Result} (h : t.results = s.results ++ [r]) : r = .event (some e) := by
    simpa using h.symm.trans hres
  have hsome (h : t.results = s.results) : False := by simpa using h.symm.trans hres
  cases Effect.of_exec h with
  | reset => exact (hsome rfl).elim
  | transport h =>
    obtain ⟨r, hr, ho⟩ := h.results
    cases hlast hr; cases ho
  | accumulated => cases hlast rfl
  | dropped hu => cases hlast (congrArg (· ++ _) hu.results_held.1)
  | decoded hu f x y z =>
    have he := Result.event.inj (hlast (by rw [finishPacket_results, decodeBody_results, hu.results_held.1]))
    rcases decodeBody_event he with ⟨b, down, rfl⟩ | ⟨hw, he⟩ | ⟨rfl, hne⟩
    · cases down <;> simp [edgeEvent]
    · have hwheel : s.wheelCapable = true := hu.pair_eq.1 ▸ hw
      rcases he with rfl | rfl <;> simp [hwheel]
    · refine ⟨by simp, ?_⟩
      rintro dx dy ⟨⟩
      exact ⟨hne, (deltaX_range f x).1, (deltaX_range f x).2, (deltaY_range f y).1, (deltaY_range f y).2⟩
  | emitted => exact (hsome rfl).elim

/-- Settles O32: DECODE's body on two wheel bytes, and with `buf[3]` replaced. -/
theorem wheelByteUnseenInThreeByteMode : Obligations.WheelByteUnseenInThreeByteMode := by
  unfold Obligations.WheelByteUnseenInThreeByteMode
  intro f x y z z' s hw
  refine ⟨execPkt4Exec_congr (decodeBody_wheel_unseen hw), fun t h => ?_⟩
  obtain ⟨hmay, rfl⟩ := acceptPacket_next (run := fun s => finishPacket (decodeBody f x y s.buf.b3 s)) h
  refine (execPkt3Exec_eq { s with buf := { s.buf with b3 := z } } hmay).trans (congrArg _ ?_)
  rw [finishPacket_decodeBody_buf, decodeBody_wheel_unseen (z' := s.buf.b3) hw, finishPacket_buf,
    (decodeBody_frame f x y s.buf.b3 s).2.2.1]

/-- Settles O33: every bit DECODE looks at lies below bit 6. -/
theorem overflowBitsAreIgnored : Obligations.OverflowBitsAreIgnored := by
  unfold Obligations.OverflowBitsAreIgnored
  intro f g x y z s hr hm hand
  have hbit {k : Nat} (hk : k < 6) : f.getLsbD k = g.getLsbD k := getLsbD_eq_of_and hand hk
  have hbody (zb : Byte) : decodeBody f x y zb s = decodeBody g x y zb s := by
    refine decodeBody_congr x y zb (fun b => ?_) (congrArg (widen · x) (hbit (by decide)))
      (congrArg (fun sign => -widen sign y) (hbit (by decide)))
    cases b
    · exact hbit (by decide)
    · exact hbit hr
    · exact hbit hm
  exact ⟨hbit (by decide), execPkt3Exec_congr (hbody _), execPkt4Exec_congr (hbody _)⟩

/-- Settles O34: by induction on the number of packets, each a clamped sum. -/
theorem repeatedMaximumDeltaSaturates : Obligations.RepeatedMaximumDeltaSaturates := by
  unfold Obligations.RepeatedMaximumDeltaSaturates
  intro n
  induction n with
  | zero =>
    intro s _
    have hmax : s.posX.toInt < 2 ^ 15 := s.posX.toInt_lt
    exact ⟨s, rfl, by omega, rfl⟩
  | succ n ih =>
    intro s hmay
    obtain ⟨s1, hexec, hq, hx, hy⟩ := exec_maxDelta hmay
    obtain ⟨t, hrun, htx, hty⟩ := ih s1 (by rw [hq]; rfl)
    refine ⟨t, (execAll_cons hexec).trans hrun, ?_, hty.trans hy⟩
    have hmin : -2 ^ 15 ≤ s.posX.toInt := s.posX.le_toInt
    have hdelta : (255 : I16).toInt = 255 := rfl
    rw [htx, hx, satAdd16_toInt, hdelta]
    push_cast
    split_ifs <;> omega

end Sys2Proof.Proofs
end

