-- ==== Sys2Proof/Proofs/Requests.lean ====
section
/-! PROOFS. When a request of the host completes and when it is refused, and what a step runs (30_encoding.md rule R63, 20_memory.md
rule R38, 60_exceptions.md rule R170). -/

namespace Sys2Proof.Machine

open Sys2Proof.Claims

variable {s t : State}

/-! ### Requests that complete -/

theorem acceptRequest_next_ready {run : State → Host.Outcome State Fault Refusal} (h : acceptRequest s run = .next t) :
    Ready s := by
  rcases acceptRequest_cases h with ⟨_, ho⟩ | ⟨_, _, ho⟩ | ⟨hq, hs, _⟩
  · cases ho
  · cases ho
  · exact ⟨hq, hs⟩

theorem exec_reset_of_idle (a : Byte) (hq : s.seq = .idle) : exec (.reset a) s = .next (resetRegisters s) := by
  change execReset a s = _
  unfold execReset
  rw [hq]; rfl

theorem exec_wrcmd_of_ready (b : Byte) (h : Ready s) : exec (.wrcmd b) s = .next (finishUnit (wrcmd b s)) :=
  acceptRequest_of_ready (fun s => .next (finishUnit (wrcmd b s))) h.1 h.2

theorem exec_rdrsp_of_ready (a : Byte) (h : Ready s) : exec (.rdrsp a) s = .next (finishByte (rdrsp s)) :=
  acceptRequest_of_ready (fun s => .next (finishByte (rdrsp s))) h.1 h.2

theorem exec_init_of_session (a : Byte) (h : Ready s) :
    exec (.init a) s =
      if s.session = .ready then .next (finishInit (initRun s)) else .refused .initAfterInit := by
  change execInit a s = _
  unfold execInit
  rw [acceptRequest_of_ready _ h.1 h.2]
  cases hs : s.session
  · exact absurd hs h.2
  · rfl
  · rfl

theorem exec_init_of_ready (a : Byte) (hq : s.seq = .idle) (hs : s.session = .ready) :
    exec (.init a) s = .next (finishInit (initRun s)) := by
  rw [exec_init_of_session a ⟨hq, by rw [hs]; decide⟩, if_pos hs]

/-- Every request but RESET passes the same test before it runs. -/
theorem exec_eq_acceptRequest {i : Instr} (hi : i.isRequest = true) (hr : ∀ a, i ≠ .reset a) :
    ∃ run, ∀ s, exec i s = acceptRequest s run := by
  cases i <;> cases hi
  · exact absurd rfl (hr _)
  · exact ⟨_, fun _ => rfl⟩
  · exact ⟨_, fun _ => rfl⟩
  · exact ⟨_, fun _ => rfl⟩
  · exact ⟨_, fun _ => rfl⟩

theorem ready_of_exec_next {i : Instr} (hi : i.isRequest = true) (hr : ∀ a, i ≠ .reset a) (h : exec i s = .next t) :
    Ready s := by
  obtain ⟨run, hrun⟩ := exec_eq_acceptRequest hi hr
  exact acceptRequest_next_ready ((hrun s).symm.trans h)

/-- INIT completes from the ready session only. -/
theorem exec_init_next_ready {a : Byte} (h : exec (.init a) s = .next t) : s.seq = .idle ∧ s.session = .ready := by
  have hready := ready_of_exec_next (i := .init a) rfl nofun h
  refine ⟨hready.1, ?_⟩
  by_contra hs
  rw [exec_init_of_session a hready, if_neg hs] at h
  cases h

/-- FEED completes, idle again, stores its byte and delivers one event. -/
theorem exec_feed_of_ready (b : Byte) (h : Ready s) :
    ∃ t e, exec (.feed b) s = .next t ∧ t.seq = .idle ∧ t.results = s.results ++ [.event e] := by
  cases hl : s.lastSlot with
  | false => exact ⟨_, none, exec_feed_of_not_lastSlot h.1 h.2 hl, h.1, rfl⟩
  | true =>
    have hmay : (setIdx 0 (storeByte b s)).seq.mayDecode = true := by simp [h.1, Seq.mayDecode]
    have hres (r : State × Option Event) (hr : r.1.results = s.results) :
        (finishPacket r).results = s.results ++ [.event r.2] := by rw [finishPacket_results, hr]
    refine ⟨_, _, (exec_feed_of_lastSlot h.1 h.2 hl).trans (runPacket_of_mayDecode hmay), rfl, hres _ ?_⟩
    split_ifs
    · rw [decodeBody_results]; rfl
    · rfl

/-! ### Requests that are refused -/

theorem exec_of_not_idle {i : Instr} (hi : i.isRequest = true) (hq : s.seq ≠ .idle) :
    exec i s = .refused .overlappingRequest := by
  by_cases hr : ∃ a, i = .reset a
  · obtain ⟨a, rfl⟩ := hr
    change execReset a s = _
    have hidle : s.seq.isIdle = false := by cases hs : s.seq <;> simp_all [Seq.isIdle]
    unfold execReset
    rw [hidle]
  · obtain ⟨run, hrun⟩ := exec_eq_acceptRequest hi (not_exists.1 hr)
    rcases acceptRequest_cases (hrun s).symm with ⟨_, ho⟩ | ⟨h, _⟩ | ⟨h, _⟩
    · exact ho
    · exact absurd h hq
    · exact absurd h hq

theorem exec_of_unconstructed {i : Instr} (hi : i.isRequest = true) (hr : ∀ a, i ≠ .reset a) (hq : s.seq = .idle)
    (hs : s.session = .unconstructed) : exec i s = .refused .beforeReset := by
  obtain ⟨run, hrun⟩ := exec_eq_acceptRequest hi hr
  rcases acceptRequest_cases (hrun s).symm with ⟨h, _⟩ | ⟨_, _, ho⟩ | ⟨_, h, _⟩
  · exact absurd hq h
  · exact ho
  · exact absurd hs h

/-! ### Reserved request words -/

theorem decodeRequest_reserved {w : ReqWord} (h : 5 ≤ (w.extractLsb' 8 3).toNat) :
    decodeRequest w = .error .reservedOp := by
  unfold decodeRequest
  split <;> grind

theorem step_of_request {w : ReqWord} {rest : List ReqWord} {i : Instr} (hq : s.seq = .idle) (hr : s.requests = w :: rest)
    (hd : decodeRequest w = .ok i) : step s = exec i (setRequests rest s) := by
  simp only [step, hq, hr, hd]

theorem step_of_reserved {w : ReqWord} {rest : List ReqWord} {e : DecodeError} (hq : s.seq = .idle)
    (hr : s.requests = w :: rest) (hd : decodeRequest w = .error e) : step s = .refused .reservedRequest := by
  simp only [step, hq, hr, hd]

/-- A WRCMD that ends `Ok` has written its byte last, to the data port. -/
theorem wrcmd_ok_getLast {b : Byte} (h : (wrcmd b s).1 = .ok ()) :
    (wrcmd b s).2.history.getLast? = some (.wr s.cfg.portData b) := by
  obtain ⟨ext, henv, _, ⟨_, r1, r2, _, rfl⟩ | ⟨_, ⟨he, _⟩ | ⟨he, _⟩⟩⟩ := wrcmd_spec b s
  · rw [henv.history_eq, ← List.append_assoc, List.getLast?_concat]
  · rw [h] at he; cases he
  · rw [h] at he; cases he

/-! ### The event port -/

/-- The button of a code; the fourth code is none. -/
def buttonOfCode (n : BitVec 2) : Button := if n = 0 then .left else if n = 1 then .right else .middle

/-- What an event port shows. -/
def eventOfPort (p : EventPort) : Option Event :=
  if p.valid = 0 then none
  else if p.tag = 0 then some (.move p.dx p.dy)
  else if p.tag = 1 then some (.buttonPressed (buttonOfCode p.btn))
  else if p.tag = 2 then some (.buttonReleased (buttonOfCode p.btn))
  else if p.tag = 3 then some .wheelUp
  else some .wheelDown

theorem eventOfPort_eventPort (e : Option Event) : eventOfPort (eventPort e) = e := by
  rcases e with _ | ⟨dx, dy⟩ | (_ | _ | _) | (_ | _ | _) | _ | _ <;> rfl

end Sys2Proof.Machine

namespace Sys2Proof.Proofs

open Sys2Proof.Machine Sys2Proof.Claims

/-- Settles O5: the operand is not passed on. -/
theorem ignoredArgumentsHaveNoEffect : Obligations.IgnoredArgumentsHaveNoEffect := by
  unfold Obligations.IgnoredArgumentsHaveNoEffect
  exact fun a b s => ⟨rfl, rfl, rfl⟩

/-- Settles O6: the idle branch of a step. -/
theorem stepRunsTheDecodedRequest : Obligations.StepRunsTheDecodedRequest := by
  unfold Obligations.StepRunsTheDecodedRequest
  refine ⟨fun s w rest i hq hr hd => ?_, fun s hq hr => ?_⟩
  · exact step_of_request hq hr hd
  · simp only [step, hq, hr]

/-- Settles O7: the packet's instruction, by the format in force. -/
theorem stepRunsTheDecodedPacket : Obligations.StepRunsTheDecodedPacket := by
  unfold Obligations.StepRunsTheDecodedPacket
  intro s hq
  have hstep : step s = exec s.packetInstr s := by unfold step; rw [hq]
  refine ⟨fun hp => ?_, fun hp => ?_⟩ <;> rw [hstep, State.packetInstr, hp]

/-- Settles O8: the access at a write position is the row's write. -/
theorem stepRunsTheEmittedByte : Obligations.StepRunsTheEmittedByte := by
  unfold Obligations.StepRunsTheEmittedByte
  intro s i p b k hq hi
  refine ⟨_, exec_of_emission hi, ?_⟩
  rw [step_of_inProgress (by rw [hq]; rfl), microStep, hq]

/-- Settles O9: the decoder's reserved numbers, the transport's last write, the assembler's store. -/
theorem reservedRequestsAreRefused : Obligations.ReservedRequestsAreRefused := by
  unfold Obligations.ReservedRequestsAreRefused
  refine ⟨?reserved, ?decodes, ?forwarded, ?stored⟩
  case reserved =>
    intro s w rest hq hr h5
    exact step_of_reserved hq hr (decodeRequest_reserved h5)
  case decodes =>
    intro b
    have hw : requestWord 2 b = BitVec.ofNat 11 (pairNat b 2) := rfl
    have hf : requestWord 4 b = BitVec.ofNat 11 (pairNat b 4) := rfl
    rw [hw, hf, decodeRequest_wrcmd (extractLsb'_op_pairNat (by decide)),
      decodeRequest_feed (extractLsb'_op_pairNat (by decide)), extractLsb'_arg_pairNat, extractLsb'_arg_pairNat]
    exact ⟨rfl, rfl⟩
  case forwarded =>
    intro b s t h hres
    have hlast := wrcmd_ok_getLast (s := s) (b := b)
    obtain ⟨_, henv, _⟩ := wrcmd_spec b s
    rw [execWrcmd_next (b := b) h] at hres ⊢
    rcases hw : wrcmd b s with ⟨e | _, u⟩ <;> rw [hw] at hlast henv hres
    · have herr : u.results ++ [.err e] = s.results ++ [.ok] := hres
      rw [henv.results_eq] at herr
      cases List.append_cancel_left herr
    · exact hlast rfl
  case stored =>
    intro b s h
    obtain ⟨t, _, hexec, _⟩ := exec_feed_of_ready b h
    refine ⟨t, hexec, ?_⟩
    rw [(execFeed_frame (b := b) hexec).2.2.1, PacketBuf.get_set, if_pos rfl]

/-- Settles O10: the three tests of an accepted request. -/
theorem refusalsNameTheirReason : Obligations.RefusalsNameTheirReason := by
  unfold Obligations.RefusalsNameTheirReason
  refine ⟨fun i s => exec_of_not_idle, fun a b s hq hs => ?_, fun a s hq hs => ?_⟩
  · exact ⟨exec_of_unconstructed rfl nofun hq hs, exec_of_unconstructed rfl nofun hq hs,
      exec_of_unconstructed rfl nofun hq hs, exec_of_unconstructed rfl nofun hq hs⟩
  · rw [exec_init_of_session a ⟨hq, by rw [hs]; decide⟩, if_neg (by rw [hs]; decide)]

/-- Settles O11: a completed request was accepted, and each accepted one ends idle. -/
theorem requestsCompleteUnlessRefused : Obligations.RequestsCompleteUnlessRefused := by
  unfold Obligations.RequestsCompleteUnlessRefused
  intro i s hi
  constructor
  · rintro ⟨t, h, -⟩
    by_cases hq : s.seq = .idle
    case neg => rw [exec_of_not_idle hi hq] at h; cases h
    refine ⟨hq, or_iff_not_imp_left.2 fun hr => ?_⟩
    exact ⟨(ready_of_exec_next hi (not_exists.1 hr) h).2, fun ⟨a, ha⟩ => (exec_init_next_ready (a := a) (ha ▸ h)).2⟩
  · rintro ⟨hq, ⟨a, rfl⟩ | ⟨hs, hinit⟩⟩
    · exact ⟨_, exec_reset_of_idle a hq, rfl⟩
    match i, hi with
    | .reset a, _ => exact ⟨_, exec_reset_of_idle a hq, rfl⟩
    | .init a, _ => exact ⟨_, exec_init_of_ready a hq (hinit ⟨a, rfl⟩), (finishInit_initRun_end s).seq.trans hq⟩
    | .wrcmd b, _ => exact ⟨_, exec_wrcmd_of_ready b ⟨hq, hs⟩, (finishUnit_wrcmd_end b s).seq.trans hq⟩
    | .rdrsp a, _ => exact ⟨_, exec_rdrsp_of_ready a ⟨hq, hs⟩, (finishByte_rdrsp_end s).seq.trans hq⟩
    | .feed b, _ =>
      obtain ⟨t, _, hexec, hidle, _⟩ := exec_feed_of_ready b ⟨hq, hs⟩
      exact ⟨t, hexec, hidle⟩

/-- Settles O12: RESET's register values. -/
theorem resetGivesTheResetState : Obligations.ResetGivesTheResetState := by
  unfold Obligations.ResetGivesTheResetState
  intro a s hq
  exact ⟨_, exec_reset_of_idle a hq, rfl, rfl, rfl, rfl, rfl, rfl, rfl, rfl, rfl, rfl, rfl, rfl, rfl, rfl, rfl⟩

/-- Settles O13: the reset state's fields. -/
theorem stateAfterReset : Obligations.StateAfterReset := by
  unfold Obligations.StateAfterReset
  exact ⟨fun c => ⟨rfl, rfl, rfl, rfl, rfl, rfl⟩, _, _, rfl⟩

/-- Settles O39: each row's write, at the address of its port. -/
theorem emittedBytesAreSingleWrites : Obligations.EmittedBytesAreSingleWrites := by
  unfold Obligations.EmittedBytesAreSingleWrites
  intro s
  exact ⟨rfl, rfl, rfl, rfl, rfl, rfl, rfl, rfl, rfl⟩

/-- Settles O57: the numbers by evaluation; the port is read back by `eventOfPort`, so it tells events apart. -/
theorem eventPortTellsEventsApart : Obligations.EventPortTellsEventsApart := by
  unfold Obligations.EventPortTellsEventsApart
  refine ⟨rfl, fun _ _ => rfl, rfl, rfl, rfl, rfl, rfl, rfl, rfl, rfl, ?injective, ?ranges, fun _ => rfl, rfl, rfl,
    fun _ => rfl, fun _ => rfl, fun _ => rfl, rfl⟩
  case injective =>
    intro e e' h
    rw [← eventOfPort_eventPort e, h, eventOfPort_eventPort]
  case ranges =>
    intro e
    rcases e with _ | ⟨dx, dy⟩ | (_ | _ | _) | (_ | _ | _) | _ | _ <;> simp [eventPort, Button.code]

end Sys2Proof.Proofs
end

