-- ==== Sys2Proof/Proofs/Transport.lean ====
section
/-! PROOFS. 40_transport.md: the waits, WRCMD and RDRSP in closed form (rules R81, R83, R88). A procedure is followed from
`afterReads s j acc`, the state in which `j` answers have been taken and the accesses `acc` made since `s`. -/

namespace Sys2Proof.Machine

open Sys2Proof.Claims

variable (s : State)

/-! ### States some accesses later -/

theorem afterReads_cfg (j : Nat) (acc : List Access) : (afterReads s j acc).cfg = s.cfg := rfl

theorem afterReads_zero : afterReads s 0 [] = s := by
  simp only [afterReads, List.drop_zero, Nat.zero_sub, Nat.add_zero, List.append_nil]

/-- Answers already taken are gone; the later ones come next. -/
theorem answer_afterReads (j n : Nat) (acc : List Access) : (afterReads s j acc).answer n = s.answer (j + n) := by
  simp only [State.answer, afterReads, List.getElem?_drop, List.length_drop]
  cases h : s.script[j + n]? with
  | some v => rfl
  | none =>
    have hle := List.getElem?_eq_none_iff.1 h
    dsimp only
    congr 1
    omega

theorem portRead_afterReads (p : PortAddr) (j : Nat) (acc : List Access) :
    portRead p (afterReads s j acc) = (s.answer j, afterReads s (j + 1) (acc ++ [.rd p (s.answer j)])) := by
  have hvalue : (portRead p (afterReads s j acc)).1 = s.answer j := by rw [portRead_value, answer_afterReads, Nat.add_zero]
  have henv := portRead_envOnly p (afterReads s j acc)
  refine Prod.ext hvalue (Eq.trans henv ?_)
  rw [portRead_script, portRead_draws, answer_afterReads]
  simp only [afterReads, List.drop_drop, List.length_drop, List.append_assoc, Nat.add_zero, State.mk.injEq, true_and,
    and_true]
  omega

theorem readStatus_afterReads (j : Nat) (acc : List Access) :
    readStatus (afterReads s j acc) =
      (s.answer j, afterReads s (j + 1) (acc ++ [.rd s.cfg.portStcmd (s.answer j)])) :=
  portRead_afterReads s s.cfg.portStcmd j acc

theorem readData_afterReads (j : Nat) (acc : List Access) :
    readData (afterReads s j acc) = (s.answer j, afterReads s (j + 1) (acc ++ [.rd s.cfg.portData (s.answer j)])) :=
  portRead_afterReads s s.cfg.portData j acc

theorem writePort_afterReads (p : Port) (v : Byte) (j : Nat) (acc : List Access) :
    writePort p v (afterReads s j acc) = afterReads s j (acc ++ [.wr (s.cfg.addr p) v]) := by
  simp only [writePort, portWrite, afterReads, List.append_assoc]

theorem reads_succ (p : PortAddr) (j n : Nat) : reads s p j (n + 1) = .rd p (s.answer j) :: reads s p (j + 1) n := by
  simp only [reads, List.range_succ_eq_map, List.map_cons, List.map_map, Nat.add_zero]
  congr 2
  funext i
  simp only [Function.comp_apply, Nat.succ_eq_add_one]
  congr 2
  omega

/-! ### The wait -/

/-- A wait makes `waitReads` status reads and finds IBF = 0 or not as `waitClears` says. -/
theorem waitLoop_afterReads (n j : Nat) (acc : List Access) :
    waitLoop n (afterReads s j acc) =
      (if waitClears s n j then .cleared else .exhausted,
        afterReads s (j + waitReads s n j) (acc ++ reads s s.cfg.portStcmd j (waitReads s n j))) := by
  induction n generalizing j acc with
  | zero => simp [waitLoop, waitClears, waitReads, reads]
  | succ n ih =>
    rw [waitLoop, readStatus_afterReads]
    change (if (s.answer j).getLsbD s.cfg.stIbf.val then _ else _) = _
    cases hfull : (s.answer j).getLsbD s.cfg.stIbf.val <;>
      simp only [waitClears, waitReads, hfull, if_true, Bool.false_eq_true, if_false]
    · rfl
    · rw [ih, reads_succ, List.append_assoc, List.singleton_append, Nat.add_assoc, Nat.add_comm 1]

/-- Where the answer `k` is the first with IBF = 0. -/
theorem waitReads_of_first {k n j : Nat} (hk : k < n) (hfull : ∀ i < k, (s.answer (j + i)).getLsbD s.cfg.stIbf.val = true)
    (hclear : (s.answer (j + k)).getLsbD s.cfg.stIbf.val = false) : waitReads s n j = k + 1 ∧ waitClears s n j = true := by
  induction n generalizing k j with
  | zero => omega
  | succ n ih =>
    cases k with
    | zero =>
      have hj : (s.answer j).getLsbD s.cfg.stIbf.val = false := hclear
      simp only [waitReads, waitClears, hj, Bool.false_eq_true, if_false, and_self]
    | succ k =>
      have hj : (s.answer j).getLsbD s.cfg.stIbf.val = true := hfull 0 (Nat.succ_pos k)
      obtain ⟨hr, hc⟩ := ih (k := k) (j := j + 1) (by omega)
        (fun i hi => by rw [Nat.add_assoc, Nat.add_comm 1]; exact hfull (i + 1) (by omega))
        (by rw [Nat.add_assoc, Nat.add_comm 1]; exact hclear)
      simp only [waitReads, waitClears, hj, if_true, hr, hc, and_self]

/-- Where no answer has IBF = 0. -/
theorem waitReads_of_full {n j : Nat} (hfull : ∀ i < n, (s.answer (j + i)).getLsbD s.cfg.stIbf.val = true) :
    waitReads s n j = n ∧ waitClears s n j = false := by
  induction n generalizing j with
  | zero => exact ⟨rfl, rfl⟩
  | succ n ih =>
    have hj : (s.answer j).getLsbD s.cfg.stIbf.val = true := hfull 0 (Nat.succ_pos n)
    obtain ⟨hr, hc⟩ := ih (j := j + 1) (fun i hi => by rw [Nat.add_assoc, Nat.add_comm 1]; exact hfull (i + 1) (by omega))
    simp only [waitReads, waitClears, hj, if_true, hr, hc, and_self]

/-- The number of status reads a wait makes that starts at answer `j`, and these reads. -/
def nextWait (j : Nat) : Nat := waitReads s s.cfg.wLimit j

def waitAccesses (j : Nat) : List Access := reads s s.cfg.portStcmd j (nextWait s j)

/-- The wait before a write, when its write follows (rule R82). -/
theorem writeWait_afterReads_ok (site : Site) (j : Nat) (acc : List Access)
    (h : s.cfg.wrExhaust = .proceed ∨ waitClears s s.cfg.wLimit j = true) :
    writeWait site (afterReads s j acc) = (.ok (), afterReads s (j + nextWait s j) (acc ++ waitAccesses s j)) := by
  have hwait : waitInputClear (afterReads s j acc) = _ := waitLoop_afterReads s s.cfg.wLimit j acc
  unfold writeWait
  rw [hwait]
  cases hc : waitClears s s.cfg.wLimit j
  · have hp : s.cfg.wrExhaust = .proceed := h.resolve_right (by rw [hc]; decide)
    simp only [Bool.false_eq_true, if_false, afterReads_cfg, hp]
    rfl
  · rfl

/-- The same when its exhaustion is a Timeout. -/
theorem writeWait_afterReads_error (site : Site) (j : Nat) (acc : List Access) (ht : s.cfg.wrExhaust = .timeout)
    (h : waitClears s s.cfg.wLimit j = false) :
    writeWait site (afterReads s j acc) = (.error (.timeout site), afterReads s (j + nextWait s j) (acc ++ waitAccesses s j)) := by
  have hwait : waitInputClear (afterReads s j acc) = _ := waitLoop_afterReads s s.cfg.wLimit j acc
  unfold writeWait
  rw [hwait, h]
  simp only [Bool.false_eq_true, if_false, afterReads_cfg, ht]
  rfl

/-! ### WRCMD -/

/-- WRCMD's accesses up to the write of the payload, from answer `j` on. -/
def toPayloadAccesses (j : Nat) : List Access :=
  waitAccesses s j ++ [.wr s.cfg.portStcmd s.cfg.cFwdAux] ++ waitAccesses s (j + nextWait s j)

theorem wrcmd_afterReads_wait1 (b : Byte) (j : Nat) (acc : List Access) (ht : s.cfg.wrExhaust = .timeout)
    (h : waitClears s s.cfg.wLimit j = false) :
    wrcmd b (afterReads s j acc) =
      (.error (.timeout .wrcmdWait1), afterReads s (j + nextWait s j) (acc ++ waitAccesses s j)) := by
  unfold wrcmd
  rw [writeWait_afterReads_error s _ j acc ht h]

theorem wrcmd_afterReads_wait2 (b : Byte) (j : Nat) (acc : List Access) (ht : s.cfg.wrExhaust = .timeout)
    (h1 : waitClears s s.cfg.wLimit j = true) (h2 : waitClears s s.cfg.wLimit (j + nextWait s j) = false) :
    wrcmd b (afterReads s j acc) =
      (.error (.timeout .wrcmdWait2),
        afterReads s (j + nextWait s j + nextWait s (j + nextWait s j)) (acc ++ toPayloadAccesses s j)) := by
  unfold wrcmd
  rw [writeWait_afterReads_ok s _ j acc (.inr h1)]
  dsimp only
  rw [writePort_afterReads, writeWait_afterReads_error s _ _ _ ht h2, List.append_assoc, List.append_assoc,
    ← List.append_assoc (waitAccesses s j)]
  rfl

theorem wrcmd_afterReads_ok (b : Byte) (j : Nat) (acc : List Access)
    (h : s.cfg.wrExhaust = .proceed ∨
      waitClears s s.cfg.wLimit j = true ∧ waitClears s s.cfg.wLimit (j + nextWait s j) = true) :
    wrcmd b (afterReads s j acc) =
      (.ok (), afterReads s (j + nextWait s j + nextWait s (j + nextWait s j))
        (acc ++ toPayloadAccesses s j ++ [.wr s.cfg.portData b])) := by
  unfold wrcmd
  rw [writeWait_afterReads_ok s _ j acc (h.imp id And.left)]
  dsimp only
  rw [writePort_afterReads, writeWait_afterReads_ok s _ _ _ (h.imp id And.right)]
  dsimp only
  rw [writePort_afterReads, List.append_assoc acc, List.append_assoc acc]
  rfl

/-! ### RDRSP -/

/-- The answer `k` is the first with OBF and AUX set: the data port is read at once. -/
theorem pollLoop_afterReads_ok {k n j : Nat} (acc : List Access) (hk : k < n)
    (hno : ∀ i < k, mouseByte s (s.answer (j + i)) = false) (hyes : mouseByte s (s.answer (j + k)) = true) :
    pollLoop n (afterReads s j acc) =
      (.ok (s.answer (j + k + 1)), afterReads s (j + k + 2)
        (acc ++ (reads s s.cfg.portStcmd j (k + 1) ++ [.rd s.cfg.portData (s.answer (j + k + 1))]))) := by
  induction n generalizing k j acc with
  | zero => omega
  | succ n ih =>
    rw [pollLoop, readStatus_afterReads]
    change (if mouseByte s (s.answer j) then _ else _) = _
    cases k with
    | zero =>
      rw [if_pos (show mouseByte s (s.answer j) = true from hyes), readData_afterReads, List.append_assoc]
      rfl
    | succ k =>
      have hj : mouseByte s (s.answer j) = false := hno 0 (Nat.succ_pos k)
      have hshift (i : Nat) : j + 1 + i = j + (i + 1) := by omega
      rw [if_neg (by rw [hj]; decide), ih (k := k) _ (by omega) (fun i hi => by rw [hshift]; exact hno (i + 1) (by omega))
        (by rw [hshift]; exact hyes), reads_succ s _ j (k + 1), hshift, List.append_assoc]
      rfl

/-- No answer has both set. -/
theorem pollLoop_afterReads_error {n j : Nat} (acc : List Access)
    (hno : ∀ i < n, mouseByte s (s.answer (j + i)) = false) :
    pollLoop n (afterReads s j acc) =
      (.error (.timeout .rdrsp), afterReads s (j + n) (acc ++ reads s s.cfg.portStcmd j n)) := by
  induction n generalizing j acc with
  | zero => rw [pollLoop, reads, List.range_zero, List.map_nil, List.append_nil, Nat.add_zero]
  | succ n ih =>
    have hj : mouseByte s (s.answer j) = false := hno 0 (Nat.succ_pos n)
    have hshift (i : Nat) : j + 1 + i = j + (i + 1) := by omega
    rw [pollLoop, readStatus_afterReads]
    change (if mouseByte s (s.answer j) then _ else _) = _
    rw [if_neg (by rw [hj]; decide), ih _ (fun i hi => by rw [hshift]; exact hno (i + 1) (by omega)), reads_succ, hshift,
      List.append_assoc]
    rfl

/-! ### What a procedure depends on -/

/-- The two states agree on the parameters, the answers to come and the history. -/
structure SameEnv (s t : State) : Prop where
  cfg : t.cfg = s.cfg
  script : t.script = s.script
  draws : t.draws = s.draws
  history : t.history = s.history

/-- Two procedures' outcomes agree on the result and the environment. -/
def SameOutcome {α : Type} (r r' : α × State) : Prop := r'.1 = r.1 ∧ SameEnv r.2 r'.2

section
variable {s t : State}

theorem portRead_sameEnv (p : PortAddr) (h : SameEnv s t) : SameOutcome (portRead p s) (portRead p t) := by
  have hanswer : t.answer 0 = s.answer 0 := by simp only [State.answer, h.script, h.draws]
  refine ⟨by rw [portRead_value, portRead_value, hanswer], ?_, ?_, ?_, ?_⟩
  · rw [portRead_cfg, portRead_cfg, h.cfg]
  · rw [portRead_script, portRead_script, h.script]
  · rw [portRead_draws, portRead_draws, h.draws, h.script]
  · rw [portRead_history, portRead_history, h.history, hanswer]

theorem readStatus_sameEnv (h : SameEnv s t) : SameOutcome (readStatus s) (readStatus t) := by
  unfold readStatus
  rw [h.cfg]
  exact portRead_sameEnv _ h

theorem readData_sameEnv (h : SameEnv s t) : SameOutcome (readData s) (readData t) := by
  unfold readData
  rw [h.cfg]
  exact portRead_sameEnv _ h

theorem writePort_sameEnv (p : Port) (v : Byte) (h : SameEnv s t) : SameEnv (writePort p v s) (writePort p v t) :=
  ⟨h.cfg, h.script, h.draws, by rw [writePort_history, writePort_history, h.history, h.cfg]⟩

theorem waitLoop_sameEnv (n : Nat) (h : SameEnv s t) : SameOutcome (waitLoop n s) (waitLoop n t) := by
  induction n generalizing s t with
  | zero => exact ⟨rfl, h⟩
  | succ n ih =>
    obtain ⟨hv, hs⟩ := readStatus_sameEnv h
    simp only [waitLoop, hv, h.cfg]
    split_ifs
    · exact ih hs
    · exact ⟨rfl, hs⟩

theorem pollLoop_sameEnv (n : Nat) (h : SameEnv s t) : SameOutcome (pollLoop n s) (pollLoop n t) := by
  induction n generalizing s t with
  | zero => exact ⟨rfl, h⟩
  | succ n ih =>
    obtain ⟨hv, hs⟩ := readStatus_sameEnv h
    obtain ⟨hd, hs'⟩ := readData_sameEnv hs
    simp only [pollLoop, hv, h.cfg]
    split_ifs
    · exact ⟨by rw [hd], hs'⟩
    · exact ih hs

theorem rdrsp_sameEnv (h : SameEnv s t) : SameOutcome (rdrsp s) (rdrsp t) := by
  unfold rdrsp
  rw [h.cfg]
  exact pollLoop_sameEnv _ h

theorem writeWait_sameEnv (site : Site) (h : SameEnv s t) : SameOutcome (writeWait site s) (writeWait site t) := by
  have hw := waitLoop_sameEnv s.cfg.wLimit h
  unfold writeWait waitInputClear
  rw [h.cfg]
  generalize waitLoop s.cfg.wLimit s = r at hw ⊢
  generalize waitLoop s.cfg.wLimit t = r' at hw ⊢
  obtain ⟨w, s1⟩ := r
  obtain ⟨w', t1⟩ := r'
  obtain ⟨rfl, h1⟩ := hw
  dsimp only at h1 ⊢
  cases w'
  · exact ⟨rfl, h1⟩
  · simp only [h1.cfg]
    cases s1.cfg.wrExhaust
    · exact ⟨rfl, h1⟩
    · exact ⟨rfl, h1⟩

theorem wrcmd_sameEnv (b : Byte) (h : SameEnv s t) : SameOutcome (wrcmd b s) (wrcmd b t) := by
  have h1 := writeWait_sameEnv .wrcmdWait1 h
  unfold wrcmd
  generalize writeWait .wrcmdWait1 s = r at h1 ⊢
  generalize writeWait .wrcmdWait1 t = r' at h1 ⊢
  obtain ⟨_ | _, s1⟩ := r <;> obtain ⟨_, t1⟩ := r' <;> obtain ⟨rfl, h1⟩ := h1
  · exact ⟨rfl, h1⟩
  have h2 := writeWait_sameEnv .wrcmdWait2 (writePort_sameEnv .stcmd s1.cfg.cFwdAux h1)
  dsimp only at h1 ⊢
  rw [h1.cfg]
  generalize writeWait .wrcmdWait2 (writePort .stcmd s1.cfg.cFwdAux s1) = q at h2 ⊢
  generalize writeWait .wrcmdWait2 (writePort .stcmd s1.cfg.cFwdAux t1) = q' at h2 ⊢
  obtain ⟨_ | _, s2⟩ := q <;> obtain ⟨_, t2⟩ := q' <;> obtain ⟨rfl, h2⟩ := h2
  · exact ⟨rfl, h2⟩
  · exact ⟨rfl, writePort_sameEnv .data b h2⟩

theorem send_sameEnv (b : Byte) (h : SameEnv s t) : SameOutcome (send b s) (send b t) := by
  have h1 := wrcmd_sameEnv b h
  unfold send
  generalize wrcmd b s = r at h1 ⊢
  generalize wrcmd b t = r' at h1 ⊢
  obtain ⟨_ | _, s1⟩ := r <;> obtain ⟨_, t1⟩ := r' <;> obtain ⟨rfl, h1⟩ := h1
  · exact ⟨rfl, h1⟩
  · exact rdrsp_sameEnv h1

end

end Sys2Proof.Machine

namespace Sys2Proof.Proofs

open Sys2Proof.Machine Sys2Proof.Claims

/-- Settles O35: the wait's reads counted by `waitReads`, whose value is known where the first answer with IBF = 0 is. -/
theorem waitInputClearClosedForm : Obligations.WaitInputClearClosedForm := by
  unfold Obligations.WaitInputClearClosedForm
  intro s
  have hwait := waitLoop_afterReads s s.cfg.wLimit 0 []
  simp only [afterReads_zero, Nat.zero_add, List.nil_append] at hwait
  refine ⟨fun k hk hfull hclear => ?_, fun hfull => ?_⟩
  · obtain ⟨hr, hc⟩ := waitReads_of_first s (j := 0) hk (fun i hi => by rw [Nat.zero_add]; exact hfull i hi)
      (by rw [Nat.zero_add]; exact hclear)
    rw [waitInputClear, hwait, hr, hc]
    rfl
  · obtain ⟨hr, hc⟩ := waitReads_of_full s (j := 0) (fun i hi => by rw [Nat.zero_add]; exact hfull i hi)
    rw [waitInputClear, hwait, hr, hc]
    rfl

/-- Settles O36: WRCMD from the first answer on, in each of its three endings. -/
theorem wrcmdWritesCommandThenPayload : Obligations.WrcmdWritesCommandThenPayload := by
  unfold Obligations.WrcmdWritesCommandThenPayload
  intro b s hready w j k first upToSecond
  have hexec := exec_wrcmd_of_ready b hready
  refine ⟨fun h => ?ok, fun ht h => ?wait1, fun ht h1 h2 => ?wait2⟩
  case ok =>
    have hw := wrcmd_afterReads_ok s b 0 [] (by rw [Nat.zero_add]; exact h)
    simp only [afterReads_zero, toPayloadAccesses, Nat.zero_add, List.nil_append] at hw
    rw [hexec, hw]; rfl
  case wait1 =>
    have hw := wrcmd_afterReads_wait1 s b 0 [] ht h
    simp only [afterReads_zero, Nat.zero_add, List.nil_append] at hw
    rw [hexec, hw]; rfl
  case wait2 =>
    have hw := wrcmd_afterReads_wait2 s b 0 [] ht h1 (by rw [Nat.zero_add]; exact h2)
    simp only [afterReads_zero, toPayloadAccesses, Nat.zero_add, List.nil_append] at hw
    rw [hexec, hw]; rfl

/-- Settles O37: the poll from the first answer on. -/
theorem rdrspReadsOneMouseByte : Obligations.RdrspReadsOneMouseByte := by
  unfold Obligations.RdrspReadsOneMouseByte
  intro a s hready
  have hexec := exec_rdrsp_of_ready a hready
  refine ⟨fun k hk hno hyes => ?_, fun hno => ?_⟩
  · have hp := pollLoop_afterReads_ok s (j := 0) [] hk (fun i hi => by rw [Nat.zero_add]; exact hno i hi)
      (by rw [Nat.zero_add]; exact hyes)
    simp only [afterReads_zero, Nat.zero_add, List.nil_append] at hp
    rw [hexec, rdrsp, hp]; rfl
  · have hp := pollLoop_afterReads_error s (j := 0) (n := s.cfg.rLimit) [] (fun i hi => by rw [Nat.zero_add]; exact hno i hi)
    simp only [afterReads_zero, Nat.zero_add, List.nil_append] at hp
    rw [hexec, rdrsp, hp]; rfl

/-- Settles O38: the RDRSP that follows depends on no delivered result. -/
theorem sendIsWrcmdThenRdrsp : Obligations.SendIsWrcmdThenRdrsp := by
  unfold Obligations.SendIsWrcmdThenRdrsp
  intro b s hready
  obtain ⟨_, henv, _⟩ := wrcmd_spec b s
  unfold sendPseudo send
  rw [exec_wrcmd_of_ready b hready]
  generalize wrcmd b s = r at henv ⊢
  obtain ⟨e | _, u⟩ := r
  · refine ⟨raiseToHost e u, ?_, rfl, rfl, rfl, List.getLast?_concat⟩
    simp only [finishUnit, raiseToHost_results, List.getLast?_concat]
  · have hu : Ready (deliver .ok u) := ⟨henv.seq_eq.trans hready.1, by
      change u.session ≠ _
      rw [henv.session_eq]; exact hready.2⟩
    have hsame : SameOutcome (rdrsp u) (rdrsp (deliver .ok u)) := rdrsp_sameEnv ⟨rfl, rfl, rfl, rfl⟩
    refine ⟨finishByte (rdrsp (deliver .ok u)), ?_, ?_⟩
    · simp only [finishUnit, deliver_results, List.getLast?_concat]
      exact exec_rdrsp_of_ready 0 hu
    · dsimp only
      generalize rdrsp u = r at hsame ⊢
      generalize rdrsp (deliver .ok u) = r' at hsame ⊢
      obtain ⟨_ | _, v⟩ := r <;> obtain ⟨_, v'⟩ := r' <;> obtain ⟨rfl, hv⟩ := hsame
      · exact ⟨hv.history, hv.script, hv.draws, List.getLast?_concat⟩
      · exact ⟨hv.history, hv.script, hv.draws, List.getLast?_concat⟩

end Sys2Proof.Proofs
end

