-- ==== Sys2Proof/Proofs/Initializer.lean ====
section
/-! PROOFS. 41_initializer.md: the steps of INIT, the probe as seven SENDs and one RDRSP, the ways INIT ends, and the registers
it does not depend on. -/

namespace Sys2Proof.Machine

open Sys2Proof.Claims

variable {s t u v : State}

/-! ### The steps, by what the procedures answer -/

theorem send_of_wrcmd_error {b : Byte} {e : ErrorKind} (h : wrcmd b s = (.error e, u)) : send b s = (.error e, u) := by
  simp only [send, h]

theorem send_of_wrcmd_ok {b : Byte} (h : wrcmd b s = (.ok (), u)) : send b s = rdrsp u := by
  simp only [send, h]

theorem sendMandatory_of_error {site : Site} {b : Byte} {e : ErrorKind} (h : send b s = (.error e, u)) :
    sendMandatory site b s = (.error (.timeout site), u) := by
  simp only [sendMandatory, h]

theorem sendMandatory_of_ok {site : Site} {b v : Byte} (h : send b s = (.ok v, u)) :
    sendMandatory site b s = (.ok (), u) := by
  simp only [sendMandatory, h]

theorem initRun_of_enablePort_error {e : ErrorKind} (h : enablePort s = (.error e, u)) : initRun s = (.error e, u) := by
  simp only [initRun, h]

theorem initRun_of_setDefaults_error {e : ErrorKind} (h : enablePort s = (.ok (), u))
    (h' : sendMandatory .initSetDefaults u.cfg.cSetDefaults u = (.error e, v)) : initRun s = (.error e, v) := by
  simp only [initRun, h, h']

theorem initRun_of_setDefaults_ok (h : enablePort s = (.ok (), u))
    (h' : sendMandatory .initSetDefaults u.cfg.cSetDefaults u = (.ok (), v)) :
    initRun s = sendMandatory .initEnableStream (probeStep v).cfg.cEnableStream (probeStep v) := by
  simp only [initRun, h, h']

/-! ### The probe as SENDs in order -/

/-- The SENDs of these bytes, one after the other; the first Timeout ends them. -/
def sendAll : List Byte → State → Except ErrorKind Unit × State
  | [], s => (.ok (), s)
  | b :: rest, s =>
    match send b s with
    | (.error e, s1) => (.error e, s1)
    | (.ok _, s1) => sendAll rest s1

theorem sendAll_cons_error {b : Byte} {rest : List Byte} {e : ErrorKind} (h : send b s = (.error e, u)) :
    sendAll (b :: rest) s = (.error e, u) := by
  simp only [sendAll, h]

theorem sendAll_cons_ok {b v : Byte} {rest : List Byte} (h : send b s = (.ok v, u)) :
    sendAll (b :: rest) s = sendAll rest u := by
  simp only [sendAll, h]

theorem sendsOk_eq_some_iff {l : List Byte} : sendsOk l s = some u ↔ sendAll l s = (.ok (), u) := by
  induction l generalizing s with
  | nil => simp [sendsOk, sendAll]
  | cons b rest ih =>
    rcases h : send b s with ⟨e | w, s1⟩
    · simp [sendsOk, h, sendAll_cons_error h]
    · rw [sendAll_cons_ok h, ← ih]
      simp only [sendsOk, h]

theorem sendAll_append_of_ok {l m : List Byte} (h : sendAll l s = (.ok (), u)) : sendAll (l ++ m) s = sendAll m u := by
  induction l generalizing s with
  | nil => cases h; rfl
  | cons b rest ih =>
    rcases hb : send b s with ⟨e | w, s1⟩
    · rw [sendAll_cons_error hb] at h; cases h
    · rw [sendAll_cons_ok hb] at h
      rw [List.cons_append, sendAll_cons_ok hb, ih h]

theorem sendAll_append_of_error {l m : List Byte} {e : ErrorKind} (h : sendAll l s = (.error e, u)) :
    sendAll (l ++ m) s = (.error e, u) := by
  induction l generalizing s with
  | nil => cases h
  | cons b rest ih =>
    rw [List.cons_append]
    rcases hb : send b s with ⟨e' | w, s1⟩
    · rw [sendAll_cons_error hb] at h ⊢; exact h
    · rw [sendAll_cons_ok hb] at h ⊢; exact ih h

theorem send_cfg (b : Byte) (s : State) : (send b s).2.cfg = s.cfg := (send_portsOnly b s).1

/-- The magic sequence is the SENDs of the command byte and the rate, for each rate. -/
theorem sendRates_eq_sendAll (l : List Byte) (s : State) :
    sendRates l s = sendAll (l.flatMap fun r => [s.cfg.cSetRate, r]) s := by
  induction l generalizing s with
  | nil => rfl
  | cons r rest ih =>
    have hc1 := send_cfg s.cfg.cSetRate s
    rw [List.flatMap_cons, List.cons_append, List.singleton_append]
    rcases h1 : send s.cfg.cSetRate s with ⟨e | w, s1⟩ <;> rw [h1] at hc1
    · rw [sendAll_cons_error h1]
      simp only [sendRates, h1]
    · have hc2 := send_cfg r s1
      rw [sendAll_cons_ok h1]
      rcases h2 : send r s1 with ⟨e | w', s2⟩ <;> rw [h2] at hc2
      · rw [sendAll_cons_error h2]
        simp only [sendRates, h1, h2]
      · have hc : s2.cfg.cSetRate = s.cfg.cSetRate := congrArg Config.cSetRate (hc2.trans hc1)
        rw [sendAll_cons_ok h2]
        simp only [sendRates, h1, h2, ih, hc]

/-- The probe, its seven SENDs in one list. -/
def probeBySends (s : State) : Except ErrorKind Byte × State :=
  match sendAll (probeBytes s.cfg) s with
  | (.error e, s1) => (.error e, s1)
  | (.ok _, s1) => rdrsp s1

theorem probe_eq_probeBySends (s : State) : probe s = probeBySends s := by
  have hbytes : probeBytes s.cfg = (rateSeq.flatMap fun r => [s.cfg.cSetRate, r]) ++ [s.cfg.cGetId] := rfl
  have hcfg := (sendRates_portsOnly rateSeq s).1
  unfold probeBySends
  rw [hbytes]
  rcases hrates : sendRates rateSeq s with ⟨e | _, s1⟩ <;> rw [hrates] at hcfg <;>
    have hall := (sendRates_eq_sendAll rateSeq s).symm.trans hrates
  · rw [sendAll_append_of_error hall]
    simp only [probe, hrates]
  · have hid : s1.cfg.cGetId = s.cfg.cGetId := congrArg Config.cGetId hcfg
    rw [sendAll_append_of_ok hall]
    rcases hsend : send s.cfg.cGetId s1 with ⟨e | w, s2⟩
    · rw [sendAll_cons_error hsend]
      simp only [probe, hrates, hid, hsend]
    · rw [sendAll_cons_ok hsend]
      simp only [probe, hrates, hid, hsend, sendAll]

theorem probe_of_sendAll_ok (h : sendAll (probeBytes s.cfg) s = (.ok (), u)) : probe s = rdrsp u := by
  rw [probe_eq_probeBySends]
  simp only [probeBySends, h]

theorem probe_of_sendAll_error {e : ErrorKind} (h : sendAll (probeBytes s.cfg) s = (.error e, u)) :
    probe s = (.error e, u) := by
  rw [probe_eq_probeBySends]
  simp only [probeBySends, h]

/-- What the probe leaves: the configuration pair set exactly when it answered the ID 3. -/
theorem probeStep_eq (s : State) :
    probeStep s = { (probe s).2 with
      wheelCapable := if (probe s).1 = .ok 3 then true else s.wheelCapable
      packetSize := if (probe s).1 = .ok 3 then .four else s.packetSize } := by
  obtain ⟨ext, henv, _⟩ := probe_spec s
  have hw := henv.wheelCapable_eq
  have hp := henv.packetSize_eq
  unfold probeStep
  rcases h : probe s with ⟨e | id, s1⟩ <;> rw [h] at hw hp
  · simp only [reduceCtorEq, if_false, ← hw, ← hp]
  · by_cases hid : id = 3
    · simp only [hid, applyId_eq, Config.wheelId, if_true]
      rfl
    · simp only [hid, applyId_eq, Config.wheelId, Except.ok.injEq, if_false, ← hw, ← hp]

/-! ### The ways INIT ends -/

/-- INIT ends with `Ok`, the session configured, or with the Timeout of a mandatory step. -/
theorem finishInit_initRun_cases (s : State) :
    ((finishInit (initRun s)).results = s.results ++ [.ok] ∧ (finishInit (initRun s)).session = .configured) ∨
      ∃ site, (finishInit (initRun s)).results = s.results ++ [.err (.timeout site)] ∧
        (finishInit (initRun s)).session = s.session ∧ initSite s.cfg site := by
  obtain ⟨ext, henv, _, hres⟩ := initRun_spec s
  have hr := henv.results_eq
  have hs := henv.session_eq
  generalize initRun s = r at hr hs hres ⊢
  obtain ⟨e | _, u⟩ := r
  · obtain he | ⟨site, he, hsite⟩ := hres
    · cases he
    · cases he
      exact .inr ⟨site, congrArg (· ++ _) hr, hs, hsite⟩
  · exact .inl ⟨congrArg (· ++ _) hr, rfl⟩

/-- Delivering INIT's result moves neither the configuration pair nor the history. -/
theorem finishInit_fields (r : Except ErrorKind Unit × State) :
    (finishInit r).wheelCapable = r.2.wheelCapable ∧ (finishInit r).packetSize = r.2.packetSize ∧
      (finishInit r).history = r.2.history := by
  obtain ⟨_ | _, u⟩ := r <;> exact ⟨rfl, rfl, rfl⟩

theorem finishUnit_history (r : Except ErrorKind Unit × State) : (finishUnit r).history = r.2.history := by
  obtain ⟨_ | _, u⟩ := r <;> rfl

theorem finishByte_history (r : Except ErrorKind Byte × State) : (finishByte r).history = r.2.history := by
  obtain ⟨_ | _, u⟩ := r <;> rfl

/-- An INIT that turned the wheel on went through steps 1 and 2, and its probe answered 3. -/
theorem initRun_wheel (hw : s.wheelCapable = false) (hw' : (initRun s).2.wheelCapable = true) :
    ∃ s1 s2 s4, enablePort s = (.ok (), s1) ∧ sendMandatory .initSetDefaults s1.cfg.cSetDefaults s1 = (.ok (), s2) ∧
      probe s2 = (.ok 3, s4) ∧ (initRun s).2.packetSize = .four ∧ ∃ after, (initRun s).2.history = s4.history ++ after := by
  obtain ⟨e1, henv1, _⟩ := enablePort_spec s
  rcases initRun_cases s with ⟨e, s1, h1, h⟩ | ⟨s1, e, s2, h1, h2, h⟩ | ⟨s1, s2, h1, h2, h⟩ <;> rw [h1] at henv1 <;>
    rw [h] at hw' ⊢
  · have heq : s1.wheelCapable = s.wheelCapable := henv1.wheelCapable_eq
    rw [heq, hw] at hw'; cases hw'
  all_goals
    obtain ⟨e2, henv2, _⟩ := sendMandatory_spec .initSetDefaults s1.cfg.cSetDefaults s1
    rw [h2] at henv2
    have henv := henv1.trans henv2
    have heq : s2.wheelCapable = s.wheelCapable := henv.wheelCapable_eq
  · rw [heq, hw] at hw'; cases hw'
  · obtain ⟨e4, henv4, _⟩ := sendMandatory_spec .initEnableStream (probeStep s2).cfg.cEnableStream (probeStep s2)
    rw [henv4.wheelCapable_eq] at hw'
    have hid : (probe s2).1 = .ok 3 := by
      rw [probeStep_eq] at hw'
      by_contra hne
      simp only [if_neg hne, heq, hw, Bool.false_eq_true] at hw'
    refine ⟨s1, s2, (probe s2).2, h1, h2, Prod.ext hid rfl, ?_, e4, ?_⟩
    · rw [henv4.packetSize_eq, probeStep_eq]; exact if_pos hid
    · rw [henv4.history_eq, probeStep_eq]

end Sys2Proof.Machine

namespace Sys2Proof.Proofs

open Sys2Proof.Machine Sys2Proof.Claims

/-- Settles O41: INIT's results and its frame. -/
theorem initCompletes : Obligations.InitCompletes := by
  unfold Obligations.InitCompletes
  intro a s hq hs
  have hend := finishInit_initRun_end s
  refine ⟨_, exec_init_of_ready a hq hs, ?_, hend.pair, hend.heldL, hend.heldR, hend.heldM, hend.posX, hend.posY, hend.buf,
    hend.idx, hend.seq.trans hq, hend.requests, hend.cfg⟩
  rcases finishInit_initRun_cases s with h | ⟨site, hr, hsession, hsite⟩
  · exact .inl h
  · exact .inr ⟨site, hr, hsession.trans hs, hsite⟩

/-- Settles O43: the wheel is set from the probe's answer alone, which the last RDRSP read from the data port. -/
theorem wheelNeedsDeviceIdThree : Obligations.WheelNeedsDeviceIdThree := by
  unfold Obligations.WheelNeedsDeviceIdThree
  intro a s t h hw hw'
  rw [execInit_next (a := a) h] at hw' ⊢
  obtain ⟨hfw, hfp, hfh⟩ := finishInit_fields (initRun s)
  rw [hfw] at hw'
  rw [hfp, hfh]
  obtain ⟨s1, s2, s4, h1, h2, hprobe, hsize, after, hafter⟩ := initRun_wheel hw hw'
  obtain ⟨e1, henv1, _⟩ := enablePort_spec s
  obtain ⟨e2, henv2, _⟩ := sendMandatory_spec .initSetDefaults s1.cfg.cSetDefaults s1
  obtain ⟨e3, henv3, _, hread⟩ := probe_spec s2
  rw [h1] at henv1
  rw [h2] at henv2
  rw [hprobe] at henv3 hread
  have hc2 : s2.cfg = s.cfg := henv2.cfg_eq.trans henv1.cfg_eq
  have hmem : Access.rd s.cfg.portData 3 ∈ e3 := by
    rcases hread with ⟨id, hid, hm⟩ | ⟨site, hid⟩ <;> cases hid
    rwa [hc2] at hm
  have hhist : (initRun s).2.history = s.history ++ (e1 ++ e2 ++ e3 ++ after) := by
    rw [hafter, henv3.history_eq, henv2.history_eq, henv1.history_eq]
    simp only [List.append_assoc]
  refine ⟨hsize, ?_, s1, s2, ?_⟩
  · rw [hhist, List.drop_left]
    simp only [List.mem_append, hmem, or_true, true_or]
  rcases hall : sendAll (probeBytes s2.cfg) s2 with ⟨e | _, s3⟩
  · rw [probe_of_sendAll_error hall] at hprobe; cases hprobe
  have hrd : rdrsp s3 = (.ok 3, s4) := (probe_of_sendAll_ok hall).symm.trans hprobe
  obtain ⟨before, ext, henv, _, _, hlast⟩ := pollLoop_spec s3.cfg.rLimit s3
  rw [show pollLoop s3.cfg.rLimit s3 = (.ok 3, s4) from hrd] at henv hlast
  have hc3 : s3.cfg = s.cfg := by rw [← henv.cfg_eq, henv3.cfg_eq, hc2]
  refine ⟨s3, s4, before, after, h1, h2, sendsOk_eq_some_iff.2 hall, hrd, hprobe, ?_, hafter⟩
  rcases hlast with ⟨v, hv, rfl⟩ | ⟨hv, _⟩
  · cases hv
    rw [henv.history_eq, hc3, List.append_assoc]
  · cases hv

/-- Settles O45: the probe's outcome is read only to set the configuration pair; its SENDs end at the first Timeout. -/
theorem probeOutcomeIsSwallowed : Obligations.ProbeOutcomeIsSwallowed := by
  unfold Obligations.ProbeOutcomeIsSwallowed
  refine ⟨?stream, ?fails, ?succeeds⟩
  case stream =>
    intro a s s1 s2 hq hs h1 h2 s3
    have hs3 : s3 = probeStep s2 := (probeStep_eq s2).symm
    rw [exec_init_of_ready a hq hs, initRun_of_setDefaults_ok h1 h2, ← hs3]
    rcases h : send s3.cfg.cEnableStream s3 with ⟨e | v, u⟩
    · rw [sendMandatory_of_error h]; rfl
    · rw [sendMandatory_of_ok h]; rfl
  case fails =>
    intro s s1 u sent unsent b e hbytes hsent hb
    refine probe_of_sendAll_error ?_
    rw [hbytes, sendAll_append_of_ok (sendsOk_eq_some_iff.1 hsent), sendAll_cons_error hb]
  case succeeds =>
    intro s s1 h
    exact probe_of_sendAll_ok (sendsOk_eq_some_iff.1 h)

/-- Settles O54: the budgets of the waits and polls, counted in the procedures' laws. -/
theorem accessCountsAreBounded : Obligations.AccessCountsAreBounded := by
  unfold Obligations.AccessCountsAreBounded
  intro a s t
  refine ⟨fun h => ?_, fun h => ?_, fun h => ?_⟩
  · obtain ⟨ext, henv, hlen, _⟩ := wrcmd_spec a s
    rw [execWrcmd_next (b := a) h, finishUnit_history, henv.history_eq, List.length_append]
    omega
  · obtain ⟨ext, henv, hlen, _⟩ := rdrsp_spec s
    rw [execRdrsp_next (a := a) h, finishByte_history, henv.history_eq, List.length_append]
    omega
  · obtain ⟨ext, henv, hlen, _⟩ := initRun_spec s
    rw [execInit_next (a := a) h, (finishInit_fields _).2.2, henv.history_eq, List.length_append]
    omega

end Sys2Proof.Proofs
end

