-- ==== Sys2Proof/Proofs/InitRuns.lean ====
section
/-! PROOFS. Whole runs of INIT: those that end at step 1 or 2, access by access (41_initializer.md rules R102, R103); the run in
which every wait and poll ends at its first read (vectors I1, I2, I9); and that no register has a part in any of them. -/

namespace Sys2Proof.Machine

open Sys2Proof.Claims

variable (s : State)

/-! ### Step 1 in closed form -/

theorem enablePort_afterReads_error (j : Nat) (acc : List Access) (ht : s.cfg.wrExhaust = .timeout)
    (h : waitClears s s.cfg.wLimit j = false) :
    enablePort (afterReads s j acc) =
      (.error (.timeout .initEnablePort), afterReads s (j + nextWait s j) (acc ++ waitAccesses s j)) := by
  simp only [enablePort, writeWait_afterReads_error s _ j acc ht h]

theorem enablePort_afterReads_ok (j : Nat) (acc : List Access)
    (h : s.cfg.wrExhaust = .proceed ∨ waitClears s s.cfg.wLimit j = true) :
    enablePort (afterReads s j acc) =
      (.ok (), afterReads s (j + nextWait s j)
        (acc ++ waitAccesses s j ++ [.wr s.cfg.portStcmd s.cfg.cEnableAux])) := by
  simp only [enablePort, writeWait_afterReads_ok s _ j acc h, writePort_afterReads]
  rfl

/-- INIT's accesses up to set-defaults: the wait and the write of step 1. -/
def enableAccesses : List Access := waitAccesses s 0 ++ [.wr s.cfg.portStcmd s.cfg.cEnableAux]

theorem enablePort_ok (h : s.cfg.wrExhaust = .proceed ∨ waitClears s s.cfg.wLimit 0 = true) :
    enablePort s = (.ok (), afterReads s (nextWait s 0) (enableAccesses s)) := by
  simpa only [afterReads_zero, Nat.zero_add, List.nil_append, enableAccesses] using enablePort_afterReads_ok s 0 [] h

/-- A Timeout of set-defaults ends INIT where it was raised. -/
theorem initRun_of_setDefaults_timeout {e : ErrorKind} {u : State}
    (h1 : s.cfg.wrExhaust = .proceed ∨ waitClears s s.cfg.wLimit 0 = true)
    (h2 : send s.cfg.cSetDefaults (afterReads s (nextWait s 0) (enableAccesses s)) = (.error e, u)) :
    initRun s = (.error (.timeout .initSetDefaults), u) :=
  initRun_of_setDefaults_error (enablePort_ok s h1) (sendMandatory_of_error h2)

/-! ### Reads that end at once -/

/-- `s` after the answers before `rest` were taken and the accesses `acc` made. -/
def tookAll (rest : List Byte) (acc : List Access) : State := { s with script := rest, history := s.history ++ acc }

theorem tookAll_tookAll (rest rest' : List Byte) (acc acc' : List Access) :
    tookAll (tookAll s rest acc) rest' acc' = tookAll s rest' (acc ++ acc') := by
  simp only [tookAll, List.append_assoc]

theorem tookAll_cfg (rest : List Byte) (acc : List Access) : (tookAll s rest acc).cfg = s.cfg := rfl

theorem writePort_tookAll (p : Port) (v : Byte) (rest : List Byte) (acc : List Access) :
    writePort p v (tookAll s rest acc) = tookAll s rest (acc ++ [.wr (s.cfg.addr p) v]) := by
  simp only [writePort, portWrite, tookAll, List.append_assoc]

theorem portRead_of_script {p : PortAddr} {v : Byte} {rest : List Byte} (h : s.script = v :: rest) :
    portRead p s = (v, tookAll s rest [.rd p v]) := by
  unfold portRead
  rw [h]
  rfl

variable {s}

theorem readStatus_of_script {v : Byte} {rest : List Byte} (h : s.script = v :: rest) :
    readStatus s = (v, tookAll s rest [.rd s.cfg.portStcmd v]) := portRead_of_script s h

theorem readData_of_script {v : Byte} {rest : List Byte} (h : s.script = v :: rest) :
    readData s = (v, tookAll s rest [.rd s.cfg.portData v]) := portRead_of_script s h

/-- A wait that finds IBF = 0 at its first read. -/
theorem writeWait_of_script {site : Site} {v : Byte} {rest : List Byte} (hw : 0 < s.cfg.wLimit) (h : s.script = v :: rest)
    (hv : v.getLsbD s.cfg.stIbf.val = false) :
    writeWait site s = (.ok (), tookAll s rest [.rd s.cfg.portStcmd v]) := by
  obtain ⟨n, hn⟩ := Nat.exists_eq_succ_of_ne_zero hw.ne'
  have hfull : inputFull s.cfg v = false := hv
  simp only [writeWait, waitInputClear, hn, Nat.succ_eq_add_one, waitLoop, readStatus_of_script h, hfull,
    Bool.false_eq_true, if_false]

/-- A poll that finds a byte from the mouse at its first read. -/
theorem rdrsp_of_script {ready v : Byte} {rest : List Byte} (hr : 0 < s.cfg.rLimit) (h : s.script = ready :: v :: rest)
    (hv : mouseByte s ready = true) :
    rdrsp s = (.ok v, tookAll s rest [.rd s.cfg.portStcmd ready, .rd s.cfg.portData v]) := by
  obtain ⟨n, hn⟩ := Nat.exists_eq_succ_of_ne_zero hr.ne'
  have hready : responseReady s.cfg ready = true := hv
  have hdata := readData_of_script (s := tookAll s (v :: rest) [.rd s.cfg.portStcmd ready]) rfl
  rw [tookAll_tookAll] at hdata
  simp only [rdrsp, hn, Nat.succ_eq_add_one, pollLoop, readStatus_of_script h, hready, if_true, hdata]
  rfl

theorem wrcmd_of_script {b c1 c2 : Byte} {rest : List Byte} (hw : 0 < s.cfg.wLimit) (h : s.script = c1 :: c2 :: rest)
    (h1 : c1.getLsbD s.cfg.stIbf.val = false) (h2 : c2.getLsbD s.cfg.stIbf.val = false) :
    wrcmd b s = (.ok (), tookAll s rest
      [.rd s.cfg.portStcmd c1, .wr s.cfg.portStcmd s.cfg.cFwdAux, .rd s.cfg.portStcmd c2, .wr s.cfg.portData b]) := by
  have hw2 := writeWait_of_script (site := .wrcmdWait2) hw
    (s := tookAll s (c2 :: rest) [.rd s.cfg.portStcmd c1, .wr s.cfg.portStcmd s.cfg.cFwdAux]) rfl h2
  simp only [wrcmd, writeWait_of_script hw h h1, tookAll_cfg, writePort_tookAll, Config.addr, List.cons_append,
    List.nil_append, hw2, tookAll_tookAll]

/-- A SEND whose waits and poll end at their first reads. -/
theorem send_of_script {b c1 c2 ready v : Byte} {rest : List Byte} (hw : 0 < s.cfg.wLimit) (hr : 0 < s.cfg.rLimit)
    (h : s.script = sendScript c1 c2 ready v ++ rest) (h1 : c1.getLsbD s.cfg.stIbf.val = false)
    (h2 : c2.getLsbD s.cfg.stIbf.val = false) (hready : mouseByte s ready = true) :
    send b s = (.ok v, tookAll s rest (sendAccesses s.cfg c1 c2 ready v b)) := by
  rw [send_of_wrcmd_ok (wrcmd_of_script (rest := ready :: v :: rest) hw h h1 h2), rdrsp_of_script (s := tookAll s _ _) hr rfl hready,
    tookAll_tookAll]
  rfl

/-! ### The ideal run -/

/-- The status bytes let every wait and every poll end at its first read. -/
structure IdealBytes (c : Config) (clear ready : Nat → Byte) : Prop where
  wLimit : 0 < c.wLimit
  rLimit : 0 < c.rLimit
  clear : ∀ n < 19, (clear n).getLsbD c.stIbf.val = false
  ready : ∀ n < 10, responseReady c (ready n) = true

/-- The answers of the ideal run's SEND number `n`, and its accesses when it sends `b`. -/
def nthScript (clear ready ack : Nat → Byte) (n : Nat) : List Byte :=
  sendScript (clear (2 * n + 1)) (clear (2 * n + 2)) (ready n) (ack n)

def nthAccesses (c : Config) (clear ready ack : Nat → Byte) (b : Byte) (n : Nat) : List Access :=
  sendAccesses c (clear (2 * n + 1)) (clear (2 * n + 2)) (ready n) (ack n) b

section Ideal

variable {clear ready ack : Nat → Byte}

theorem send_nth {b : Byte} {n : Nat} {rest : List Byte} (hi : IdealBytes s.cfg clear ready) (hn : n < 9)
    (h : s.script = nthScript clear ready ack n ++ rest) :
    send b s = (.ok (ack n), tookAll s rest (nthAccesses s.cfg clear ready ack b n)) :=
  send_of_script hi.wLimit hi.rLimit h (hi.clear _ (by omega)) (hi.clear _ (by omega)) (hi.ready _ (by omega))

/-- SENDs of the bytes `l`, numbered from `n` on, in the ideal run. -/
theorem sendAll_nth {l : List Byte} {n : Nat} {rest : List Byte} (hi : IdealBytes s.cfg clear ready)
    (hn : n + l.length ≤ 9) (h : s.script = (List.range' n l.length).flatMap (nthScript clear ready ack) ++ rest) :
    sendAll l s =
      (.ok (), tookAll s rest ((l.zipIdx n).flatMap fun p => nthAccesses s.cfg clear ready ack p.1 p.2)) := by
  induction l generalizing s n with
  | nil =>
    obtain rfl : s.script = rest := h
    simp only [sendAll, tookAll, List.zipIdx_nil, List.flatMap_nil, List.append_nil]
  | cons b l ih =>
    rw [List.length_cons] at hn
    rw [List.length_cons, List.range'_succ, List.flatMap_cons, List.append_assoc] at h
    rw [sendAll_cons_ok (send_nth hi (by omega) h), ih (s := tookAll s _ _) (n := n + 1) hi (by omega) rfl,
      tookAll_tookAll]
    rfl

theorem applyId_tookAll (id : Byte) (rest : List Byte) (acc : List Access) :
    applyId id (tookAll s rest acc) = tookAll (applyId id s) rest acc := by
  rw [applyId_eq, applyId_eq]
  split_ifs <;> rfl

theorem enablePort_of_script {c0 : Byte} {rest : List Byte} (hw : 0 < s.cfg.wLimit) (h : s.script = c0 :: rest)
    (h0 : c0.getLsbD s.cfg.stIbf.val = false) :
    enablePort s =
      (.ok (), tookAll s rest [.rd s.cfg.portStcmd c0, .wr s.cfg.portStcmd s.cfg.cEnableAux]) := by
  simp only [enablePort, writeWait_of_script hw h h0, tookAll_cfg, writePort_tookAll, Config.addr, List.cons_append,
    List.nil_append]

/-- The probe of the ideal run: its seven SENDs, the ID byte's read, and the write of the configuration pair. -/
theorem probeStep_ideal {id : Byte} {rest : List Byte} (hi : IdealBytes s.cfg clear ready)
    (h : s.script = (List.range' 1 7).flatMap (nthScript clear ready ack) ++ ready 8 :: id :: rest) :
    probeStep s = tookAll (applyId id s) rest
      (((probeBytes s.cfg).zipIdx 1).flatMap (fun p => nthAccesses s.cfg clear ready ack p.1 p.2) ++
        [.rd s.cfg.portStcmd (ready 8), .rd s.cfg.portData id]) := by
  have hsends := sendAll_nth (l := probeBytes s.cfg) (n := 1) hi (by simp [probeBytes]) h
  have hprobe := probe_of_sendAll_ok hsends
  rw [rdrsp_of_script (s := tookAll s _ _) hi.rLimit rfl (hi.ready 8 (by omega)), tookAll_tookAll] at hprobe
  rw [← applyId_tookAll]
  simp only [probeStep, hprobe, tookAll_cfg]

/-- The ideal INIT: its procedures one after the other. -/
theorem initRun_ideal {id : Byte} {rest : List Byte} (hi : IdealBytes s.cfg clear ready)
    (h : s.script = idealScript clear ready ack id ++ rest) :
    initRun s = (.ok (), tookAll (applyId id s) rest (idealAccesses s.cfg clear ready ack id)) := by
  have hcfg := (applyId_keeps s id).cfg
  have h1 := enablePort_of_script hi.wLimit h (hi.clear 0 (by omega))
  have h2 := send_nth (s := tookAll s _ [.rd s.cfg.portStcmd (clear 0), .wr s.cfg.portStcmd s.cfg.cEnableAux])
    (b := s.cfg.cSetDefaults) (n := 0) (ack := ack)
    (rest := (List.range' 1 7).flatMap (nthScript clear ready ack) ++
      ready 8 :: id :: (sendScript (clear 17) (clear 18) (ready 9) (ack 8) ++ rest)) hi (by omega) rfl
  rw [tookAll_tookAll] at h2
  rw [initRun_of_setDefaults_ok h1 (sendMandatory_of_ok h2), probeStep_ideal (s := tookAll s _ _) hi rfl, applyId_tookAll,
    tookAll_tookAll, sendMandatory_of_ok (send_of_script (s := tookAll (applyId id s) _ _) (hcfg ▸ hi.wLimit)
      (hcfg ▸ hi.rLimit) rfl (hcfg ▸ hi.clear 17 (by omega)) (hcfg ▸ hi.clear 18 (by omega)) (hcfg ▸ hi.ready 9 (by omega))),
    tookAll_tookAll, tookAll_cfg, tookAll_cfg, tookAll_cfg, hcfg]
  rfl

end Ideal

/-! ### INIT and the registers -/

section

variable {t : State}

theorem enablePort_sameEnv (h : SameEnv s t) : SameOutcome (enablePort s) (enablePort t) := by
  have h1 := writeWait_sameEnv .initEnablePort h
  unfold enablePort
  generalize writeWait .initEnablePort s = r at h1 ⊢
  generalize writeWait .initEnablePort t = r' at h1 ⊢
  obtain ⟨_ | _, s1⟩ := r <;> obtain ⟨_, t1⟩ := r' <;> obtain ⟨rfl, h1⟩ := h1
  · exact ⟨rfl, h1⟩
  · dsimp only at h1 ⊢
    rw [h1.cfg]
    exact ⟨rfl, writePort_sameEnv .stcmd _ h1⟩

theorem sendMandatory_sameEnv (site : Site) (b : Byte) (h : SameEnv s t) :
    SameOutcome (sendMandatory site b s) (sendMandatory site b t) := by
  have h1 := send_sameEnv b h
  unfold sendMandatory
  generalize send b s = r at h1 ⊢
  generalize send b t = r' at h1 ⊢
  obtain ⟨_ | _, s1⟩ := r <;> obtain ⟨_, t1⟩ := r' <;> obtain ⟨rfl, h1⟩ := h1
  · exact ⟨rfl, h1⟩
  · exact ⟨rfl, h1⟩

theorem sendAll_sameEnv (l : List Byte) (h : SameEnv s t) : SameOutcome (sendAll l s) (sendAll l t) := by
  induction l generalizing s t with
  | nil => exact ⟨rfl, h⟩
  | cons b rest ih =>
    have h1 := send_sameEnv b h
    unfold sendAll
    generalize send b s = r at h1 ⊢
    generalize send b t = r' at h1 ⊢
    obtain ⟨_ | _, s1⟩ := r <;> obtain ⟨_, t1⟩ := r' <;> obtain ⟨rfl, h1⟩ := h1
    · exact ⟨rfl, h1⟩
    · exact ih h1

theorem probe_sameEnv (h : SameEnv s t) : SameOutcome (probe s) (probe t) := by
  have h1 := sendAll_sameEnv (probeBytes s.cfg) h
  rw [probe_eq_probeBySends, probe_eq_probeBySends]
  unfold probeBySends
  rw [h.cfg]
  generalize sendAll (probeBytes s.cfg) s = r at h1 ⊢
  generalize sendAll (probeBytes s.cfg) t = r' at h1 ⊢
  obtain ⟨_ | _, s1⟩ := r <;> obtain ⟨_, t1⟩ := r' <;> obtain ⟨rfl, h1⟩ := h1
  · exact ⟨rfl, h1⟩
  · exact rdrsp_sameEnv h1

theorem probeStep_sameEnv (h : SameEnv s t) : SameEnv (probeStep s) (probeStep t) := by
  obtain ⟨_, hp⟩ := probe_sameEnv h
  rw [probeStep_eq, probeStep_eq]
  exact ⟨hp.cfg, hp.script, hp.draws, hp.history⟩

theorem initRun_sameEnv (h : SameEnv s t) : SameOutcome (initRun s) (initRun t) := by
  have h1 := enablePort_sameEnv h
  unfold initRun
  generalize enablePort s = r at h1 ⊢
  generalize enablePort t = r' at h1 ⊢
  obtain ⟨_ | _, s1⟩ := r <;> obtain ⟨_, t1⟩ := r' <;> obtain ⟨rfl, h1⟩ := h1
  · exact ⟨rfl, h1⟩
  have h2 := sendMandatory_sameEnv .initSetDefaults s1.cfg.cSetDefaults h1
  dsimp only at h1 ⊢
  rw [h1.cfg]
  generalize sendMandatory .initSetDefaults s1.cfg.cSetDefaults s1 = q at h2 ⊢
  generalize sendMandatory .initSetDefaults s1.cfg.cSetDefaults t1 = q' at h2 ⊢
  obtain ⟨_ | _, s2⟩ := q <;> obtain ⟨_, t2⟩ := q' <;> obtain ⟨rfl, h2⟩ := h2
  · exact ⟨rfl, h2⟩
  have h3 := probeStep_sameEnv h2
  dsimp only at h3 ⊢
  rw [h3.cfg]
  exact sendMandatory_sameEnv _ _ h3

/-- The two states agree on all that an operation shows but the registers. -/
structure SameShown (s t : State) : Prop extends SameEnv s t where
  results : t.results = s.results
  session : t.session = s.session

/-- Procedures that move the environment's side alike, from states that show the same, leave states that do. -/
theorem SameShown.of_sameEnv {u v : State} {e f : List Access} (h : SameShown s t) (hu : EnvOrWheel s u e)
    (hv : EnvOrWheel t v f) (huv : SameEnv u v) : SameShown u v :=
  { huv with
    results := by rw [hv.results_eq, hu.results_eq, h.results]
    session := by rw [hv.session_eq, hu.session_eq, h.session] }

theorem SameShown.deliver (r : Result) (h : SameShown s t) : SameShown (deliver r s) (deliver r t) :=
  ⟨⟨h.cfg, h.script, h.draws, h.history⟩, congrArg (· ++ [r]) h.results, h.session⟩

theorem finishUnit_wrcmd_sameShown (b : Byte) (h : SameShown s t) :
    SameShown (finishUnit (wrcmd b s)) (finishUnit (wrcmd b t)) := by
  obtain ⟨e, hu, _⟩ := wrcmd_spec b s
  obtain ⟨f, hv, _⟩ := wrcmd_spec b t
  obtain ⟨hr, huv⟩ := wrcmd_sameEnv b h.toSameEnv
  have hshown := h.of_sameEnv (.inl hu) (.inl hv) huv
  generalize wrcmd b s = r at hr hshown ⊢
  generalize wrcmd b t = r' at hr hshown ⊢
  obtain ⟨_ | _, u⟩ := r <;> obtain ⟨_, v⟩ := r' <;> cases hr <;> exact hshown.deliver _

theorem finishByte_rdrsp_sameShown (h : SameShown s t) :
    SameShown (finishByte (rdrsp s)) (finishByte (rdrsp t)) := by
  obtain ⟨e, hu, _⟩ := rdrsp_spec s
  obtain ⟨f, hv, _⟩ := rdrsp_spec t
  obtain ⟨hr, huv⟩ := rdrsp_sameEnv h.toSameEnv
  have hshown := h.of_sameEnv (.inl hu) (.inl hv) huv
  generalize rdrsp s = r at hr hshown ⊢
  generalize rdrsp t = r' at hr hshown ⊢
  obtain ⟨_ | _, u⟩ := r <;> obtain ⟨_, v⟩ := r' <;> cases hr <;> exact hshown.deliver _

theorem finishInit_initRun_sameShown (h : SameShown s t) :
    SameShown (finishInit (initRun s)) (finishInit (initRun t)) := by
  obtain ⟨e, hu, _⟩ := initRun_spec s
  obtain ⟨f, hv, _⟩ := initRun_spec t
  obtain ⟨hr, huv⟩ := initRun_sameEnv h.toSameEnv
  have hshown := h.of_sameEnv hu hv huv
  generalize initRun s = r at hr hshown ⊢
  generalize initRun t = r' at hr hshown ⊢
  obtain ⟨_ | _, u⟩ := r <;> obtain ⟨_, v⟩ := r' <;> cases hr
  · exact hshown.deliver _
  · exact { hshown.deliver .ok with session := rfl }

/-- A transport operation that completes from a state completes from every state that shows the same. -/
theorem exec_transport_sameShown {i : Instr} {s' : State}
    (hi : (∃ a, i = .init a) ∨ (∃ b, i = .wrcmd b) ∨ ∃ a, i = .rdrsp a) (h : SameShown s s') (hseq : s'.seq = s.seq)
    (hexec : exec i s = .next t) : ∃ t', exec i s' = .next t' ∧ SameShown t t' := by
  rcases hi with ⟨a, rfl⟩ | ⟨b, rfl⟩ | ⟨a, rfl⟩
  · obtain ⟨hq, hs⟩ := exec_init_next_ready hexec
    cases execInit_next (a := a) hexec
    exact ⟨_, exec_init_of_ready a (hseq.trans hq) (h.session.trans hs), finishInit_initRun_sameShown h⟩
  · obtain ⟨hq, hs⟩ := ready_of_exec_next (i := .wrcmd b) rfl nofun hexec
    cases execWrcmd_next (b := b) hexec
    exact ⟨_, exec_wrcmd_of_ready b ⟨hseq.trans hq, h.session ▸ hs⟩, finishUnit_wrcmd_sameShown b h⟩
  · obtain ⟨hq, hs⟩ := ready_of_exec_next (i := .rdrsp a) rfl nofun hexec
    cases execRdrsp_next (a := a) hexec
    exact ⟨_, exec_rdrsp_of_ready a ⟨hseq.trans hq, h.session ▸ hs⟩, finishByte_rdrsp_sameShown h⟩

end

end Sys2Proof.Machine

namespace Sys2Proof.Proofs

open Sys2Proof.Machine Sys2Proof.Claims

/-- Settles O42: step by step, each SEND of the ideal run by its number. -/
theorem initIdealRun : Obligations.InitIdealRun := by
  unfold Obligations.InitIdealRun
  intro a id clear ready ack rest s hq hs hw hr hclear hready hscript
  refine ⟨rfl, ?_⟩
  rw [exec_init_of_ready a hq hs, initRun_ideal ⟨hw, hr, hclear, hready⟩ hscript, applyId_eq]
  change Host.Outcome.next (finishInit (.ok (), tookAll (if id = 3 then configureWheel s else s) rest _)) = _
  split_ifs <;> rfl

/-- Settles O44: steps 1 and 2 followed from the first answer on. -/
theorem silentMouseAbortsInitAtSetDefaults : Obligations.SilentMouseAbortsInitAtSetDefaults := by
  unfold Obligations.SilentMouseAbortsInitAtSetDefaults
  intro a s hq hs w j1 j2 j3 toEnable toForward toPayload
  have hexec := exec_init_of_ready a hq hs
  have hpayload : toPayload = enableAccesses s ++ toPayloadAccesses s j1 := by
    change _ = waitAccesses s 0 ++ _ ++ (waitAccesses s j1 ++ _ ++ waitAccesses s (j1 + j2))
    simp only [← List.append_assoc]
    rfl
  refine ⟨fun ht h => ?enable, fun ht h1 h2 => ?wait1, fun ht h1 h2 h3 => ?wait2, fun h hno => ?poll⟩
  case enable =>
    have hp := enablePort_afterReads_error s 0 [] ht h
    simp only [afterReads_zero, Nat.zero_add, List.nil_append] at hp
    rw [hexec, initRun_of_enablePort_error hp]; rfl
  case wait1 =>
    rw [hexec, initRun_of_setDefaults_timeout s (.inr h1)
      (send_of_wrcmd_error (wrcmd_afterReads_wait1 s _ _ (enableAccesses s) ht h2))]
    rfl
  case wait2 =>
    rw [hexec, initRun_of_setDefaults_timeout s (.inr h1)
      (send_of_wrcmd_error (wrcmd_afterReads_wait2 s _ _ (enableAccesses s) ht h2 h3)), hpayload]
    rfl
  case poll =>
    have hw := wrcmd_afterReads_ok s s.cfg.cSetDefaults j1 (enableAccesses s) (h.imp id And.right)
    have hp := (send_of_wrcmd_ok hw).trans (pollLoop_afterReads_error s (n := s.cfg.rLimit) _ hno)
    rw [hexec, initRun_of_setDefaults_timeout s (h.imp id And.left) hp, hpayload]
    rfl

/-- Settles O40: each operation, from two states that show the same but the registers. -/
theorem transportIgnoresTheRegisters : Obligations.TransportIgnoresTheRegisters := by
  unfold Obligations.TransportIgnoresTheRegisters
  intro i s t hl hr hm x y wc ps buf idx hi h
  refine (exec_transport_sameShown (s := s) hi ?_ ?_ h).imp fun t' ⟨ht', hshown⟩ =>
    ⟨ht', hshown.history, hshown.results, hshown.script, hshown.draws, hshown.session⟩
  · exact ⟨⟨rfl, rfl, rfl, rfl⟩, rfl, rfl⟩
  · rfl

end Sys2Proof.Proofs
end

