-- ==== Sys2Proof/Proofs/Packets.lean ====
section
/-! PROOFS. FEEDs one after the other: a whole packet assembled (42_assembler.md rule R124), and one whose length an INIT changed on
the way (70_reset_and_hazards.md rule R190). -/

namespace Sys2Proof.Machine

open Sys2Proof.Claims

variable {s t : State}

/-- An accumulating FEED, by its fields. -/
theorem exec_feed_accumulates (b : Byte) (h : Ready s) (hl : s.lastSlot = false) :
    ∃ u, exec (.feed b) s = .next u ∧ Ready u ∧ u.packetSize = s.packetSize ∧ u.idx = s.idx + 1 ∧
      u.buf = s.buf.set s.idx b ∧ u.results = s.results ++ [.event none] :=
  ⟨_, exec_feed_of_not_lastSlot h.1 h.2 hl, h, rfl, rfl, rfl, rfl⟩

/-- A completing FEED, by its fields. -/
theorem exec_feed_completes (b : Byte) (h : Ready s) (hl : s.lastSlot = true) :
    ∃ u e, exec (.feed b) s = .next u ∧ u.idx = 0 ∧ u.buf = s.buf.set s.idx b ∧ u.results = s.results ++ [.event e] := by
  obtain ⟨u, e, hexec, _, hres⟩ := exec_feed_of_ready b h
  obtain ⟨_, _, hbuf, hidx⟩ := execFeed_frame (b := b) hexec
  exact ⟨u, e, hexec, by rw [hidx, if_pos hl], hbuf, hres⟩

/-- The fourth byte of a 4-byte packet hands it to the decoder. -/
theorem exec_feed_fourth (b : Byte) (h : Ready s) (hp : s.packetSize = .four) (hi : s.idx = 3) :
    exec (.feed b) s =
      exec (decodeP4 s.buf.b0 s.buf.b1 s.buf.b2 b) { s with buf := ⟨s.buf.b0, s.buf.b1, s.buf.b2, b⟩, idx := 0 } := by
  have hl : s.lastSlot = true := (lastSlot_iff s).2 (by rw [hi, hp]; rfl)
  have hstored : setIdx 0 (storeByte b s) = { s with buf := ⟨s.buf.b0, s.buf.b1, s.buf.b2, b⟩, idx := 0 } := by
    rw [storeByte, hi]; rfl
  rw [exec_feed_of_lastSlot h.1 h.2 hl, hstored, runPacket_eq, State.packetInstr]
  simp only [hp]

/-- INIT leaves the host free to request, with the fill index and the buffer as they were. -/
theorem exec_init_next {a : Byte} (h : exec (.init a) s = .next t) : Ready t ∧ t.idx = s.idx ∧ t.buf = s.buf := by
  obtain ⟨hq, hs⟩ := exec_init_next_ready h
  have hend := finishInit_initRun_end s
  have hcases := finishInit_initRun_cases s
  rw [← execInit_next (a := a) h] at hend hcases
  refine ⟨⟨hend.seq.trans hq, ?_⟩, hend.idx, hend.buf⟩
  rcases hcases with ⟨_, hsession⟩ | ⟨_, _, hsession, _⟩
  · rw [hsession]; decide
  · rw [hsession, hs]; decide

/-- Below the last index of a 4-byte packet. -/
theorem lastSlot_of_four {i : Fin 4} (hp : s.packetSize = .four) (hi : s.idx = i) (h : i.val < 3) : s.lastSlot = false := by
  refine (lastSlot_eq_false_iff s).2 ?_
  rw [hp, hi]
  exact h.ne

end Sys2Proof.Machine

namespace Sys2Proof.Proofs

open Sys2Proof.Machine Sys2Proof.Claims

/-- Settles O16: by induction on the bytes still to come; the last one completes. -/
theorem packetAssemblyRoundTrip : Obligations.PacketAssemblyRoundTrip := by
  unfold Obligations.PacketAssemblyRoundTrip
  intro s bytes
  induction bytes generalizing s with
  | nil =>
    intro _ hlt hlen
    rw [List.length_nil] at hlen
    omega
  | cons b rest ih =>
    intro h hlt hlen
    rw [List.length_cons] at hlen
    cases hl : s.lastSlot with
    | true =>
      have hidx := (lastSlot_iff s).1 hl
      obtain rfl : rest = [] := List.eq_nil_of_length_eq_zero (by omega)
      obtain ⟨t, e, hexec, ht, hbuf, hres⟩ := exec_feed_completes b h hl
      refine ⟨t, e, (execAll_cons hexec).trans rfl, ht, by rw [hres]; simp, fun j hj => ?_⟩
      rw [hbuf, PacketBuf.get_set]
      by_cases hji : j = s.idx
      · subst hji; simp
      · have hne : j.val ≠ s.idx.val := fun heq => hji (Fin.ext heq)
        rw [if_neg hji, if_pos (by omega)]
    | false =>
      have hne := (lastSlot_eq_false_iff s).1 hl
      obtain ⟨u, hexec, hu, hp, hi, hbuf, hres⟩ := exec_feed_accumulates b h hl
      have hival : u.idx.val = s.idx.val + 1 := by rw [hi]; exact idx_add_one_val (by omega)
      obtain ⟨t, e, hrun, ht, htres, htbuf⟩ := ih u hu (by rw [hival, hp]; omega) (by rw [hival, hp]; omega)
      refine ⟨t, e, (execAll_cons hexec).trans hrun, ht, ?_, fun j hj => ?_⟩
      · obtain ⟨n, hn⟩ : ∃ n, rest.length = n + 1 := ⟨rest.length - 1, by omega⟩
        rw [htres, hres, List.length_cons, hn]
        simp [List.replicate_succ]
      · rw [htbuf j (hp ▸ hj), hbuf, PacketBuf.get_set, hival]
        by_cases hji : j = s.idx
        · subst hji; simp
        · have hne : j.val ≠ s.idx.val := fun heq => hji (Fin.ext heq)
          rw [if_neg hji]
          by_cases hlt : j.val < s.idx.val
          · rw [if_pos hlt, if_pos (by omega)]
          · obtain ⟨k, hk⟩ : ∃ k, j.val - s.idx.val = k + 1 := ⟨j.val - s.idx.val - 1, by omega⟩
            rw [if_neg hlt, if_neg (by omega), hk, List.getD_cons_succ]
            congr 1
            omega

/-- Settles O47: INIT keeps the stored bytes and the index, so the FEEDs go on in the 4-byte format. -/
theorem initInMidPacketLengthensIt : Obligations.InitInMidPacketLengthensIt := by
  unfold Obligations.InitInMidPacketLengthensIt
  intro a b b' b'' s t h _ hp
  obtain ⟨ht, hidx, hbuf⟩ := exec_init_next h
  refine ⟨fun h1 => ?_, fun h2 => ?_⟩
  · have ht1 : t.idx = 1 := hidx.trans h1
    obtain ⟨u, hu, hur, hup, hui, hub, hures⟩ := exec_feed_accumulates b ht (lastSlot_of_four hp ht1 (by decide))
    have hu2 : u.idx = 2 := by rw [hui, ht1]; rfl
    obtain ⟨v, hv, hvr, hvp, hvi, hvb, hvres⟩ :=
      exec_feed_accumulates b' hur (lastSlot_of_four (hup.trans hp) hu2 (by decide))
    have hv3 : v.idx = 3 := by rw [hvi, hu2]; rfl
    refine ⟨u, v, hu, hu2, hures, hv, hv3, hvres, ?_⟩
    rw [exec_feed_fourth b'' hvr (hvp.trans (hup.trans hp)) hv3, hvb, hub, ht1, hu2, hbuf]
    rfl
  · have ht2 : t.idx = 2 := hidx.trans h2
    obtain ⟨u, hu, hur, hup, hui, hub, hures⟩ := exec_feed_accumulates b ht (lastSlot_of_four hp ht2 (by decide))
    have hu3 : u.idx = 3 := by rw [hui, ht2]; rfl
    refine ⟨u, hu, hu3, hures, ?_⟩
    rw [exec_feed_fourth b' hur (hup.trans hp) hu3, hub, ht2, hbuf]
    rfl

end Sys2Proof.Proofs
end

