-- ==== Sys2Proof/Proofs/Refinement.lean ====
section
/-! PROOFS. 40_transport.md rule R89: an operation taken one port access at a time. Each `begin…` of the sequencer, run for as many
steps as its procedure makes accesses, ends where the procedure's result sends the caller (`resume`). The sequencer's own moves
never look at the position they leave, so the procedure may be followed on a state whose position is left over. -/

namespace Sys2Proof.Machine

open Sys2Proof.Claims

variable {s t u : State}

/-! ### Runs counted in accesses -/

/-- `t` is reached from `s` in as many steps as accesses are made. -/
def Steps (s t : State) : Prop :=
  ∃ n, t.history.length = s.history.length + n ∧ Host.Core.run core n s = .next t

theorem Core.run_add {M : Host.Core} {m n : Nat} {a b c : M.State} (h : M.run m a = .next b) (k : M.run n b = .next c) :
    M.run (m + n) a = .next c := by
  induction m generalizing a with
  | zero => cases h; rwa [Nat.zero_add]
  | succ m ih =>
    rw [Nat.add_right_comm, Host.Core.run]
    rw [Host.Core.run] at h
    cases hs : M.step a with
    | next a' => rw [hs] at h; exact ih h
    | fault r => rw [hs] at h; cases h
    | refused r => rw [hs] at h; cases h

namespace Steps

theorem refl (s : State) : Steps s s := ⟨0, rfl, rfl⟩

theorem of_eq (h : s = t) : Steps s t := h ▸ refl s

theorem trans (h : Steps s t) (k : Steps t u) : Steps s u := by
  obtain ⟨m, hm, hrun⟩ := h
  obtain ⟨n, hn, krun⟩ := k
  exact ⟨m + n, by omega, Core.run_add (M := core) hrun krun⟩

/-- One access of an operation in progress. -/
theorem of_microStep (h : s.seq.mayDecode = false) : Steps s (microStep s) := by
  obtain ⟨s1, x, n, henv, _, _, hm⟩ := microStep_oneAccess h
  refine ⟨1, ?_, (run_succ (step_of_inProgress h)).trans rfl⟩
  rw [hm.history_eq, henv.history_eq, List.length_append, List.length_singleton]

/-- The same from a position set over a state. -/
theorem of_setSeq {q : Seq} (hq : q.mayDecode = false) (h : microStep (setSeq q s) = t) : Steps (setSeq q s) t :=
  h ▸ of_microStep hq

end Steps

/-! ### The position left behind is not looked at -/

theorem respondedFor_setSeq (c : Caller) (v : Byte) (q : Seq) (s : State) :
    respondedFor c v (setSeq q s) = respondedFor c v s := by
  cases c with
  | host => rfl
  | init stage =>
    cases stage with
    | setDefaults => rfl
    | rateCmd r => rfl
    | rateArg r => cases r <;> rfl
    | getId => rfl
    | readId =>
      change beginStream (applyId v (setSeq q s)) = beginStream (applyId v s)
      rw [applyId_eq, applyId_eq]
      split_ifs <;> rfl
    | stream => rfl

theorem portRead_setSeq (p : PortAddr) (q : Seq) (s : State) :
    portRead p (setSeq q s) = ((portRead p s).1, setSeq q (portRead p s).2) := by
  cases h : s.script <;> simp only [portRead, setSeq_script, h] <;> rfl

theorem readStatus_setSeq (q : Seq) (s : State) :
    readStatus (setSeq q s) = ((readStatus s).1, setSeq q (readStatus s).2) := portRead_setSeq _ q s

theorem readData_setSeq (q : Seq) (s : State) :
    readData (setSeq q s) = ((readData s).1, setSeq q (readData s).2) := portRead_setSeq _ q s

/-! ### The waits -/

/-- A family of positions of one wait: a position makes a status read and stays, ends as exhausted, or ends as cleared. -/
structure IsWait (pos : Nat → Seq) (clr exh : State → State) : Prop where
  busy : ∀ cnt, (pos cnt).mayDecode = false
  micro : ∀ cnt s, microStep (setSeq (pos cnt) s) =
    if inputFull s.cfg (readStatus s).1 then
      if cnt + 1 < s.cfg.wLimit then setSeq (pos (cnt + 1)) (readStatus s).2 else exh (readStatus s).2
    else clr (readStatus s).2

/-- Where a wait's result leads. -/
def waitEnd (clr exh : State → State) : Wait × State → State
  | (.cleared, s) => clr s
  | (.exhausted, s) => exh s

theorem isWait_enable :
    IsWait .enableWait (fun s => setSeq (.emit .stcmd s.cfg.cEnableAux .enabled) s) exhaustedEnable where
  busy _ := rfl
  micro cnt s := by
    have hcfg : (readStatus s).2.cfg = s.cfg := portRead_cfg s _
    simp only [microStep, setSeq_seq, readStatus_setSeq, setSeq_cfg, hcfg]
    rfl

theorem isWait_wait1 (b : Byte) (c : Caller) : IsWait (.wait1 · b c) (toForward b c) (exhausted1 b c) where
  busy _ := rfl
  micro cnt s := by
    simp only [microStep, setSeq_seq, readStatus_setSeq, setSeq_cfg]
    rfl

theorem isWait_wait2 (b : Byte) (c : Caller) :
    IsWait (.wait2 · b c) (setSeq (.emit .data b (.sent c))) (exhausted2 b c) where
  busy _ := rfl
  micro cnt s := by
    simp only [microStep, setSeq_seq, readStatus_setSeq, setSeq_cfg]
    rfl

/-- A wait with `n` reads left in its budget. -/
theorem IsWait.steps {pos : Nat → Seq} {clr exh : State → State} (h : IsWait pos clr exh) (n cnt : Nat) (s : State)
    (hn : cnt + (n + 1) = s.cfg.wLimit) : Steps (setSeq (pos cnt) s) (waitEnd clr exh (waitLoop (n + 1) s)) := by
  induction n generalizing cnt s with
  | zero =>
    refine .of_setSeq (h.busy cnt) ?_
    rw [h.micro, waitLoop, if_neg (by omega : ¬cnt + 1 < s.cfg.wLimit)]
    dsimp only
    split_ifs <;> rfl
  | succ n ih =>
    have hcfg : (readStatus s).2.cfg = s.cfg := portRead_cfg s _
    have hstep := Steps.of_setSeq (h.busy cnt) (h.micro cnt s)
    rw [if_pos (by omega : cnt + 1 < s.cfg.wLimit)] at hstep
    rw [waitLoop]
    dsimp only
    split_ifs at hstep ⊢
    · exact hstep.trans (ih (cnt + 1) (readStatus s).2 (by rw [hcfg]; omega))
    · exact hstep

/-- A whole wait, with a budget or without. -/
theorem IsWait.steps_begin {pos : Nat → Seq} {clr exh : State → State} (h : IsWait pos clr exh) (s : State) :
    Steps (if 0 < s.cfg.wLimit then setSeq (pos 0) s else exh s) (waitEnd clr exh (waitInputClear s)) := by
  split_ifs with hw
  · obtain ⟨n, hn⟩ := Nat.exists_eq_succ_of_ne_zero hw.ne'
    rw [waitInputClear, hn]
    exact h.steps n 0 s (by omega)
  · rw [waitInputClear, Nat.eq_zero_of_not_pos hw]
    exact .refl _

/-! ### Where a procedure's result leads -/

/-- Go on with the value, or with the error. -/
def resume {α : Type} (ok : α → State → State) (fail : ErrorKind → State → State) : Except ErrorKind α × State → State
  | (.ok v, s) => ok v s
  | (.error e, s) => fail e s

/-- The site a Timeout of the transport names. -/
def ErrorKind.site : ErrorKind → Site
  | .timeout site => site
  | .unsupportedFeature => .rdrsp

/-- An error of the transport on behalf of a caller. -/
def failFor (c : Caller) (e : ErrorKind) (s : State) : State := timeoutFor c e.site s

/-- The wait before a write, by what its exhaustion means. -/
theorem waitEnd_eq_resume {clr exh : State → State} {fail : ErrorKind → State → State} {site : Site}
    (h : ∀ s, exh s = match s.cfg.wrExhaust with
      | .proceed => clr s
      | .timeout => fail (.timeout site) s) (s : State) :
    waitEnd clr exh (waitInputClear s) = resume (fun _ => clr) fail (writeWait site s) := by
  unfold writeWait
  rcases waitInputClear s with ⟨_ | _, s1⟩
  · rfl
  · dsimp only [waitEnd]
    rw [h]
    cases s1.cfg.wrExhaust <;> rfl

/-! ### WRCMD, RDRSP and SEND -/

/-- A write position writes its byte and goes on. -/
theorem steps_emit (p : Port) (b : Byte) (k : AfterWrite) (s : State) :
    Steps (setSeq (.emit p b k) s) (afterWrite k (writePort p b s)) :=
  .of_setSeq rfl rfl

theorem steps_beginWrite (b : Byte) (c : Caller) (s : State) :
    Steps (beginWrite b c s) (resume (fun _ => toForward b c) (failFor c) (writeWait .wrcmdWait1 s)) := by
  rw [← waitEnd_eq_resume (exh := exhausted1 b c) (fun _ => rfl)]
  exact (isWait_wait1 b c).steps_begin s

theorem steps_beginWait2 (b : Byte) (c : Caller) (s : State) :
    Steps (beginWait2 b c s)
      (resume (fun _ => setSeq (.emit .data b (.sent c))) (failFor c) (writeWait .wrcmdWait2 s)) := by
  rw [← waitEnd_eq_resume (exh := exhausted2 b c) (fun _ => rfl)]
  exact (isWait_wait2 b c).steps_begin s

/-- WRCMD on behalf of a caller. -/
theorem steps_wrcmd (b : Byte) (c : Caller) (s : State) :
    Steps (beginWrite b c s) (resume (fun _ => afterWrite (.sent c)) (failFor c) (wrcmd b s)) := by
  have h1 := steps_beginWrite b c s
  unfold wrcmd
  generalize writeWait .wrcmdWait1 s = r at h1 ⊢
  obtain ⟨e | _, s1⟩ := r
  · exact h1
  have h2 := (h1.trans (steps_emit .stcmd s1.cfg.cFwdAux (.forwarded b c) s1)).trans
    (steps_beginWait2 b c (writePort .stcmd s1.cfg.cFwdAux s1))
  dsimp only
  generalize writeWait .wrcmdWait2 (writePort .stcmd s1.cfg.cFwdAux s1) = r at h2 ⊢
  obtain ⟨e | _, s2⟩ := r
  · exact h2
  · exact h2.trans (steps_emit .data b (.sent c) s2)

theorem microStep_poll (cnt : Nat) (c : Caller) (s : State) :
    microStep (setSeq (.poll cnt c) s) =
      if responseReady s.cfg (readStatus s).1 then setSeq (.dataRead c) (readStatus s).2
      else if cnt + 1 < s.cfg.rLimit then setSeq (.poll (cnt + 1) c) (readStatus s).2
      else timeoutFor c .rdrsp (readStatus s).2 := by
  simp only [microStep, setSeq_seq, readStatus_setSeq, setSeq_cfg]
  rfl

theorem steps_dataRead (c : Caller) (s : State) :
    Steps (setSeq (.dataRead c) s) (respondedFor c (readData s).1 (readData s).2) := by
  refine .of_setSeq rfl ?_
  simp only [microStep, setSeq_seq, readData_setSeq, respondedFor_setSeq]

/-- A poll with `n` reads left in its budget. -/
theorem steps_poll (c : Caller) (n cnt : Nat) (s : State) (hn : cnt + (n + 1) = s.cfg.rLimit) :
    Steps (setSeq (.poll cnt c) s) (resume (respondedFor c) (failFor c) (pollLoop (n + 1) s)) := by
  induction n generalizing cnt s with
  | zero =>
    have hstep := Steps.of_setSeq (q := .poll cnt c) rfl (microStep_poll cnt c s)
    rw [if_neg (by omega : ¬cnt + 1 < s.cfg.rLimit)] at hstep
    rw [pollLoop]
    dsimp only
    split_ifs at hstep ⊢
    · exact hstep.trans (steps_dataRead c (readStatus s).2)
    · exact hstep
  | succ n ih =>
    have hcfg : (readStatus s).2.cfg = s.cfg := portRead_cfg s _
    have hstep := Steps.of_setSeq (q := .poll cnt c) rfl (microStep_poll cnt c s)
    rw [if_pos (by omega : cnt + 1 < s.cfg.rLimit)] at hstep
    rw [pollLoop]
    dsimp only
    split_ifs at hstep ⊢
    · exact hstep.trans (steps_dataRead c (readStatus s).2)
    · exact hstep.trans (ih (cnt + 1) (readStatus s).2 (by rw [hcfg]; omega))

/-- RDRSP on behalf of a caller. -/
theorem steps_rdrsp (c : Caller) (s : State) :
    Steps (beginPoll c s) (resume (respondedFor c) (failFor c) (rdrsp s)) := by
  unfold beginPoll
  split_ifs with hr
  · obtain ⟨n, hn⟩ := Nat.exists_eq_succ_of_ne_zero hr.ne'
    rw [rdrsp, hn]
    exact steps_poll c n 0 s (by omega)
  · rw [rdrsp, Nat.eq_zero_of_not_pos hr]
    exact .refl _

/-- A SEND of INIT. -/
theorem steps_send (b : Byte) (stage : InitStage) (s : State) :
    Steps (beginWrite b (.init stage) s)
      (resume (respondedFor (.init stage)) (failFor (.init stage)) (send b s)) := by
  have h1 := steps_wrcmd b (.init stage) s
  unfold send
  generalize wrcmd b s = r at h1 ⊢
  obtain ⟨e | _, s1⟩ := r
  · exact h1
  · exact h1.trans (steps_rdrsp (.init stage) s1)

/-! ### INIT -/

/-- Where the rest of the probe leads: the SENDs of `l`, then the ID byte. -/
def probeEnd (l : List Byte) (s : State) : State :=
  resume (fun _ u => resume (fun id v => beginStream (applyId id v)) (fun _ => beginStream) (rdrsp u))
    (fun _ => beginStream) (sendAll l s)

/-- The last read of the probe. -/
theorem steps_readId (s : State) : Steps (beginPoll (.init .readId) s) (probeEnd [] s) := steps_rdrsp (.init .readId) s

/-- A SEND of the probe, at a stage whose Timeout goes on to step 6. -/
theorem steps_probe_send {b : Byte} {stage : InitStage} {rest : List Byte} {s : State}
    (hfail : ∀ e u, failFor (.init stage) e u = beginStream u)
    (hnext : ∀ v u, u.cfg = s.cfg → Steps (respondedFor (.init stage) v u) (probeEnd rest u)) :
    Steps (beginWrite b (.init stage) s) (probeEnd (b :: rest) s) := by
  have h1 := steps_send b stage s
  have hcfg := send_cfg b s
  unfold probeEnd
  rcases hsend : send b s with ⟨e | v, u⟩ <;> rw [hsend] at h1 hcfg
  · rw [sendAll_cons_error hsend]
    exact h1.trans (.of_eq (hfail e u))
  · rw [sendAll_cons_ok hsend]
    exact h1.trans (hnext v u hcfg)

/-- The rest of the probe is what `probeStep` gives, with step 6 begun. -/
theorem probeEnd_probeBytes (s : State) : probeEnd (probeBytes s.cfg) s = beginStream (probeStep s) := by
  have hprobe := probe_eq_probeBySends s
  unfold probeBySends at hprobe
  unfold probeEnd probeStep
  rcases hall : sendAll (probeBytes s.cfg) s with ⟨e | _, u⟩ <;> rw [hall] at hprobe <;> rw [hprobe]
  · rfl
  · dsimp only [resume]
    rcases rdrsp u with ⟨e | id, v⟩ <;> rfl

/-- Steps 3 to 5: the seven SENDs of the probe, each stage going on to the next byte, and the ID byte. -/
theorem steps_probe (s : State) :
    Steps (beginWrite s.cfg.cSetRate (.init (.rateCmd .r200)) s) (beginStream (probeStep s)) := by
  rw [← probeEnd_probeBytes]
  refine steps_probe_send (fun _ _ => rfl) fun _ s1 h1 => ?_
  refine steps_probe_send (fun _ _ => rfl) fun _ s2 h2 => ?_
  rw [← h1, ← h2]
  refine steps_probe_send (fun _ _ => rfl) fun _ s3 h3 => ?_
  refine steps_probe_send (fun _ _ => rfl) fun _ s4 h4 => ?_
  rw [← h3, ← h4]
  refine steps_probe_send (fun _ _ => rfl) fun _ s5 h5 => ?_
  refine steps_probe_send (fun _ _ => rfl) fun _ s6 h6 => ?_
  rw [← h5, ← h6]
  exact steps_probe_send (fun _ _ => rfl) fun _ s7 _ => steps_readId s7

/-- An error that ends the operation. -/
def endError (e : ErrorKind) (s : State) : State := setSeq .idle (raiseToHost e s)

/-- Step 1. -/
theorem steps_enablePort (s : State) :
    Steps (beginEnable s)
      (resume (fun _ u => beginWrite u.cfg.cSetDefaults (.init .setDefaults) u) endError (enablePort s)) := by
  have h1 := isWait_enable.steps_begin s
  rw [waitEnd_eq_resume (exh := exhaustedEnable) (fail := endError) (site := .initEnablePort) fun _ => rfl] at h1
  unfold enablePort
  generalize writeWait .initEnablePort s = r at h1 ⊢
  obtain ⟨e | _, s1⟩ := r
  · exact h1
  · exact h1.trans (steps_emit .stcmd s1.cfg.cEnableAux .enabled s1)

/-- Step 2. -/
theorem steps_setDefaults (s : State) :
    Steps (beginWrite s.cfg.cSetDefaults (.init .setDefaults) s)
      (resume (fun _ u => beginWrite u.cfg.cSetRate (.init (.rateCmd .r200)) u) endError
        (sendMandatory .initSetDefaults s.cfg.cSetDefaults s)) := by
  have h := steps_send s.cfg.cSetDefaults .setDefaults s
  unfold sendMandatory
  generalize send s.cfg.cSetDefaults s = r at h ⊢
  obtain ⟨e | v, u⟩ := r <;> exact h

/-- Step 6. -/
theorem steps_stream (s : State) :
    Steps (beginStream s) (setSeq .idle (finishInit (sendMandatory .initEnableStream s.cfg.cEnableStream s))) := by
  have h := steps_send s.cfg.cEnableStream .stream s
  rw [beginWrite_stream]
  unfold sendMandatory
  generalize send s.cfg.cEnableStream s = r at h ⊢
  obtain ⟨e | v, u⟩ := r <;> exact h

/-! ### The three operations of the host -/

theorem steps_host_wrcmd (b : Byte) (s : State) :
    Steps (beginWrite b .host s) (setSeq .idle (finishUnit (wrcmd b s))) := by
  have h := steps_wrcmd b .host s
  obtain ⟨_, _, _, hres⟩ := wrcmd_spec b s
  generalize wrcmd b s = r at h hres ⊢
  obtain ⟨e | _, u⟩ := r
  · rcases hres with ⟨he, _⟩ | ⟨_, ⟨he, _⟩ | ⟨he, _⟩⟩ <;> cases he <;> exact h
  · exact h

theorem steps_host_rdrsp (s : State) : Steps (beginPoll .host s) (setSeq .idle (finishByte (rdrsp s))) := by
  have h := steps_rdrsp .host s
  obtain ⟨_, _, _, _, hres⟩ := rdrsp_spec s
  generalize rdrsp s = r at h hres ⊢
  obtain ⟨e | _, u⟩ := r
  · rcases hres with ⟨_, he, _⟩ | he <;> cases he
    exact h
  · exact h

theorem steps_initRun (s : State) : Steps (beginEnable s) (setSeq .idle (finishInit (initRun s))) := by
  have h1 := steps_enablePort s
  rcases initRun_cases s with ⟨e, s1, hp, h⟩ | ⟨s1, e, s2, hp, hd, h⟩ | ⟨s1, s2, hp, hd, h⟩ <;> rw [hp] at h1 <;> rw [h]
  · exact h1
  all_goals
    have h2 := h1.trans (steps_setDefaults s1)
    rw [hd] at h2
  · exact h2
  · exact (h2.trans (steps_probe s2)).trans (steps_stream (probeStep s2))

/-! ### As many steps as the history grew by -/

/-- Beginning INIT makes no access. -/
theorem beginEnable_history (s : State) : (beginEnable s).history = s.history := by
  unfold beginEnable
  split_ifs
  · rfl
  · exact (exhaustedEnable_moved s).history_eq

theorem Steps.run (h : Steps s (setSeq .idle t)) (hs : s.history = u.history) (ht : t.seq = .idle) :
    Host.Core.run core (t.history.length - u.history.length) s = .next t := by
  obtain ⟨n, hn, hrun⟩ := h
  have hend : setSeq .idle t = t := by rw [← ht]; rfl
  rw [hend, hs] at hn
  rw [hend] at hrun
  rwa [hn, Nat.add_sub_cancel_left]

end Sys2Proof.Machine

namespace Sys2Proof.Proofs

open Sys2Proof.Machine

/-- Settles O55: each procedure's result is followed through the sequencer (`steps_host_wrcmd`, `steps_host_rdrsp`,
`steps_initRun`), one step an access. -/
theorem steppingAnOperationGivesItsWholeEffect : Obligations.SteppingAnOperationGivesItsWholeEffect := by
  unfold Obligations.SteppingAnOperationGivesItsWholeEffect
  intro a s t
  refine ⟨fun h => ?_, fun h => ?_, fun h => ?_⟩
  · obtain ⟨hq, hs⟩ := ready_of_exec_next (i := .wrcmd a) rfl nofun h
    obtain rfl := execWrcmd_next (b := a) h
    exact ⟨beginWrite a .host s, acceptRequest_of_ready _ hq hs,
      (steps_host_wrcmd a s).run (beginWrite_moved s a .host).history_eq
        ((finishUnit_wrcmd_end a s).seq.trans hq)⟩
  · obtain ⟨hq, hs⟩ := ready_of_exec_next (i := .rdrsp a) rfl nofun h
    obtain rfl := execRdrsp_next (a := a) h
    exact ⟨beginPoll .host s, acceptRequest_of_ready _ hq hs,
      (steps_host_rdrsp s).run (beginPoll_moved s .host).history_eq
        ((finishByte_rdrsp_end s).seq.trans hq)⟩
  · obtain ⟨hq, hs⟩ := exec_init_next_ready h
    obtain rfl := execInit_next (a := a) h
    refine ⟨beginEnable s, ?_, (steps_initRun s).run (beginEnable_history s) ((finishInit_initRun_end s).seq.trans hq)⟩
    unfold beginInit
    rw [acceptRequest_of_ready _ hq (by rw [hs]; nofun), hs]

end Sys2Proof.Proofs
end
